-- ==== Sys2Proof/Word.lean ====
section
/-! DEFINITION. The value types `u8` and `u32` (spec/00_scope.md R9). -/

namespace Sys2Proof

/-- An 8-bit cell of `MSG` or `HEX` (spec/00_scope.md R7, R9). -/
abbrev Byte := BitVec 8

/-- A 32-bit unsigned integer, "the primitive unit of MD5's internal state and message blocks"
(spec/00_scope.md R9, R22). -/
abbrev Word := BitVec 32

end Sys2Proof
end

