-- ==== Sys2Proof/Syntax.lean ====
section
/-! DEFINITION. The operations of the block as syntax: the 74 micro-operations and the two commands
(spec/30_encoding.md R104, R106), the two places a code can stand in (R100), the pseudo-form of a step (R120),
and the accesses and moves of the agents outside the engine (spec/20_memory.md R81, spec/00_scope.md R19). -/

namespace Sys2Proof

/-- One constructor per row of spec/opcode_table.json.
No operation has an operand field (spec/30_encoding.md R107). -/
inductive Instr where
  -- round 1: spec/42_round1_ff.md
  | ff0 | ff1 | ff2 | ff3 | ff4 | ff5 | ff6 | ff7
  | ff8 | ff9 | ff10 | ff11 | ff12 | ff13 | ff14 | ff15
  -- round 2: spec/43_round2_gg.md
  | gg16 | gg17 | gg18 | gg19 | gg20 | gg21 | gg22 | gg23
  | gg24 | gg25 | gg26 | gg27 | gg28 | gg29 | gg30 | gg31
  -- round 3: spec/44_round3_hh.md
  | hh32 | hh33 | hh34 | hh35 | hh36 | hh37 | hh38 | hh39
  | hh40 | hh41 | hh42 | hh43 | hh44 | hh45 | hh46 | hh47
  -- round 4: spec/45_round4_ii.md
  | ii48 | ii49 | ii50 | ii51 | ii52 | ii53 | ii54 | ii55
  | ii56 | ii57 | ii58 | ii59 | ii60 | ii61 | ii62 | ii63
  -- the padder: spec/40_padder.md R142, R144, R146, R147
  | pack | mark | zext | lenw
  -- core control: spec/41_core_entry.md R160, R161, spec/46_chain_sequencer.md R270
  | init | snap | chain
  -- encoder and stop: spec/47_encoder.md R291, R293, R295
  | encl | encu | fin
  -- host commands: spec/48_commands.md R301, R302
  | hashl | hashu
  deriving DecidableEq, Repr

/-- The encoded form of an operation: an 8-bit micro-operation code in `UPC`, or a 32-bit word written to
`CTRL` (spec/30_encoding.md R100). -/
inductive Code where
  | uop (c : BitVec 8)
  | cmd (v : Word)
  deriving DecidableEq, Repr

/-- The four nonlinear functions (spec/00_scope.md R24, spec/41_core_entry.md R162 to R165). -/
inductive Fn where
  | f | g | h | i
  deriving DecidableEq, Repr

/-- The pseudo-instruction `STEP fn, k, s, t` (spec/30_encoding.md R120). -/
structure PseudoStep where
  fn : Fn
  k  : Nat
  s  : Nat
  t  : Word
  deriving DecidableEq, Repr

/-- One access of the host (spec/10_state.md R56, spec/20_memory.md R81).
A register is named by its byte offset in `REG` (spec/10_state.md R45), a cell of `MSG` or `HEX` by its index. -/
inductive HostAccess where
  | readReg  (off : Nat)
  | writeReg (off : Nat) (v : Word)
  | readMsg  (a : Nat)
  | writeMsg (a : Nat) (b : Byte)
  | readHex  (p : Nat)
  | writeHex (p : Nat) (b : Byte)
  deriving DecidableEq, Repr

/-- One move of an agent outside the engine.
`engine` hands the turn to the engine: the moves of a run in their order are the interleaving of
host accesses and engine steps (spec/60_exceptions.md R325).
`reset` is the platform's reset line (spec/70_reset_and_hazards.md R350).
DESIGN CHOICE, log 1: which agent moves next is plain data. -/
inductive HostMove where
  | engine
  | access (a : HostAccess)
  | reset
  deriving DecidableEq, Repr

/-- What a host read returned: a register of 32 bits or a cell of 8 bits (spec/20_memory.md R74). -/
inductive HostAnswer where
  | word (v : Word)
  | byte (b : Byte)
  deriving DecidableEq, Repr

end Sys2Proof
end

