-- ==== Sys2Proof/Machine/Tables.lean ====
section
/-! DEFINITION. The constant tables (spec/10_state.md R52): configuration that nothing writes and reset does not
affect. The literals, not the formulas, are normative (spec/30_encoding.md R105, R112, spec/41_core_entry.md R172). -/

namespace Sys2Proof.Machine

/-- `IVROM[0..3]` (spec/30_encoding.md R109). -/
def ivRom : List Word := [0x67452301, 0xefcdab89, 0x98badcfe, 0x10325476]

/-- `KTAB`, the message-word index of each step, 4 bits (spec/30_encoding.md R105, R110): round 1. -/
def kTabRoundOne : List (Fin 16) :=
  [0, 1, 2, 3, 4, 5, 6, 7, 8, 9, 10, 11, 12, 13, 14, 15]

/-- `KTAB`, the message-word index of each step, 4 bits (spec/30_encoding.md R105, R110): round 2. -/
def kTabRoundTwo : List (Fin 16) :=
  [1, 6, 11, 0, 5, 10, 15, 4, 9, 14, 3, 8, 13, 2, 7, 12]

/-- `KTAB`, the message-word index of each step, 4 bits (spec/30_encoding.md R105, R110): round 3. -/
def kTabRoundThree : List (Fin 16) :=
  [5, 8, 11, 14, 1, 4, 7, 10, 13, 0, 3, 6, 9, 12, 15, 2]

/-- `KTAB`, the message-word index of each step, 4 bits (spec/30_encoding.md R105, R110): round 4. -/
def kTabRoundFour : List (Fin 16) :=
  [0, 7, 14, 5, 12, 3, 10, 1, 8, 15, 6, 13, 4, 11, 2, 9]

/-- `KTAB`, the message-word index of each step, 4 bits (spec/30_encoding.md R105, R110). -/
def kTab : List (Fin 16) := kTabRoundOne ++ kTabRoundTwo ++ kTabRoundThree ++ kTabRoundFour

/-- `STAB`, the rotation amount of each step, 5 bits (spec/30_encoding.md R105, R111): round 1. -/
def sTabRoundOne : List (Fin 32) :=
  [7, 12, 17, 22, 7, 12, 17, 22, 7, 12, 17, 22, 7, 12, 17, 22]

/-- `STAB`, the rotation amount of each step, 5 bits (spec/30_encoding.md R105, R111): round 2. -/
def sTabRoundTwo : List (Fin 32) :=
  [5, 9, 14, 20, 5, 9, 14, 20, 5, 9, 14, 20, 5, 9, 14, 20]

/-- `STAB`, the rotation amount of each step, 5 bits (spec/30_encoding.md R105, R111): round 3. -/
def sTabRoundThree : List (Fin 32) :=
  [4, 11, 16, 23, 4, 11, 16, 23, 4, 11, 16, 23, 4, 11, 16, 23]

/-- `STAB`, the rotation amount of each step, 5 bits (spec/30_encoding.md R105, R111): round 4. -/
def sTabRoundFour : List (Fin 32) :=
  [6, 10, 15, 21, 6, 10, 15, 21, 6, 10, 15, 21, 6, 10, 15, 21]

/-- `STAB`, the rotation amount of each step, 5 bits (spec/30_encoding.md R105, R111). -/
def sTab : List (Fin 32) := sTabRoundOne ++ sTabRoundTwo ++ sTabRoundThree ++ sTabRoundFour

/-- `TTAB`, the additive constant of each step (spec/30_encoding.md R105, R112): round 1. -/
def tTabRoundOne : List (Word) :=
  [0xd76aa478, 0xe8c7b756, 0x242070db, 0xc1bdceee, 0xf57c0faf, 0x4787c62a, 0xa8304613, 0xfd469501,
   0x698098d8, 0x8b44f7af, 0xffff5bb1, 0x895cd7be, 0x6b901122, 0xfd987193, 0xa679438e, 0x49b40821]

/-- `TTAB`, the additive constant of each step (spec/30_encoding.md R105, R112): round 2. -/
def tTabRoundTwo : List (Word) :=
  [0xf61e2562, 0xc040b340, 0x265e5a51, 0xe9b6c7aa, 0xd62f105d, 0x02441453, 0xd8a1e681, 0xe7d3fbc8,
   0x21e1cde6, 0xc33707d6, 0xf4d50d87, 0x455a14ed, 0xa9e3e905, 0xfcefa3f8, 0x676f02d9, 0x8d2a4c8a]

/-- `TTAB`, the additive constant of each step (spec/30_encoding.md R105, R112): round 3. -/
def tTabRoundThree : List (Word) :=
  [0xfffa3942, 0x8771f681, 0x6d9d6122, 0xfde5380c, 0xa4beea44, 0x4bdecfa9, 0xf6bb4b60, 0xbebfbc70,
   0x289b7ec6, 0xeaa127fa, 0xd4ef3085, 0x04881d05, 0xd9d4d039, 0xe6db99e5, 0x1fa27cf8, 0xc4ac5665]

/-- `TTAB`, the additive constant of each step (spec/30_encoding.md R105, R112): round 4. -/
def tTabRoundFour : List (Word) :=
  [0xf4292244, 0x432aff97, 0xab9423a7, 0xfc93a039, 0x655b59c3, 0x8f0ccc92, 0xffeff47d, 0x85845dd1,
   0x6fa87e4f, 0xfe2ce6e0, 0xa3014314, 0x4e0811a1, 0xf7537e82, 0xbd3af235, 0x2ad7d2bb, 0xeb86d391]

/-- `TTAB`, the additive constant of each step (spec/30_encoding.md R105, R112). -/
def tTab : List (Word) := tTabRoundOne ++ tTabRoundTwo ++ tTabRoundThree ++ tTabRoundFour

/-- `HEXROM[0..15]`, the ASCII code of each lowercase hexadecimal digit (spec/30_encoding.md R114). -/
def hexRom : List Byte :=
  [0x30, 0x31, 0x32, 0x33, 0x34, 0x35, 0x36, 0x37, 0x38, 0x39, 0x61, 0x62, 0x63, 0x64, 0x65, 0x66]

/-- `KTAB[i]`. -/
def kOf (i : Fin 64) : Fin 16 := kTab.getD i.val 0

/-- `STAB[i]`. -/
def sOf (i : Fin 64) : Fin 32 := sTab.getD i.val 0

/-- `TTAB[i]`. -/
def tOf (i : Fin 64) : Word := tTab.getD i.val 0

/-- The nonlinear function of step `i`, chosen by its round `r = i div 16` (spec/30_encoding.md R107,
spec/41_core_entry.md R166). -/
def fnOf (i : Fin 64) : Fn :=
  match i.val / 16 with
  | 0 => .f
  | 1 => .g
  | 2 => .h
  | _ => .i

/-- `HEXROM[v]` for a nibble `v`. -/
def hexDigit (v : BitVec 4) : Byte := hexRom.getD v.toNat 0

end Sys2Proof.Machine
end

