-- ==== Sys2Proof/WellFormed.lean ====
section
/-! DEFINITION. The checks on syntax: which codes are defined (spec/30_encoding.md R115, R116), which pseudo-steps are
admitted (R120), which host accesses name a cell that exists (spec/20_memory.md R82). -/

namespace Sys2Proof

/-- No operation has an operand (spec/30_encoding.md R107), so every instruction is well formed. -/
def Instr.wellFormed (_ : Instr) : Bool := true

/-- The codes and words that stand for an operation (spec/30_encoding.md R104, R106); the others are reserved (R115)
or carry no command (R116). -/
def Code.defined : Code → Bool
  | .uop c => decide (c.toNat ≤ 0x43 ∨ (0x80 ≤ c.toNat ∧ c.toNat ≤ 0x82) ∨ (0xC0 ≤ c.toNat ∧ c.toNat ≤ 0xC2))
  | .cmd v => decide (v = 0x00000001 ∨ v = 0x00000003)

/-- Row `i` of the step table as a pseudo-instruction (spec/30_encoding.md R105). -/
def stepRow (i : Fin 64) : PseudoStep :=
  { fn := Machine.fnOf i, k := (Machine.kOf i).val, s := (Machine.sOf i).val, t := Machine.tOf i }

/-- A pseudo-step is admitted only when it equals a row of the step table (spec/30_encoding.md R120). -/
def PseudoStep.wellFormed (p : PseudoStep) : Bool :=
  (List.finRange 64).any (fun i => decide (p = stepRow i))

/-- An index of `MSG` is below `MSG_CAP`, where that is finite (spec/10_state.md R49). -/
def msgIndexExists (cap : Option Nat) (a : Nat) : Bool :=
  match cap with
  | none   => true
  | some c => decide (a < c)

/-- An access names a register or cell that exists (spec/10_state.md R45, spec/20_memory.md R81, R82). -/
def HostAccess.wellFormed (cap : Option Nat) : HostAccess → Bool
  | .readReg off    => decide (off = 0x00 ∨ off = 0x04 ∨ off = 0x08 ∨ off = 0x0C)
  | .writeReg off _ => decide (off = 0x00 ∨ off = 0x04 ∨ off = 0x08 ∨ off = 0x0C)
  | .readMsg a      => msgIndexExists cap a
  | .writeMsg a _   => msgIndexExists cap a
  | .readHex p      => decide (p < 32)
  | .writeHex p _   => decide (p < 32)

end Sys2Proof
end

