-- ==== Sys2Proof/Decode.lean ====
section
/-! DEFINITION. Decoding and encoding of commands and micro-operations (spec/30_encoding.md).
The decoder is total: a code or word that stands for no operation is answered `reserved`, a command word without
`START` is answered `ignored` (R115, R116). -/

namespace Sys2Proof

/-- The answer of the decoder. -/
inductive Decoded where
  | instr (i : Instr)
  | ignored      -- a `CTRL` word with `START = 0` and no reserved bit (spec/30_encoding.md R116)
  | reserved     -- a reserved code or word (spec/30_encoding.md R115, R116)
  deriving DecidableEq, Repr

/-- The steps of round 1 in the order of their index (spec/30_encoding.md R105). -/
def stepsRoundOne : List Instr :=
  [.ff0, .ff1, .ff2, .ff3, .ff4, .ff5, .ff6, .ff7,
   .ff8, .ff9, .ff10, .ff11, .ff12, .ff13, .ff14, .ff15]

/-- The steps of round 2 in the order of their index (spec/30_encoding.md R105). -/
def stepsRoundTwo : List Instr :=
  [.gg16, .gg17, .gg18, .gg19, .gg20, .gg21, .gg22, .gg23,
   .gg24, .gg25, .gg26, .gg27, .gg28, .gg29, .gg30, .gg31]

/-- The steps of round 3 in the order of their index (spec/30_encoding.md R105). -/
def stepsRoundThree : List Instr :=
  [.hh32, .hh33, .hh34, .hh35, .hh36, .hh37, .hh38, .hh39,
   .hh40, .hh41, .hh42, .hh43, .hh44, .hh45, .hh46, .hh47]

/-- The steps of round 4 in the order of their index (spec/30_encoding.md R105). -/
def stepsRoundFour : List Instr :=
  [.ii48, .ii49, .ii50, .ii51, .ii52, .ii53, .ii54, .ii55,
   .ii56, .ii57, .ii58, .ii59, .ii60, .ii61, .ii62, .ii63]

/-- The 64 steps in index order: the code of a step is its index (spec/30_encoding.md R102, R105). -/
def stepInstrs : List Instr := stepsRoundOne ++ stepsRoundTwo ++ stepsRoundThree ++ stepsRoundFour

/-- Step `i` as an instruction. -/
def stepInstr (i : Fin 64) : Instr := stepInstrs.getD i.val .ff0

/-- The micro-operations of class `cls` in the order of `sub` (spec/30_encoding.md R103). -/
def classMap (cls : BitVec 2) : List Instr :=
  match cls.toNat with
  | 0 => stepInstrs
  | 1 => [.pack, .mark, .zext, .lenw]
  | 2 => [.init, .snap, .chain]
  | _ => [.encl, .encu, .fin]

/-- Format `UOP`: class in bits 7:6, operation inside the class in bits 5:0 (spec/30_encoding.md R102, R103);
every code the class map does not name is reserved (R115). -/
def decodeUop (c : BitVec 8) : Decoded :=
  match (classMap (c.extractLsb' 6 2))[(c.extractLsb' 0 6).toNat]? with
  | some i => .instr i
  | none   => .reserved

/-- Format `CMD` (spec/30_encoding.md R101, R106, R116), the tests in the order of spec/48_commands.md R300:
bits 31:2 first, then `START`, then `UPPER`. -/
def decodeCtrl (v : Word) : Decoded :=
  if v.extractLsb' 2 30 ≠ 0 then .reserved
  else if v.getLsbD 0 = false then .ignored
  else if v.getLsbD 1 then .instr .hashu
  else .instr .hashl

/-- The decoder: which format applies is known from the place the code stands in (spec/30_encoding.md R100). -/
def decode : Code → Decoded
  | .uop c => decodeUop c
  | .cmd v => decodeCtrl v

/-- The code of each operation (spec/30_encoding.md R104, R105, R106). -/
def encode : Instr → Code
  | .ff0 => .uop 0x00
  | .ff1 => .uop 0x01
  | .ff2 => .uop 0x02
  | .ff3 => .uop 0x03
  | .ff4 => .uop 0x04
  | .ff5 => .uop 0x05
  | .ff6 => .uop 0x06
  | .ff7 => .uop 0x07
  | .ff8 => .uop 0x08
  | .ff9 => .uop 0x09
  | .ff10 => .uop 0x0A
  | .ff11 => .uop 0x0B
  | .ff12 => .uop 0x0C
  | .ff13 => .uop 0x0D
  | .ff14 => .uop 0x0E
  | .ff15 => .uop 0x0F
  | .gg16 => .uop 0x10
  | .gg17 => .uop 0x11
  | .gg18 => .uop 0x12
  | .gg19 => .uop 0x13
  | .gg20 => .uop 0x14
  | .gg21 => .uop 0x15
  | .gg22 => .uop 0x16
  | .gg23 => .uop 0x17
  | .gg24 => .uop 0x18
  | .gg25 => .uop 0x19
  | .gg26 => .uop 0x1A
  | .gg27 => .uop 0x1B
  | .gg28 => .uop 0x1C
  | .gg29 => .uop 0x1D
  | .gg30 => .uop 0x1E
  | .gg31 => .uop 0x1F
  | .hh32 => .uop 0x20
  | .hh33 => .uop 0x21
  | .hh34 => .uop 0x22
  | .hh35 => .uop 0x23
  | .hh36 => .uop 0x24
  | .hh37 => .uop 0x25
  | .hh38 => .uop 0x26
  | .hh39 => .uop 0x27
  | .hh40 => .uop 0x28
  | .hh41 => .uop 0x29
  | .hh42 => .uop 0x2A
  | .hh43 => .uop 0x2B
  | .hh44 => .uop 0x2C
  | .hh45 => .uop 0x2D
  | .hh46 => .uop 0x2E
  | .hh47 => .uop 0x2F
  | .ii48 => .uop 0x30
  | .ii49 => .uop 0x31
  | .ii50 => .uop 0x32
  | .ii51 => .uop 0x33
  | .ii52 => .uop 0x34
  | .ii53 => .uop 0x35
  | .ii54 => .uop 0x36
  | .ii55 => .uop 0x37
  | .ii56 => .uop 0x38
  | .ii57 => .uop 0x39
  | .ii58 => .uop 0x3A
  | .ii59 => .uop 0x3B
  | .ii60 => .uop 0x3C
  | .ii61 => .uop 0x3D
  | .ii62 => .uop 0x3E
  | .ii63 => .uop 0x3F
  | .pack => .uop 0x40
  | .mark => .uop 0x41
  | .zext => .uop 0x42
  | .lenw => .uop 0x43
  | .init => .uop 0x80
  | .snap => .uop 0x81
  | .chain => .uop 0x82
  | .encl => .uop 0xC0
  | .encu => .uop 0xC1
  | .fin => .uop 0xC2
  | .hashl => .cmd 0x00000001
  | .hashu => .cmd 0x00000003

/-- The mnemonic of each operation (spec/30_encoding.md R104, R106, R119). -/
def mnemonic : Instr → String
  | .ff0 => "FF0"
  | .ff1 => "FF1"
  | .ff2 => "FF2"
  | .ff3 => "FF3"
  | .ff4 => "FF4"
  | .ff5 => "FF5"
  | .ff6 => "FF6"
  | .ff7 => "FF7"
  | .ff8 => "FF8"
  | .ff9 => "FF9"
  | .ff10 => "FF10"
  | .ff11 => "FF11"
  | .ff12 => "FF12"
  | .ff13 => "FF13"
  | .ff14 => "FF14"
  | .ff15 => "FF15"
  | .gg16 => "GG16"
  | .gg17 => "GG17"
  | .gg18 => "GG18"
  | .gg19 => "GG19"
  | .gg20 => "GG20"
  | .gg21 => "GG21"
  | .gg22 => "GG22"
  | .gg23 => "GG23"
  | .gg24 => "GG24"
  | .gg25 => "GG25"
  | .gg26 => "GG26"
  | .gg27 => "GG27"
  | .gg28 => "GG28"
  | .gg29 => "GG29"
  | .gg30 => "GG30"
  | .gg31 => "GG31"
  | .hh32 => "HH32"
  | .hh33 => "HH33"
  | .hh34 => "HH34"
  | .hh35 => "HH35"
  | .hh36 => "HH36"
  | .hh37 => "HH37"
  | .hh38 => "HH38"
  | .hh39 => "HH39"
  | .hh40 => "HH40"
  | .hh41 => "HH41"
  | .hh42 => "HH42"
  | .hh43 => "HH43"
  | .hh44 => "HH44"
  | .hh45 => "HH45"
  | .hh46 => "HH46"
  | .hh47 => "HH47"
  | .ii48 => "II48"
  | .ii49 => "II49"
  | .ii50 => "II50"
  | .ii51 => "II51"
  | .ii52 => "II52"
  | .ii53 => "II53"
  | .ii54 => "II54"
  | .ii55 => "II55"
  | .ii56 => "II56"
  | .ii57 => "II57"
  | .ii58 => "II58"
  | .ii59 => "II59"
  | .ii60 => "II60"
  | .ii61 => "II61"
  | .ii62 => "II62"
  | .ii63 => "II63"
  | .pack => "PACK"
  | .mark => "MARK"
  | .zext => "ZEXT"
  | .lenw => "LENW"
  | .init => "INIT"
  | .snap => "SNAP"
  | .chain => "CHAIN"
  | .encl => "ENCL"
  | .encu => "ENCU"
  | .fin => "FIN"
  | .hashl => "HASHL"
  | .hashu => "HASHU"

/-- Every operation, in the order of spec/opcode_table.json. -/
def allInstrs : List Instr :=
  stepInstrs ++ [.pack, .mark, .zext, .lenw, .init, .snap, .chain, .encl, .encu, .fin, .hashl, .hashu]

/-- Listing syntax: one mnemonic, upper case, no operands (spec/30_encoding.md R119). -/
def ofMnemonic (m : String) : Option Instr := allInstrs.find? (fun i => mnemonic i == m)

/-- `STEP fn, k, s, t` stands for the step whose row of the table it equals, and for nothing otherwise
(spec/30_encoding.md R120). -/
def expandPseudo (p : PseudoStep) : Option Instr :=
  match (List.finRange 64).find? (fun i => decide (p = stepRow i)) with
  | some i => some (stepInstr i)
  | none   => none

/-- The instruction the decoder reads from a table row's bits: 8 bits stand in `UPC`, 32 bits are a word written to
`CTRL` (spec/30_encoding.md R100, R122); no other length exists. -/
def decodeTableWord (nbits w : Nat) : Option Instr :=
  let answer : Decoded :=
    if nbits = 8 then decode (.uop (BitVec.ofNat 8 w))
    else if nbits = 32 then decode (.cmd (BitVec.ofNat 32 w))
    else .reserved
  match answer with
  | .instr i => some i
  | _        => none

end Sys2Proof
end

