-- ==== Sys2Proof/Config.lean ====
section
/-! DEFINITION. The free values: constants with no body, so that no proof can rest on what they are.
The implementation parameter `MSG_CAP` is a field of State (log 9). -/

namespace Sys2Proof

/-- The value of `up` on a code outside the alphabets it is given for: "its value elsewhere is left undefined on
purpose" (spec/47_encoder.md R294, spec/92_eei_decisions.md D32).
DESIGN CHOICE, safe: log 7. -/
opaque Config.upElsewhere : Byte → Byte

/-- The 64-bit value `LENW` splits into two words when `L` is 2^61 or more: the spec gives none, and forbids assuming
the low 64 bits (spec/40_padder.md R152, spec/92_eei_decisions.md D4).
DESIGN CHOICE, safe: log 8. -/
opaque Config.bitLengthBeyond : Nat → BitVec 64

/-- The byte a cell of `HEX` holds that nothing has written since the reset with this number: it is unspecified
(spec/10_state.md R57, spec/93_implementation_defined.md U1).
DESIGN CHOICE, safe: log 6. -/
opaque Config.hexUnwritten : Nat → Nat → Byte

/-- The word with this index of a block that does not have 16 words: the block function is given for 16 words only
(spec/46_chain_sequencer.md R278).
DESIGN CHOICE, safe: log 20. -/
opaque Config.blockWordBeyond : List Word → Nat → Word

/-- The register with this index (`A` is 0) after the compression of a buffer whose length is not a positive multiple of
16 words, for which the core is not defined (spec/46_chain_sequencer.md R280).
DESIGN CHOICE, safe: log 20. -/
opaque Config.compressBeyond : List Word → Nat → Word

end Sys2Proof
end

