-- ==== Sys2Proof/Machine/State.lean ====
section
/-! DEFINITION. The state of the block and of the agents outside it (spec/10_state.md), the ways a step can stop, and
the state after reset. -/

namespace Sys2Proof.Machine

/-- Four 32-bit registers (spec/10_state.md R30, R32). -/
structure Regs where
  a : Word
  b : Word
  c : Word
  d : Word
  deriving DecidableEq, Repr

/-- A memory of 8-bit cells: the cells that hold a value, by rising index; a cell that is not listed has no value
(log 5, log 6). -/
abbrev Memory := List Host.Cell

/-- The canonical form of a memory: the indexes rise strictly.
No entry can equal what an unlisted cell reads as, since that is no value. -/
abbrev Memory.wf (m : Memory) : Prop := m.Pairwise (fun x y => x.1 < y.1)

/-- The state. -/
structure State where
  /-- `A, B, C, D` (spec/10_state.md R30). -/
  regs : Regs
  /-- `AA, BB, CC, DD` (spec/10_state.md R32). -/
  snap : Regs
  /-- The word buffer `W`; `WLEN` is its length (spec/10_state.md R34). -/
  w : List Word
  /-- `UPC` (spec/10_state.md R38). -/
  upc : BitVec 8
  /-- `BLK`, as a natural number (spec/10_state.md R39; log 10). -/
  blk : Nat
  /-- `BUSY`, `STATUS[0]` (spec/10_state.md R41). -/
  busy : Bool
  /-- `DONE`, `STATUS[1]` (spec/10_state.md R42). -/
  done : Bool
  /-- `U`, the case selector (spec/10_state.md R43). -/
  u : Bool
  /-- `LEN_LO` (spec/10_state.md R45, R48). -/
  lenLo : Word
  /-- `LEN_HI` (spec/10_state.md R45, R48). -/
  lenHi : Word
  /-- `LEN_LO` has been written since reset (spec/48_commands.md R300; log 4). -/
  lenLoSet : Bool
  /-- `LEN_HI` has been written since reset (spec/48_commands.md R300; log 4). -/
  lenHiSet : Bool
  /-- `MSG` (spec/10_state.md R49). -/
  msg : Memory
  /-- `HEX` (spec/10_state.md R50). -/
  hex : Memory
  /-- `MSG_CAP`, the parameter of the instance; `none` is unbounded (spec/00_scope.md R7; log 9). -/
  msgCap : Option Nat
  /-- The model's own counter of reset events, which indexes the free bytes of unwritten `HEX` cells (log 6). -/
  resetCount : Nat
  /-- The moves of the host and the platform still to come, next one first (spec/00_scope.md R19; log 1). -/
  pending : List HostMove
  /-- What the host's reads have returned, oldest first (log 16). -/
  answers : List HostAnswer
  deriving DecidableEq, Repr

/-- Reasons the engine stops at an access to a cell the spec says does not exist.
No run reaches one (spec/20_memory.md R82, spec/60_exceptions.md R321). -/
inductive Fault where
  /-- Raised by a step and by `MARK` when they name the cell `idx` of `W` and `idx >= WLEN`: "cells at and above
  `WLEN` do not exist" (spec/10_state.md R34). Safe: log 11. -/
  | noSuchWord (idx : Nat)
  /-- Raised by `PACK`, `MARK`, `ZEXT`, `LENW` when the buffer would need a cell at or above `W_CAP`
  (spec/10_state.md R35, R51). Safe: log 11. -/
  | wordBufferFull
  deriving DecidableEq, Repr

/-- Situations the spec calls "refused": a model gives them no successor (spec/00_scope.md R18,
spec/60_exceptions.md R322). Each is safe. -/
inductive Refusal where
  /-- Raised by an arm of `exec` whose instruction has no meaning yet. Safe. -/
  | notModelled (mnemonic : String)
  /-- Raised by the engine's turn when `UPC` holds a reserved code (spec/30_encoding.md R115). Safe. -/
  | reservedUop (code : BitVec 8)
  /-- Raised by a write of a reserved word to `CTRL` (spec/30_encoding.md R116). Safe. -/
  | reservedCommand (v : Word)
  /-- Raised by `HASHL` and `HASHU` at the fourth test of R300: `LEN > MSG_CAP` or `LEN >= 2^61`, or a half of `LEN` has
  not been written since reset, in which case the command "is refused at the fourth test" (spec/48_commands.md R300).
  Safe: log 4. -/
  | lengthOutOfRange
  /-- Raised by `PACK` and by a host read when a cell of `MSG` has not been written since reset
  (spec/10_state.md R58). Safe: log 5. -/
  | messageUnwritten
  /-- Raised by a host write to `MSG`, `LEN_LO` or `LEN_HI` while `BUSY = 1` (spec/48_commands.md R309, R310,
  spec/70_reset_and_hazards.md R361). Safe. -/
  | inputWhileBusy
  /-- Raised by a host access to `MSG[a]` with `a >= MSG_CAP` (spec/48_commands.md R310). Safe. -/
  | messageIndex (a : Nat)
  /-- Raised by a host read of `HEX` while `DONE = 0` (spec/48_commands.md R311). Safe. -/
  | resultNotReady
  /-- Raised by a host access to `HEX[p]` with `p > 31` (spec/20_memory.md R82). Safe. -/
  | resultIndex (p : Nat)
  /-- Raised by a host write to `HEX` (spec/48_commands.md R311). Safe. -/
  | resultReadOnly
  /-- Raised by a host read of a reserved offset of `REG` (spec/10_state.md R45). Safe. -/
  | reservedRegister (off : Nat)
  deriving DecidableEq, Repr

/-- The outcome of a step of this machine. -/
abbrev Result := Host.Outcome State Fault Refusal

/-- The machine right after reset: `BUSY = 0` and `DONE = 0` as the spec says (spec/10_state.md R57), every other
register at the value log 3 names, the memories with nothing listed, no capacity bound (log 9). -/
def State.reset : State where
  regs := { a := 0, b := 0, c := 0, d := 0 }
  snap := { a := 0, b := 0, c := 0, d := 0 }
  w := [0, 0, 0, 0, 0, 0, 0, 0, 0, 0, 0, 0, 0, 0, 0, 0]
  upc := 0
  blk := 0
  busy := false
  done := false
  u := false
  lenLo := 0
  lenHi := 0
  lenLoSet := false
  lenHiSet := false
  msg := []
  hex := []
  msgCap := none
  resetCount := 0
  pending := []
  answers := []

end Sys2Proof.Machine
end

