-- ==== Sys2Proof/Machine/Operands.lean ====
section
/-! DEFINITION. The operands the operations take from the state (spec/30_encoding.md R107, R108): the length, the
block counts, the message word of a step, the capacity of the buffer. -/

namespace Sys2Proof.Machine

/-- `LEN`, a 64-bit unsigned integer with `LEN_HI` above `LEN_LO` (spec/10_state.md R48). -/
def State.lenBits (s : State) : BitVec 64 := s.lenHi ++ s.lenLo

/-- `L`, the value of `LEN` as a natural number (spec/10_state.md R48, spec/30_encoding.md R108). -/
def State.len (s : State) : Nat := s.lenBits.toNat

/-- Both halves of `LEN` have been written since reset, as the host owes before a command
(spec/70_reset_and_hazards.md R355). -/
def State.lenKnown (s : State) : Bool := s.lenLoSet && s.lenHiSet

/-- `L <= MSG_CAP` and `L < 2^61`, for a length `L` (spec/00_scope.md R7, spec/40_padder.md R152). -/
def lengthAdmitted (cap : Option Nat) (l : Nat) : Bool :=
  decide (l < 2 ^ 61) &&
    match cap with
    | none   => true
    | some c => decide (l ≤ c)

/-- `WLEN = len(W)` (spec/10_state.md R34). -/
def State.wlen (s : State) : Nat := s.w.length

/-- `N = WLEN div 16` (spec/10_state.md R36). -/
def State.blockCount (s : State) : Nat := s.wlen / 16

/-- `k = (L + 8) div 64 + 1`, the number of blocks of a message of `L` bytes (spec/40_padder.md R145). -/
def blocksFor (l : Nat) : Nat := (l + 8) / 64 + 1

/-- `W_CAP`, the capacity of the word buffer; `none` is unbounded (spec/10_state.md R35). -/
def State.wCap (s : State) : Option Nat := s.msgCap.map (fun c => 16 * blocksFor c)

/-- A buffer of `n` words fits into `W` (spec/10_state.md R35, R51). -/
def State.wFits (s : State) (n : Nat) : Bool :=
  match s.wCap with
  | none   => true
  | some c => decide (n ≤ c)

/-- The index of the message word of step `i`: `16 * BLK + KTAB[i]` (spec/41_core_entry.md R167). -/
def State.wordIndex (s : State) (i : Fin 64) : Nat := 16 * s.blk + (kOf i).val

/-- The message word of step `i`, if the cell exists (spec/41_core_entry.md R167, spec/10_state.md R34). -/
def State.messageWord (s : State) (i : Fin 64) : Option Word := s.w[s.wordIndex i]?

/-- `8 * L` as the 64-bit value `LENW` splits, exact for every admitted length (spec/40_padder.md R147, R152); for a
longer length, which no command admits, a free value (log 8). -/
def bitLength (l : Nat) : BitVec 64 :=
  if l < 2 ^ 61 then BitVec.ofNat 64 (8 * l) else Config.bitLengthBeyond l

end Sys2Proof.Machine
end

