-- ==== Sys2Proof/Machine/Ops.lean ====
section
/-! DEFINITION. The named operations over memories and registers. The block has no exception to take and none to
return from (spec/60_exceptions.md R320, R326, R327), so there is no such operation. -/

namespace Sys2Proof.Machine

/-- `MemRead(S, a, 8)`: the value of a cell, if it holds one (spec/00_scope.md R15, R18). -/
def Memory.read : Memory → Nat → Option Byte
  | [], _ => none
  | (b, v) :: m, a => if a = b then some v else Memory.read m a

/-- `MemWrite(S, a, 8, v)` (spec/00_scope.md R15); it keeps the canonical form. -/
def Memory.write : Memory → Nat → Byte → Memory
  | [], a, v => [(a, v)]
  | (b, y) :: m, a, v =>
    if a < b then (a, v) :: (b, y) :: m
    else if a = b then (a, v) :: m
    else (b, y) :: Memory.write m a v

/-- The cells `a .. a + n - 1`, if each holds a value. -/
def Memory.readRange (m : Memory) (a : Nat) : Nat → Option (List Byte)
  | 0 => some []
  | n + 1 =>
    match m.read a with
    | none   => none
    | some b => (Memory.readRange m (a + 1) n).map (fun bs => b :: bs)

/-- Writes the listed bytes to the cells from `a` on, in ascending order. -/
def Memory.writeFrom (m : Memory) (a : Nat) : List Byte → Memory
  | [] => m
  | v :: vs => Memory.writeFrom (m.write a v) (a + 1) vs

/-- What the engine reads in cell `p` of `HEX`: the stored code, or a free value where nothing has been written since
reset (spec/93_implementation_defined.md U1; log 6). -/
def State.hexByte (s : State) (p : Nat) : Byte :=
  match s.hex.read p with
  | some b => b
  | none   => Config.hexUnwritten s.resetCount p

/-- `(A, B, C, D) <- r`, simultaneous (spec/00_scope.md R16). -/
def State.withRegs (s : State) (r : Regs) : State := { s with regs := r }

/-- `(AA, BB, CC, DD) <- r`. -/
def State.withSnap (s : State) (r : Regs) : State := { s with snap := r }

/-- Replaces the word buffer, and with it `WLEN`. -/
def State.withW (s : State) (w : List Word) : State := { s with w := w }

/-- `UPC <- c`. -/
def State.withUpc (s : State) (c : BitVec 8) : State := { s with upc := c }

/-- `BLK <- q`. -/
def State.withBlk (s : State) (q : Nat) : State := { s with blk := q }

/-- Replaces the contents of `HEX`. -/
def State.withHex (s : State) (m : Memory) : State := { s with hex := m }

/-- Replaces the contents of `MSG`. -/
def State.withMsg (s : State) (m : Memory) : State := { s with msg := m }

/-- A host write of `LEN_LO`. -/
def State.withLenLo (s : State) (v : Word) : State := { s with lenLo := v, lenLoSet := true }

/-- A host write of `LEN_HI`. -/
def State.withLenHi (s : State) (v : Word) : State := { s with lenHi := v, lenHiSet := true }

/-- The moves still to come. -/
def State.withPending (s : State) (ms : List HostMove) : State := { s with pending := ms }

/-- A host read returns `x`. -/
def State.hear (s : State) (x : HostAnswer) : State := { s with answers := s.answers ++ [x] }

/-- The accepted command: `U <- v[1]`, `DONE <- 0`, `BUSY <- 1`, `UPC <- 0x40` (spec/48_commands.md R300). -/
def State.accepted (s : State) (upper : Bool) : State :=
  { s with u := upper, done := false, busy := true, upc := 0x40 }

/-- The end of a run: `BUSY <- 0`, `DONE <- 1` (spec/47_encoder.md R295). -/
def State.finished (s : State) : State := { s with busy := false, done := true }

/-- The reset event (spec/70_reset_and_hazards.md R350): the state after reset, with the instance's parameter, the
outside agents and the count of resets carried over (log 3, log 18). -/
def State.resetEvent (s : State) : State :=
  { State.reset with
    msgCap := s.msgCap, resetCount := s.resetCount + 1, pending := s.pending, answers := s.answers }

/-- The padder leaves the buffer `w` and goes on at `next`: the one operation by which `W` is created or grows, which
checks that every cell exists (spec/10_state.md R34, R35, R51; log 11). -/
def storeW (s : State) (w : List Word) (next : BitVec 8) : Result :=
  if s.wFits w.length then .next ((s.withW w).withUpc next) else .fault .wordBufferFull

end Sys2Proof.Machine
end

