-- ==== Sys2Proof/Machine/Commands.lean ====
section
/-! DEFINITION. The two commands (spec/48_commands.md R300 to R302). The first two tests of R300, on the word itself, are
the decoder's; here stand the tests of the state. -/

namespace Sys2Proof.Machine

/-- Command acceptance from its third test on (spec/48_commands.md R300): ignored while busy; refused when the length is
outside the admitted range; accepted otherwise.
Of a command issued while a half of `LEN` has not been written since reset the rule says that it "is refused at the fourth
test", so that test asks it too (log 4). -/
def acceptCommand (upper : Bool) (s : State) : Result :=
  if s.busy then .next s
  else if s.lenKnown && lengthAdmitted s.msgCap s.len then .next (s.accepted upper)
  else .refused .lengthOutOfRange

/-- `HASHL` (spec/48_commands.md R301). -/
def execHashl (s : State) : Result := acceptCommand false s

/-- `HASHU` (spec/48_commands.md R302). -/
def execHashu (s : State) : Result := acceptCommand true s

end Sys2Proof.Machine
end

