-- ==== Sys2Proof/Machine/Alu.lean ====
section
/-! DEFINITION. The arithmetic of the block: wrapping addition, rotation, the four nonlinear functions
(spec/00_scope.md R10 to R13, spec/41_core_entry.md R162 to R165, R169). -/

namespace Sys2Proof.Machine

/-- `add32(x, y) = (x + y) mod 2^32` (spec/00_scope.md R10). -/
def add32 (x y : Word) : Word := x + y

/-- `shl32(x, n) = (x * 2^n) mod 2^32` (spec/00_scope.md R13). -/
def shl32 (x : Word) (n : Nat) : Word := x <<< n

/-- `rotl32(x, s)` for `s` in 0..31, its low part by a logical shift (spec/00_scope.md R12,
spec/70_reset_and_hazards.md R360).
An amount of 32 or more, for which the spec leaves it undefined, cannot be written. -/
def rotl32 (x : Word) (s : Fin 32) : Word := (x <<< s.val) ||| (x >>> (32 - s.val))

/-- The nonlinear functions of the four rounds (spec/41_core_entry.md R162 to R165). -/
def nonlinear (fn : Fn) (b c d : Word) : Word :=
  match fn with
  | .f => (b &&& c) ||| (~~~b &&& d)
  | .g => (b &&& d) ||| (c &&& ~~~d)
  | .h => b ^^^ c ^^^ d
  | .i => c ^^^ (b ||| ~~~d)

end Sys2Proof.Machine
end

