-- ==== Sys2Proof/Machine/CoreControl.lean ====
section
/-! DEFINITION. Core control: `INIT`, `SNAP` (spec/41_core_entry.md) and `CHAIN` (spec/46_chain_sequencer.md). -/

namespace Sys2Proof.Machine

/-- The initialization vector as registers (spec/30_encoding.md R109, spec/41_core_entry.md R160). -/
def ivRegs : Regs :=
  { a := ivRom.getD 0 0, b := ivRom.getD 1 0, c := ivRom.getD 2 0, d := ivRom.getD 3 0 }

/-- The element-wise sum of two register quadruples, each addition on its own (spec/46_chain_sequencer.md R270). -/
def Regs.add (r q : Regs) : Regs :=
  { a := add32 r.a q.a, b := add32 r.b q.b, c := add32 r.c q.c, d := add32 r.d q.d }

/-- `INIT` (spec/41_core_entry.md R160). -/
def execInit (s : State) : Result := .next (((s.withRegs ivRegs).withBlk 0).withUpc 0x81)

/-- `SNAP` (spec/41_core_entry.md R161). -/
def execSnap (s : State) : Result := .next ((s.withSnap s.regs).withUpc 0x00)

/-- `CHAIN` (spec/46_chain_sequencer.md R270). -/
def execChain (s : State) : Result :=
  let t := s.withRegs (s.regs.add s.snap)
  if s.blk + 1 < s.blockCount then .next ((t.withBlk (s.blk + 1)).withUpc 0x81)
  else .next (t.withUpc 0xC0)

end Sys2Proof.Machine
end

