-- ==== Sys2Proof/Machine/Encoder.lean ====
section
/-! DEFINITION. The digest encoder family `ENCL`, `ENCU`, and `FIN` (spec/47_encoder.md). -/

namespace Sys2Proof.Machine

/-- The four bytes of a register, least significant first (spec/47_encoder.md R290, spec/20_memory.md R72). -/
def regBytes (x : Word) : List Byte :=
  [x.extractLsb' 0 8, x.extractLsb' 8 8, x.extractLsb' 16 8, x.extractLsb' 24 8]

/-- `DIG[0..15]`: `A`, then `B`, then `C`, then `D` (spec/47_encoder.md R290). -/
def digestBytes (r : Regs) : List Byte := regBytes r.a ++ regBytes r.b ++ regBytes r.c ++ regBytes r.d

/-- The two characters of a byte, high nibble first (spec/20_memory.md R73). -/
def hexPair (b : Byte) : List Byte := [hexDigit (b.extractLsb' 4 4), hexDigit (b.extractLsb' 0 4)]

/-- `hexl(a, b, c, d)`, the 32 characters `ENCL` writes (spec/47_encoder.md R291, R297). -/
def hexl (r : Regs) : List Byte := (digestBytes r).flatMap hexPair

/-- `up(c)` (spec/47_encoder.md R294): 0x61..0x66 become 0x41..0x46, 0x30..0x39 stay; the codes 0x41..0x46 stay, as the
pass is idempotent (R293; DEDUCED, log 7); elsewhere a free value (log 7). -/
def up (c : Byte) : Byte :=
  if 0x61 ≤ c.toNat ∧ c.toNat ≤ 0x66 then c - 0x20
  else if 0x30 ≤ c.toNat ∧ c.toNat ≤ 0x39 then c
  else if 0x41 ≤ c.toNat ∧ c.toNat ≤ 0x46 then c
  else Config.upElsewhere c

/-- `hexu(a, b, c, d) = map up (hexl(a, b, c, d))` (spec/47_encoder.md R297). -/
def hexu (r : Regs) : List Byte := (hexl r).map up

/-- `ENCL` (spec/47_encoder.md R291). -/
def execEncl (s : State) : Result :=
  .next ((s.withHex (s.hex.writeFrom 0 (hexl s.regs))).withUpc (if s.u then 0xC1 else 0xC2))

/-- `ENCU` (spec/47_encoder.md R293). -/
def execEncu (s : State) : Result :=
  .next ((s.withHex (s.hex.writeFrom 0 ((List.range 32).map (fun p => up (s.hexByte p))))).withUpc 0xC2)

/-- `FIN` (spec/47_encoder.md R295): the two status flags and nothing else; `UPC` keeps its value. -/
def execFin (s : State) : Result := .next s.finished

end Sys2Proof.Machine
end

