-- ==== Sys2Proof/Machine/Padder.lean ====
section
/-! DEFINITION. The padder family: `PACK`, `MARK`, `ZEXT`, `LENW` (spec/40_padder.md). -/

namespace Sys2Proof.Machine

/-- Places byte number `j` of a byte sequence into the buffer: a new word when `j mod 4 = 0`, otherwise OR'd into word
`j div 4` at byte position `j mod 4` (the body of the loop of spec/40_padder.md R142; spec/20_memory.md R70). -/
def packByte (j : Nat) (b : Byte) (w : List Word) : List Word :=
  if j % 4 = 0 then w ++ [b.setWidth 32]
  else w.modify (j / 4) (fun x => x ||| shl32 (b.setWidth 32) (8 * (j % 4)))

/-- Places the bytes from number `j` on, in ascending order. -/
def packBytes : List Byte → Nat → List Word → List Word
  | [], _, w => w
  | b :: bs, j, w => packBytes bs (j + 1) (packByte j b w)

/-- `PACK` (spec/40_padder.md R142): a cell of `MSG[0..L-1]` that holds no value is refused (log 5). -/
def execPack (s : State) : Result :=
  match s.msg.readRange 0 s.len with
  | none    => .refused .messageUnwritten
  | some bs => storeW s (packBytes bs 0 []) 0x41

/-- `MARK` (spec/40_padder.md R144). -/
def execMark (s : State) : Result :=
  if s.len % 4 = 0 then storeW s (s.w ++ [0x00000080]) 0x42
  else if s.len / 4 < s.wlen then
    .next ((s.withW (s.w.modify (s.len / 4) (fun x => x ||| shl32 0x80 (8 * (s.len % 4))))).withUpc 0x42)
  else .fault (.noSuchWord (s.len / 4))

/-- `ZEXT` (spec/40_padder.md R146): zero words up to `WLEN = 16*k - 2`, none if the buffer is already as long. -/
def execZext (s : State) : Result :=
  storeW s (s.w ++ List.replicate (16 * blocksFor s.len - 2 - s.wlen) 0) 0x43

/-- `LENW` (spec/40_padder.md R147, spec/20_memory.md R71): low word first. -/
def execLenw (s : State) : Result :=
  storeW s (s.w ++ [(bitLength s.len).extractLsb' 0 32, (bitLength s.len).extractLsb' 32 32]) 0x80

end Sys2Proof.Machine
end

