-- ==== Sys2Proof/Machine/Steps.lean ====
section
/-! DEFINITION. The step in general (spec/41_core_entry.md R166), of which the 64 steps are instances. -/

namespace Sys2Proof.Machine

/-- One step on the registers with message word `x`: the new value goes to `B`, the old `B` to `C`, the old `C` to `D`,
the old `D` to `A` (spec/41_core_entry.md R166, spec/90_conflicts.md C1). -/
def stepFormula (fn : Fn) (s : Fin 32) (t : Word) (r : Regs) (x : Word) : Regs :=
  let f := nonlinear fn r.b r.c r.d
  let sum := add32 (add32 (add32 r.a f) x) t
  let nb := add32 r.b (rotl32 sum s)
  { a := r.d, b := nb, c := r.b, d := r.c }

/-- Step `i` on the registers, its parameters from the step table (spec/30_encoding.md R105, R107). -/
def roundStep (i : Fin 64) (r : Regs) (x : Word) : Regs :=
  stepFormula (fnOf i) (sOf i) (tOf i) r x

/-- The successor of step `i`: `i + 1`, and `CHAIN` after step 63 (spec/46_chain_sequencer.md R271). -/
def stepSuccessor (i : Fin 64) : BitVec 8 := if i.val = 63 then 0x82 else BitVec.ofNat 8 (i.val + 1)

/-- Step `i` of the block `BLK` (spec/41_core_entry.md R166, R167).
A message word at or above `WLEN` does not exist (log 11). -/
def stepOp (i : Fin 64) (s : State) : Result :=
  match s.messageWord i with
  | none   => .fault (.noSuchWord (s.wordIndex i))
  | some x => .next ((s.withRegs (roundStep i s.regs x)).withUpc (stepSuccessor i))

end Sys2Proof.Machine
end

