-- ==== Sys2Proof/Machine/RoundFf.lean ====
section
/-! DEFINITION. Round 1, steps FF0 to FF15 (spec/42_round1_ff.md, one rule per step). Each is the step in general
(spec/41_core_entry.md R166) at its own index. -/

namespace Sys2Proof.Machine

/-- `FF0`: `k = 0`, `s = 7`, `t = 0xd76aa478` (spec/42_round1_ff.md R200). -/
def execFf0 (s : State) : Result := stepOp 0 s

/-- `FF1`: `k = 1`, `s = 12`, `t = 0xe8c7b756` (spec/42_round1_ff.md R201). -/
def execFf1 (s : State) : Result := stepOp 1 s

/-- `FF2`: `k = 2`, `s = 17`, `t = 0x242070db` (spec/42_round1_ff.md R202). -/
def execFf2 (s : State) : Result := stepOp 2 s

/-- `FF3`: `k = 3`, `s = 22`, `t = 0xc1bdceee` (spec/42_round1_ff.md R203). -/
def execFf3 (s : State) : Result := stepOp 3 s

/-- `FF4`: `k = 4`, `s = 7`, `t = 0xf57c0faf` (spec/42_round1_ff.md R204). -/
def execFf4 (s : State) : Result := stepOp 4 s

/-- `FF5`: `k = 5`, `s = 12`, `t = 0x4787c62a` (spec/42_round1_ff.md R205). -/
def execFf5 (s : State) : Result := stepOp 5 s

/-- `FF6`: `k = 6`, `s = 17`, `t = 0xa8304613` (spec/42_round1_ff.md R206). -/
def execFf6 (s : State) : Result := stepOp 6 s

/-- `FF7`: `k = 7`, `s = 22`, `t = 0xfd469501` (spec/42_round1_ff.md R207). -/
def execFf7 (s : State) : Result := stepOp 7 s

/-- `FF8`: `k = 8`, `s = 7`, `t = 0x698098d8` (spec/42_round1_ff.md R208). -/
def execFf8 (s : State) : Result := stepOp 8 s

/-- `FF9`: `k = 9`, `s = 12`, `t = 0x8b44f7af` (spec/42_round1_ff.md R209). -/
def execFf9 (s : State) : Result := stepOp 9 s

/-- `FF10`: `k = 10`, `s = 17`, `t = 0xffff5bb1` (spec/42_round1_ff.md R210). -/
def execFf10 (s : State) : Result := stepOp 10 s

/-- `FF11`: `k = 11`, `s = 22`, `t = 0x895cd7be` (spec/42_round1_ff.md R211). -/
def execFf11 (s : State) : Result := stepOp 11 s

/-- `FF12`: `k = 12`, `s = 7`, `t = 0x6b901122` (spec/42_round1_ff.md R212). -/
def execFf12 (s : State) : Result := stepOp 12 s

/-- `FF13`: `k = 13`, `s = 12`, `t = 0xfd987193` (spec/42_round1_ff.md R213). -/
def execFf13 (s : State) : Result := stepOp 13 s

/-- `FF14`: `k = 14`, `s = 17`, `t = 0xa679438e` (spec/42_round1_ff.md R214). -/
def execFf14 (s : State) : Result := stepOp 14 s

/-- `FF15`: `k = 15`, `s = 22`, `t = 0x49b40821` (spec/42_round1_ff.md R215). -/
def execFf15 (s : State) : Result := stepOp 15 s

end Sys2Proof.Machine
end

