-- ==== Sys2Proof/Machine/RoundGg.lean ====
section
/-! DEFINITION. Round 2, steps GG16 to GG31 (spec/43_round2_gg.md, one rule per step). Each is the step in general
(spec/41_core_entry.md R166) at its own index. -/

namespace Sys2Proof.Machine

/-- `GG16`: `k = 1`, `s = 5`, `t = 0xf61e2562` (spec/43_round2_gg.md R216). -/
def execGg16 (s : State) : Result := stepOp 16 s

/-- `GG17`: `k = 6`, `s = 9`, `t = 0xc040b340` (spec/43_round2_gg.md R217). -/
def execGg17 (s : State) : Result := stepOp 17 s

/-- `GG18`: `k = 11`, `s = 14`, `t = 0x265e5a51` (spec/43_round2_gg.md R218). -/
def execGg18 (s : State) : Result := stepOp 18 s

/-- `GG19`: `k = 0`, `s = 20`, `t = 0xe9b6c7aa` (spec/43_round2_gg.md R219). -/
def execGg19 (s : State) : Result := stepOp 19 s

/-- `GG20`: `k = 5`, `s = 5`, `t = 0xd62f105d` (spec/43_round2_gg.md R220). -/
def execGg20 (s : State) : Result := stepOp 20 s

/-- `GG21`: `k = 10`, `s = 9`, `t = 0x02441453` (spec/43_round2_gg.md R221). -/
def execGg21 (s : State) : Result := stepOp 21 s

/-- `GG22`: `k = 15`, `s = 14`, `t = 0xd8a1e681` (spec/43_round2_gg.md R222). -/
def execGg22 (s : State) : Result := stepOp 22 s

/-- `GG23`: `k = 4`, `s = 20`, `t = 0xe7d3fbc8` (spec/43_round2_gg.md R223). -/
def execGg23 (s : State) : Result := stepOp 23 s

/-- `GG24`: `k = 9`, `s = 5`, `t = 0x21e1cde6` (spec/43_round2_gg.md R224). -/
def execGg24 (s : State) : Result := stepOp 24 s

/-- `GG25`: `k = 14`, `s = 9`, `t = 0xc33707d6` (spec/43_round2_gg.md R225). -/
def execGg25 (s : State) : Result := stepOp 25 s

/-- `GG26`: `k = 3`, `s = 14`, `t = 0xf4d50d87` (spec/43_round2_gg.md R226). -/
def execGg26 (s : State) : Result := stepOp 26 s

/-- `GG27`: `k = 8`, `s = 20`, `t = 0x455a14ed` (spec/43_round2_gg.md R227). -/
def execGg27 (s : State) : Result := stepOp 27 s

/-- `GG28`: `k = 13`, `s = 5`, `t = 0xa9e3e905` (spec/43_round2_gg.md R228). -/
def execGg28 (s : State) : Result := stepOp 28 s

/-- `GG29`: `k = 2`, `s = 9`, `t = 0xfcefa3f8` (spec/43_round2_gg.md R229). -/
def execGg29 (s : State) : Result := stepOp 29 s

/-- `GG30`: `k = 7`, `s = 14`, `t = 0x676f02d9` (spec/43_round2_gg.md R230). -/
def execGg30 (s : State) : Result := stepOp 30 s

/-- `GG31`: `k = 12`, `s = 20`, `t = 0x8d2a4c8a` (spec/43_round2_gg.md R231). -/
def execGg31 (s : State) : Result := stepOp 31 s

end Sys2Proof.Machine
end

