-- ==== Sys2Proof/Machine/RoundHh.lean ====
section
/-! DEFINITION. Round 3, steps HH32 to HH47 (spec/44_round3_hh.md, one rule per step). Each is the step in general
(spec/41_core_entry.md R166) at its own index. -/

namespace Sys2Proof.Machine

/-- `HH32`: `k = 5`, `s = 4`, `t = 0xfffa3942` (spec/44_round3_hh.md R232). -/
def execHh32 (s : State) : Result := stepOp 32 s

/-- `HH33`: `k = 8`, `s = 11`, `t = 0x8771f681` (spec/44_round3_hh.md R233). -/
def execHh33 (s : State) : Result := stepOp 33 s

/-- `HH34`: `k = 11`, `s = 16`, `t = 0x6d9d6122` (spec/44_round3_hh.md R234). -/
def execHh34 (s : State) : Result := stepOp 34 s

/-- `HH35`: `k = 14`, `s = 23`, `t = 0xfde5380c` (spec/44_round3_hh.md R235). -/
def execHh35 (s : State) : Result := stepOp 35 s

/-- `HH36`: `k = 1`, `s = 4`, `t = 0xa4beea44` (spec/44_round3_hh.md R236). -/
def execHh36 (s : State) : Result := stepOp 36 s

/-- `HH37`: `k = 4`, `s = 11`, `t = 0x4bdecfa9` (spec/44_round3_hh.md R237). -/
def execHh37 (s : State) : Result := stepOp 37 s

/-- `HH38`: `k = 7`, `s = 16`, `t = 0xf6bb4b60` (spec/44_round3_hh.md R238). -/
def execHh38 (s : State) : Result := stepOp 38 s

/-- `HH39`: `k = 10`, `s = 23`, `t = 0xbebfbc70` (spec/44_round3_hh.md R239). -/
def execHh39 (s : State) : Result := stepOp 39 s

/-- `HH40`: `k = 13`, `s = 4`, `t = 0x289b7ec6` (spec/44_round3_hh.md R240). -/
def execHh40 (s : State) : Result := stepOp 40 s

/-- `HH41`: `k = 0`, `s = 11`, `t = 0xeaa127fa` (spec/44_round3_hh.md R241). -/
def execHh41 (s : State) : Result := stepOp 41 s

/-- `HH42`: `k = 3`, `s = 16`, `t = 0xd4ef3085` (spec/44_round3_hh.md R242). -/
def execHh42 (s : State) : Result := stepOp 42 s

/-- `HH43`: `k = 6`, `s = 23`, `t = 0x04881d05` (spec/44_round3_hh.md R243). -/
def execHh43 (s : State) : Result := stepOp 43 s

/-- `HH44`: `k = 9`, `s = 4`, `t = 0xd9d4d039` (spec/44_round3_hh.md R244). -/
def execHh44 (s : State) : Result := stepOp 44 s

/-- `HH45`: `k = 12`, `s = 11`, `t = 0xe6db99e5` (spec/44_round3_hh.md R245). -/
def execHh45 (s : State) : Result := stepOp 45 s

/-- `HH46`: `k = 15`, `s = 16`, `t = 0x1fa27cf8` (spec/44_round3_hh.md R246). -/
def execHh46 (s : State) : Result := stepOp 46 s

/-- `HH47`: `k = 2`, `s = 23`, `t = 0xc4ac5665` (spec/44_round3_hh.md R247). -/
def execHh47 (s : State) : Result := stepOp 47 s

end Sys2Proof.Machine
end

