-- ==== Sys2Proof/Machine/RoundIi.lean ====
section
/-! DEFINITION. Round 4, steps II48 to II63 (spec/45_round4_ii.md, one rule per step). Each is the step in general
(spec/41_core_entry.md R166) at its own index. -/

namespace Sys2Proof.Machine

/-- `II48`: `k = 0`, `s = 6`, `t = 0xf4292244` (spec/45_round4_ii.md R248). -/
def execIi48 (s : State) : Result := stepOp 48 s

/-- `II49`: `k = 7`, `s = 10`, `t = 0x432aff97` (spec/45_round4_ii.md R249). -/
def execIi49 (s : State) : Result := stepOp 49 s

/-- `II50`: `k = 14`, `s = 15`, `t = 0xab9423a7` (spec/45_round4_ii.md R250). -/
def execIi50 (s : State) : Result := stepOp 50 s

/-- `II51`: `k = 5`, `s = 21`, `t = 0xfc93a039` (spec/45_round4_ii.md R251). -/
def execIi51 (s : State) : Result := stepOp 51 s

/-- `II52`: `k = 12`, `s = 6`, `t = 0x655b59c3` (spec/45_round4_ii.md R252). -/
def execIi52 (s : State) : Result := stepOp 52 s

/-- `II53`: `k = 3`, `s = 10`, `t = 0x8f0ccc92` (spec/45_round4_ii.md R253). -/
def execIi53 (s : State) : Result := stepOp 53 s

/-- `II54`: `k = 10`, `s = 15`, `t = 0xffeff47d` (spec/45_round4_ii.md R254). -/
def execIi54 (s : State) : Result := stepOp 54 s

/-- `II55`: `k = 1`, `s = 21`, `t = 0x85845dd1` (spec/45_round4_ii.md R255). -/
def execIi55 (s : State) : Result := stepOp 55 s

/-- `II56`: `k = 8`, `s = 6`, `t = 0x6fa87e4f` (spec/45_round4_ii.md R256). -/
def execIi56 (s : State) : Result := stepOp 56 s

/-- `II57`: `k = 15`, `s = 10`, `t = 0xfe2ce6e0` (spec/45_round4_ii.md R257). -/
def execIi57 (s : State) : Result := stepOp 57 s

/-- `II58`: `k = 6`, `s = 15`, `t = 0xa3014314` (spec/45_round4_ii.md R258). -/
def execIi58 (s : State) : Result := stepOp 58 s

/-- `II59`: `k = 13`, `s = 21`, `t = 0x4e0811a1` (spec/45_round4_ii.md R259). -/
def execIi59 (s : State) : Result := stepOp 59 s

/-- `II60`: `k = 4`, `s = 6`, `t = 0xf7537e82` (spec/45_round4_ii.md R260). -/
def execIi60 (s : State) : Result := stepOp 60 s

/-- `II61`: `k = 11`, `s = 10`, `t = 0xbd3af235` (spec/45_round4_ii.md R261). -/
def execIi61 (s : State) : Result := stepOp 61 s

/-- `II62`: `k = 2`, `s = 15`, `t = 0x2ad7d2bb` (spec/45_round4_ii.md R262). -/
def execIi62 (s : State) : Result := stepOp 62 s

/-- `II63`: `k = 9`, `s = 21`, `t = 0xeb86d391` (spec/45_round4_ii.md R263). -/
def execIi63 (s : State) : Result := stepOp 63 s

end Sys2Proof.Machine
end

