-- ==== Sys2Proof/Machine/Flags.lean ====
section
/-! DEFINITION. The status flags as the host reads them. There are no arithmetic flags (spec/10_state.md R44). -/

namespace Sys2Proof.Machine

/-- `STATUS`: `BUSY` in bit 0, `DONE` in bit 1, bits 31:2 hardwired 0 (spec/10_state.md R47). -/
def State.status (s : State) : Word :=
  (if s.busy then 0x00000001 else 0) ||| (if s.done then 0x00000002 else 0)

end Sys2Proof.Machine
end

