-- ==== Sys2Proof/Machine/Turns.lean ====
section
/-! DEFINITION. What one turn of each agent does: the engine's turn, a host access, a reset event
(spec/00_scope.md R19, spec/48_commands.md R300, R308 to R311, spec/70_reset_and_hazards.md R350). -/

namespace Sys2Proof.Machine

/-- The engine's turn: while `BUSY = 1` it executes the micro-operation whose code `UPC` holds (spec/10_state.md R38,
R41); a reserved code is refused (spec/30_encoding.md R115).
While `BUSY = 0` it has no step and holds its state (spec/60_exceptions.md R335; DEDUCED, log 2). -/
def engineTurn (s : State) : Result :=
  if s.busy then
    match decode (.uop s.upc) with
    | .instr i => exec i s
    | _        => .refused (.reservedUop s.upc)
  else .next s

/-- A host write of the word `v` to `CTRL` (spec/48_commands.md R300). -/
def writeCtrl (v : Word) (s : State) : Result :=
  match decode (.cmd v) with
  | .instr i  => exec i s
  | .ignored  => .next s
  | .reserved => .refused (.reservedCommand v)

/-- A host read of the register at byte offset `off` (spec/10_state.md R45, spec/48_commands.md R308, R309).
A half of `LEN` that nothing has written since reset answers the value it holds after reset, not a refusal
(DESIGN CHOICE, unsafe: log 3, log 19). -/
def readRegister (off : Nat) (s : State) : Result :=
  match off with
  | 0x00 => .next (s.hear (.word 0))
  | 0x04 => .next (s.hear (.word s.status))
  | 0x08 => .next (s.hear (.word s.lenLo))
  | 0x0C => .next (s.hear (.word s.lenHi))
  | _    => .refused (.reservedRegister off)

/-- A host write of `v` to the register at byte offset `off` (spec/10_state.md R45, spec/48_commands.md R300, R309):
`STATUS` and the reserved offsets ignore it. -/
def writeRegister (off : Nat) (v : Word) (s : State) : Result :=
  match off with
  | 0x00 => writeCtrl v s
  | 0x08 => if s.busy then .refused .inputWhileBusy else .next (s.withLenLo v)
  | 0x0C => if s.busy then .refused .inputWhileBusy else .next (s.withLenHi v)
  | _    => .next s

/-- A host read of `MSG[a]` (spec/48_commands.md R310, spec/10_state.md R58; log 14). -/
def readMessage (a : Nat) (s : State) : Result :=
  if msgIndexExists s.msgCap a then
    match s.msg.read a with
    | some b => .next (s.hear (.byte b))
    | none   => .refused .messageUnwritten
  else .refused (.messageIndex a)

/-- A host write of `MSG[a]` (spec/48_commands.md R310). -/
def writeMessage (a : Nat) (b : Byte) (s : State) : Result :=
  if msgIndexExists s.msgCap a then
    if s.busy then .refused .inputWhileBusy else .next (s.withMsg (s.msg.write a b))
  else .refused (.messageIndex a)

/-- A host read of `HEX[p]` (spec/48_commands.md R311). -/
def readResult (p : Nat) (s : State) : Result :=
  if p < 32 then
    if s.done then .next (s.hear (.byte (s.hexByte p))) else .refused .resultNotReady
  else .refused (.resultIndex p)

/-- One host access (spec/10_state.md R56). -/
def hostAccess (a : HostAccess) (s : State) : Result :=
  match a with
  | .readReg off    => readRegister off s
  | .writeReg off v => writeRegister off v s
  | .readMsg a      => readMessage a s
  | .writeMsg a b   => writeMessage a b s
  | .readHex p      => readResult p s
  | .writeHex p _   => if p < 32 then .refused .resultReadOnly else .refused (.resultIndex p)

/-- One move, in a state from whose list it has been taken (log 1). -/
def moveTurn (m : HostMove) (s : State) : Result :=
  match m with
  | .engine   => engineTurn s
  | .access a => hostAccess a s
  | .reset    => .next s.resetEvent

/-- One step of the whole machine: the next move of the list, or the engine's turn where the list is empty (log 1). -/
def turn (s : State) : Result :=
  match s.pending with
  | []      => engineTurn s
  | m :: ms => moveTurn m (s.withPending ms)

/-- The state in which the next step executes the operation with these bits (log 12).
A micro-operation: its code in `UPC`, `BUSY = 1`, and the next turn the engine's.
A command: the host's next move is to write the word to `CTRL`, having written both halves of `LEN`
(the host owes that before a command, spec/70_reset_and_hazards.md R355). -/
def placeWord (s : State) (nbits w : Nat) : State :=
  if nbits = 8 then
    { s with busy := true, upc := BitVec.ofNat 8 w, pending := .engine :: s.pending }
  else if nbits = 32 then
    { s with lenLoSet := true, lenHiSet := true,
             pending := .access (.writeReg 0x00 (BitVec.ofNat 32 w)) :: s.pending }
  else s

end Sys2Proof.Machine
end

