-- ==== Sys2Proof/Machine/Step.lean ====
section
/-! DEFINITION. The step of the machine, and the state in which the next step runs a given operation. -/

namespace Sys2Proof.Machine

/-- One step (spec/00_scope.md R19, spec/60_exceptions.md R325). -/
def step (s : State) : Host.Outcome State Fault Refusal := Sys2Proof.Machine.turn s

/-- `s` with the operation of these bits placed so that the next step runs it (log 12). -/
def State.withFetchWord (s : State) (nbits w : Nat) : State := Sys2Proof.Machine.placeWord s nbits w

end Sys2Proof.Machine
end

