-- ==== Sys2Proof/Machine/HostDuty.lean ====
section
/-! DEFINITION. What the host does around a run, outside the block: the bytes of a string (spec/40_padder.md R140) and
the protocol for one digest (spec/48_commands.md R312).
No step of the machine uses these. -/

namespace Sys2Proof.Machine

/-- The UTF-8 bytes of a code point; a surrogate and a number above 0x10FFFF have none (spec/40_padder.md R140). -/
def utf8 (cp : Nat) : Option (List Byte) :=
  if cp ≤ 0x7F then some [BitVec.ofNat 8 cp]
  else if cp ≤ 0x7FF then
    some [0xC0 ||| BitVec.ofNat 8 (cp / 2 ^ 6), 0x80 ||| BitVec.ofNat 8 (cp % 2 ^ 6)]
  else if 0xD800 ≤ cp ∧ cp ≤ 0xDFFF then none
  else if cp ≤ 0xFFFF then
    some [0xE0 ||| BitVec.ofNat 8 (cp / 2 ^ 12), 0x80 ||| BitVec.ofNat 8 (cp / 2 ^ 6 % 2 ^ 6),
          0x80 ||| BitVec.ofNat 8 (cp % 2 ^ 6)]
  else if cp ≤ 0x10FFFF then
    some [0xF0 ||| BitVec.ofNat 8 (cp / 2 ^ 18), 0x80 ||| BitVec.ofNat 8 (cp / 2 ^ 12 % 2 ^ 6),
          0x80 ||| BitVec.ofNat 8 (cp / 2 ^ 6 % 2 ^ 6), 0x80 ||| BitVec.ofNat 8 (cp % 2 ^ 6)]
  else none

/-- The UTF-8 bytes of a string of code points. -/
def utf8String : List Nat → Option (List Byte)
  | [] => some []
  | cp :: cps =>
    match utf8 cp, utf8String cps with
    | some bs, some rest => some (bs ++ rest)
    | _, _ => none

/-- UTF-16 code units read as code points: a high surrogate followed by a low one is one code point, an unpaired
surrogate is not submitted (spec/40_padder.md R140, spec/92_eei_decisions.md D27). -/
def ofUtf16 : List (BitVec 16) → Option (List Nat)
  | [] => some []
  | [x] => if 0xD800 ≤ x.toNat ∧ x.toNat ≤ 0xDFFF then none else some [x.toNat]
  | x :: y :: rest =>
    if 0xD800 ≤ x.toNat ∧ x.toNat ≤ 0xDBFF then
      if 0xDC00 ≤ y.toNat ∧ y.toNat ≤ 0xDFFF then
        (ofUtf16 rest).map (fun cps => (0x10000 + (x.toNat - 0xD800) * 2 ^ 10 + (y.toNat - 0xDC00)) :: cps)
      else none
    else if 0xDC00 ≤ x.toNat ∧ x.toNat ≤ 0xDFFF then none
    else (ofUtf16 (y :: rest)).map (fun cps => x.toNat :: cps)

/-! ## The host protocol for one digest (spec/48_commands.md R312)

The host is an agent of its own here: it chooses its next access by what it has heard. -/

/-- The writes of `MSG[a] <- b` for the bytes from index `a` on (step 3). -/
def messageWrites : Nat → List Byte → List HostAccess
  | _, [] => []
  | a, b :: bs => .writeMsg a b :: messageWrites (a + 1) bs

/-- The orders the host is free to choose: "Steps 3 and 4 may come in either order" (R312), and the halves of `LEN` in
either order (spec/10_state.md R48). -/
structure ProtocolOrder where
  messageFirst : Bool
  lowFirst     : Bool
  deriving DecidableEq, Repr

/-- The writes of `LEN_LO` and `LEN_HI` (step 4): bits 31:0 and 63:32 of the number of bytes. -/
def lengthWrites (lowFirst : Bool) (n : Nat) : List HostAccess :=
  let lo : HostAccess := .writeReg 0x08 (BitVec.ofNat 32 n)
  let hi : HostAccess := .writeReg 0x0C (BitVec.ofNat 32 (n / 2 ^ 32))
  if lowFirst then [lo, hi] else [hi, lo]

/-- The write of the command word to `CTRL` (step 5). -/
def commandWrite (upper : Bool) : HostAccess := .writeReg 0x00 (if upper then 0x00000003 else 0x00000001)

/-- Steps 3, 4 and 5. -/
def protocolWrites (o : ProtocolOrder) (upper : Bool) (bytes : List Byte) : List HostAccess :=
  let msg := messageWrites 0 bytes
  let len := lengthWrites o.lowFirst bytes.length
  (if o.messageFirst then msg ++ len else len ++ msg) ++ [commandWrite upper]

/-- The moves of a host that plays the protocol once against an idle block, with `turns` turns of the engine between the
command and the read of `STATUS` at which it finds `DONE = 1`. -/
def hostProtocol (o : ProtocolOrder) (upper : Bool) (bytes : List Byte) (turns : Nat) : List HostMove :=
  [.access (.readReg 0x04)] ++ (protocolWrites o upper bytes).map HostMove.access ++ List.replicate turns .engine
    ++ [.access (.readReg 0x04)] ++ (List.range 32).map (fun p => .access (.readHex p))

/-- Where the host stands in the protocol. -/
inductive ClientPhase where
  | waitIdle                            -- step 1
  | writing (rest : List HostAccess)    -- steps 3 to 5
  | waitDone                            -- step 6
  | reading (p : Nat)                   -- step 7
  | finished
  deriving DecidableEq, Repr

/-- A host that plays the protocol: where it stands, what it has to write, the characters it has read. -/
structure Client where
  phase  : ClientPhase
  writes : List HostAccess
  result : List Byte
  deriving DecidableEq, Repr

/-- A host about to submit a byte sequence. -/
def submitBytes (o : ProtocolOrder) (upper : Bool) (bytes : List Byte) : Client :=
  { phase := .waitIdle, writes := protocolWrites o upper bytes, result := [] }

/-- A host about to submit a string of code points; step 2 encodes it, and a string with no UTF-8 form is not submitted
(spec/40_padder.md R140). -/
def submit (o : ProtocolOrder) (upper : Bool) (text : List Nat) : Option Client :=
  (utf8String text).map (submitBytes o upper)

/-- The host's next access: it reads `STATUS` in steps 1 and 6, writes in steps 3 to 5, reads `HEX` in step 7.
Between the command and `DONE = 1` it touches nothing but `STATUS`. -/
def clientAccess (c : Client) : Option HostAccess :=
  match c.phase with
  | .waitIdle    => some (.readReg 0x04)
  | .writing ws  => ws.head?
  | .waitDone    => some (.readReg 0x04)
  | .reading p   => some (.readHex p)
  | .finished    => none

/-- The host after an access at which it last heard `x`: it stays in step 1 until bit 0 of `STATUS` is 0, in step 6 until
bit 1 is 1. -/
def clientHears (c : Client) (x : Option HostAnswer) : Client :=
  match c.phase, x with
  | .waitIdle, some (.word v) => if v.getLsbD 0 then c else { c with phase := .writing c.writes }
  | .writing (_ :: w :: ws), _ => { c with phase := .writing (w :: ws) }
  | .writing _, _ => { c with phase := .waitDone }
  | .waitDone, some (.word v) => if v.getLsbD 1 then { c with phase := .reading 0 } else c
  | .reading p, some (.byte b) =>
    { c with phase := if p < 31 then .reading (p + 1) else .finished, result := c.result ++ [b] }
  | _, _ => c

/-- The host reads the result once more: "The result may be read any number of times until the next command". -/
def readAgain (c : Client) : Client := { c with phase := .reading 0, result := [] }

/-- Whose turn it is while the protocol is played. -/
inductive ProtocolTurn where
  | client
  | engine
  deriving DecidableEq, Repr

/-- The outcome of playing the protocol. -/
abbrev PlayResult := Host.Outcome (Client × State) Fault Refusal

/-- One turn: a step of the machine whose next move is the host's access, or the engine's.
A host that has finished does nothing. -/
def playTurn (who : ProtocolTurn) (c : Client) (s : State) : PlayResult :=
  match who with
  | .engine =>
    match step (s.withPending []) with
    | .next t    => .next (c, t)
    | .fault f   => .fault f
    | .refused r => .refused r
  | .client =>
    match clientAccess c with
    | none => .next (c, s)
    | some a =>
      match step (s.withPending [.access a]) with
      | .next t    => .next (clientHears c t.answers.getLast?, t)
      | .fault f   => .fault f
      | .refused r => .refused r

/-- The turns of a list in their order. -/
def play : List ProtocolTurn → Client → State → PlayResult
  | [], c, s => .next (c, s)
  | who :: turns, c, s =>
    match playTurn who c s with
    | .next (d, t) => play turns d t
    | .fault f     => .fault f
    | .refused r   => .refused r

end Sys2Proof.Machine
end

