-- ==== Sys2Proof/Machine/Transaction.lean ====
section
/-! DEFINITION. The transaction level (spec/00_scope.md R20): `digest_lower` and `digest_upper` as functions of the
message bytes (spec/48_commands.md R304, R305), written from the closed forms, and the micro-program of a run. -/

namespace Sys2Proof.Machine

/-- A word from four bytes, the first one least significant (spec/40_padder.md R143, R148). -/
def leWord (b0 b1 b2 b3 : Byte) : Word := b3 ++ b2 ++ b1 ++ b0

/-- Bytes to little-endian words, a final partial word filled with zero bytes (spec/40_padder.md R143). -/
def wordsLE : List Byte → List Word
  | [] => []
  | [b0] => [leWord b0 0 0 0]
  | [b0, b1] => [leWord b0 b1 0 0]
  | [b0, b1, b2] => [leWord b0 b1 b2 0]
  | b0 :: b1 :: b2 :: b3 :: bs => leWord b0 b1 b2 b3 :: wordsLE bs

/-- `LE64(v)`, least significant byte first (spec/40_padder.md R148). -/
def le64 (v : BitVec 64) : List Byte :=
  [v.extractLsb' 0 8, v.extractLsb' 8 8, v.extractLsb' 16 8, v.extractLsb' 24 8,
   v.extractLsb' 32 8, v.extractLsb' 40 8, v.extractLsb' 48 8, v.extractLsb' 56 8]

/-- `z = (55 - L) mod 64`, the non-negative remainder (spec/40_padder.md R148). -/
def zeroCount (l : Nat) : Nat := ((55 - (l : Int)) % 64).toNat

/-- `P = M || 0x80 || (z bytes 0x00) || LE64(8 * L)` (spec/40_padder.md R148).
The trailer of a message of 2^61 bytes or more, for which the spec gives none, is the free value `LENW` splits: the two
levels agree there too, and no reduction modulo 2^64 is assumed (spec/92_eei_decisions.md D4).
DESIGN CHOICE, safe: log 8. -/
def paddedBytes (m : List Byte) : List Byte :=
  m ++ [0x80] ++ List.replicate (zeroCount m.length) 0 ++ le64 (bitLength m.length)

/-- `pad(M)`, the padded word buffer (spec/40_padder.md R148). -/
def pad (m : List Byte) : List Word := wordsLE (paddedBytes m)

/-- `X[k]`, the word `k` of a block of 16 words (spec/46_chain_sequencer.md R278).
Of a block that does not have 16 words the rule says nothing, and each word of it is a free value.
DESIGN CHOICE, safe: log 20. -/
def blockWord (x : List Word) (k : Fin 16) : Word :=
  if x.length = 16 then x.getD k.val 0 else Config.blockWordBeyond x k.val

/-- `steps(a, b, c, d, X)`: the 64 steps in index order (spec/46_chain_sequencer.md R272, R278); log 20 for an `X` that
does not have 16 words. -/
def blockSteps (r : Regs) (x : List Word) : Regs :=
  (List.finRange 64).foldl (fun q i => roundStep i q (blockWord x (kOf i))) r

/-- `block((a, b, c, d), X)` (spec/46_chain_sequencer.md R278). -/
def block (r : Regs) (x : List Word) : Regs := r.add (blockSteps r x)

/-- `n` blocks in index order, each from what the one before left (spec/46_chain_sequencer.md R279). -/
def compressBlocks : Nat → Regs → List Word → Regs
  | 0, r, _ => r
  | n + 1, r, w => compressBlocks n (block r (w.take 16)) (w.drop 16)

/-- `compress(W)` (spec/46_chain_sequencer.md R279), "defined for every buffer whose length is a positive multiple of 16"
(R280).
Of any other buffer, the empty one among them, the rule says nothing, and the four registers are free values.
DESIGN CHOICE, safe: log 20. -/
def compress (w : List Word) : Regs :=
  if 0 < w.length ∧ w.length % 16 = 0 then compressBlocks (w.length / 16) ivRegs w
  else
    { a := Config.compressBeyond w 0, b := Config.compressBeyond w 1, c := Config.compressBeyond w 2,
      d := Config.compressBeyond w 3 }

/-- `digest_lower(M)`, as 32 character codes (spec/48_commands.md R304). -/
def digestLower (m : List Byte) : List Byte := hexl (compress (pad m))

/-- `digest_upper(M)` (spec/48_commands.md R305). -/
def digestUpper (m : List Byte) : List Byte := (digestLower m).map up

/-- The micro-operations of one block (spec/46_chain_sequencer.md R275). -/
def blockProgram : List Instr := [.snap] ++ stepInstrs ++ [.chain]

/-- The micro-program of a run with `n` blocks and case flag `u` (spec/46_chain_sequencer.md R275). -/
def microProgram (n : Nat) (u : Bool) : List Instr :=
  [.pack, .mark, .zext, .lenw, .init] ++ (List.replicate n blockProgram).flatten
    ++ [.encl] ++ (if u then [.encu] else []) ++ [.fin]

/-- The count of micro-operations of a run: `66 * N + 7 + U` (spec/46_chain_sequencer.md R275). -/
def runLength (n : Nat) (u : Bool) : Nat := 66 * n + 7 + (if u then 1 else 0)

end Sys2Proof.Machine
end

