-- ==== Sys2Proof/Safety.lean ====
section
/-! DEFINITION. What a good state and a good outcome are, in the terms the statements use. -/

namespace Sys2Proof.Machine

/-- A lowercase hexadecimal digit: 0x30..0x39, 0x61..0x66 (spec/47_encoder.md R296). -/
def lowerHexDigit (b : Byte) : Bool :=
  decide ((0x30 ≤ b.toNat ∧ b.toNat ≤ 0x39) ∨ (0x61 ≤ b.toNat ∧ b.toNat ≤ 0x66))

/-- An uppercase hexadecimal digit: 0x30..0x39, 0x41..0x46 (spec/47_encoder.md R296). -/
def upperHexDigit (b : Byte) : Bool :=
  decide ((0x30 ≤ b.toNat ∧ b.toNat ≤ 0x39) ∨ (0x41 ≤ b.toNat ∧ b.toNat ≤ 0x46))

/-- The alphabet of the result for the case selector `u` (spec/47_encoder.md R296). -/
def resultDigit (u : Bool) (b : Byte) : Bool := if u then upperHexDigit b else lowerHexDigit b

/-- All 32 cells of `HEX` are written, each with a code that `ok` admits. -/
def State.HexHolds (s : State) (ok : Byte → Bool) : Prop :=
  ∀ p, p < 32 → ∃ b, s.hex.read p = some b ∧ ok b = true

/-- The state agrees with the place in the micro-program that `UPC` names (spec/10_state.md R61 (a), (b),
spec/40_padder.md R142 to R147 "After it", spec/46_chain_sequencer.md R271).
A code no micro-operation has is no place. -/
def State.Phase (s : State) : Prop :=
  let k := blocksFor s.len
  if s.upc = 0x40 then True
  else if s.upc = 0x41 then s.wlen = (s.len + 3) / 4
  else if s.upc = 0x42 then s.wlen = s.len / 4 + 1
  else if s.upc = 0x43 then s.wlen = 16 * k - 2
  else if s.upc = 0x80 then s.wlen = 16 * k
  else if s.upc.toNat ≤ 0x3F ∨ s.upc = 0x81 ∨ s.upc = 0x82 then s.wlen = 16 * k ∧ s.blk < k
  else if s.upc = 0xC0 then s.wlen = 16 * k
  else if s.upc = 0xC1 then s.wlen = 16 * k ∧ s.u = true ∧ s.HexHolds lowerHexDigit
  else if s.upc = 0xC2 then s.wlen = 16 * k ∧ s.HexHolds (resultDigit s.u)
  else False

/-- The invariant of the machine. -/
structure State.Inv (s : State) : Prop where
  /-- `MSG` is in canonical form. -/
  msgWf : s.msg.wf
  /-- `HEX` is in canonical form. -/
  hexWf : s.hex.wf
  /-- `MSG` has no cell at or above `MSG_CAP` (spec/10_state.md R49). -/
  msgCells : ∀ a b, s.msg.read a = some b → msgIndexExists s.msgCap a = true
  /-- `HEX` has 32 cells (spec/10_state.md R50). -/
  hexCells : ∀ p b, s.hex.read p = some b → p < 32
  /-- A finite `MSG_CAP` is below 2^61 (spec/00_scope.md R7). -/
  capBound : ∀ c, s.msgCap = some c → c < 2 ^ 61
  /-- The buffer is no longer than `W_CAP` (spec/10_state.md R35). -/
  bufferFits : s.wFits s.wlen = true
  /-- `BUSY` and `DONE` are never both 1 (spec/10_state.md R42). -/
  notBoth : ¬(s.busy = true ∧ s.done = true)
  /-- During a run the length is known and admitted (spec/48_commands.md R300), and the state is at its place in the
  micro-program. -/
  running : s.busy = true → s.lenKnown = true ∧ lengthAdmitted s.msgCap s.len = true ∧ s.Phase
  /-- `DONE = 1` means `HEX[0..31]` holds a result (spec/10_state.md R42, spec/47_encoder.md R296). -/
  finished : s.done = true → s.HexHolds (resultDigit s.u)

/-- The cells `MSG[0..L-1]` hold the bytes `m`, and `L` is their number (spec/48_commands.md R306). -/
def State.HoldsMessage (s : State) (m : List Byte) : Prop :=
  s.len = m.length ∧ ∀ j, j < m.length → s.msg.read j = m[j]?

/-- `n` steps of the machine, stopping at the first fault or refusal. -/
def runSteps : Nat → State → Result
  | 0, s => .next s
  | n + 1, s =>
    match step s with
    | .next t    => runSteps n t
    | .fault f   => .fault f
    | .refused r => .refused r

/-- Instructions executed in a list's order, stopping at the first fault or refusal. -/
def execAll : List Instr → State → Result
  | [], s => .next s
  | i :: is, s =>
    match exec i s with
    | .next t    => execAll is t
    | .fault f   => .fault f
    | .refused r => .refused r

end Sys2Proof.Machine
end

