-- ==== Sys2Proof/Certificates/Slice0/Obligations.lean ====
section
/-! DEFINITION. The statements for the provers, from the spec's numbered rules. -/

namespace Sys2Proof.Stated

open Sys2Proof Sys2Proof.Machine

/-! ## The spec's formulas, as it writes them -/

/-- `x +32 y` (spec/00_scope.md R10). -/
def plus (x y : Nat) : Nat := (x + y) % 2 ^ 32

/-- `rotl32(x, s)` for `1 <= s <= 31` (spec/00_scope.md R12). -/
def rotated (x s : Nat) : Nat := (x * 2 ^ s) % 2 ^ 32 + x / 2 ^ (32 - s)

/-- The element-wise wrapping sum of two register quadruples (spec/46_chain_sequencer.md R270). -/
def plusRegs (r q : Regs) : Regs :=
  { a := BitVec.ofNat 32 (plus r.a.toNat q.a.toNat)
    b := BitVec.ofNat 32 (plus r.b.toNat q.b.toNat)
    c := BitVec.ofNat 32 (plus r.c.toNat q.c.toNat)
    d := BitVec.ofNat 32 (plus r.d.toNat q.d.toNat) }

/-- A row of the step table (spec/30_encoding.md R105) with the code of its successor
(spec/46_chain_sequencer.md R271). -/
structure Row where
  instr : Instr
  k     : Nat
  s     : Nat
  t     : Nat
  next  : Nat

/-- Rows 0 to 15 (spec/42_round1_ff.md R200 to R215). -/
def roundOne : List Row :=
  [⟨.ff0, 0, 7, 0xd76aa478, 0x01⟩, ⟨.ff1, 1, 12, 0xe8c7b756, 0x02⟩, ⟨.ff2, 2, 17, 0x242070db, 0x03⟩, ⟨.ff3, 3, 22, 0xc1bdceee, 0x04⟩,
   ⟨.ff4, 4, 7, 0xf57c0faf, 0x05⟩, ⟨.ff5, 5, 12, 0x4787c62a, 0x06⟩, ⟨.ff6, 6, 17, 0xa8304613, 0x07⟩, ⟨.ff7, 7, 22, 0xfd469501, 0x08⟩,
   ⟨.ff8, 8, 7, 0x698098d8, 0x09⟩, ⟨.ff9, 9, 12, 0x8b44f7af, 0x0A⟩, ⟨.ff10, 10, 17, 0xffff5bb1, 0x0B⟩, ⟨.ff11, 11, 22, 0x895cd7be, 0x0C⟩,
   ⟨.ff12, 12, 7, 0x6b901122, 0x0D⟩, ⟨.ff13, 13, 12, 0xfd987193, 0x0E⟩, ⟨.ff14, 14, 17, 0xa679438e, 0x0F⟩, ⟨.ff15, 15, 22, 0x49b40821, 0x10⟩]

/-- Rows 16 to 31 (spec/43_round2_gg.md R216 to R231). -/
def roundTwo : List Row :=
  [⟨.gg16, 1, 5, 0xf61e2562, 0x11⟩, ⟨.gg17, 6, 9, 0xc040b340, 0x12⟩, ⟨.gg18, 11, 14, 0x265e5a51, 0x13⟩, ⟨.gg19, 0, 20, 0xe9b6c7aa, 0x14⟩,
   ⟨.gg20, 5, 5, 0xd62f105d, 0x15⟩, ⟨.gg21, 10, 9, 0x02441453, 0x16⟩, ⟨.gg22, 15, 14, 0xd8a1e681, 0x17⟩, ⟨.gg23, 4, 20, 0xe7d3fbc8, 0x18⟩,
   ⟨.gg24, 9, 5, 0x21e1cde6, 0x19⟩, ⟨.gg25, 14, 9, 0xc33707d6, 0x1A⟩, ⟨.gg26, 3, 14, 0xf4d50d87, 0x1B⟩, ⟨.gg27, 8, 20, 0x455a14ed, 0x1C⟩,
   ⟨.gg28, 13, 5, 0xa9e3e905, 0x1D⟩, ⟨.gg29, 2, 9, 0xfcefa3f8, 0x1E⟩, ⟨.gg30, 7, 14, 0x676f02d9, 0x1F⟩, ⟨.gg31, 12, 20, 0x8d2a4c8a, 0x20⟩]

/-- Rows 32 to 47 (spec/44_round3_hh.md R232 to R247). -/
def roundThree : List Row :=
  [⟨.hh32, 5, 4, 0xfffa3942, 0x21⟩, ⟨.hh33, 8, 11, 0x8771f681, 0x22⟩, ⟨.hh34, 11, 16, 0x6d9d6122, 0x23⟩, ⟨.hh35, 14, 23, 0xfde5380c, 0x24⟩,
   ⟨.hh36, 1, 4, 0xa4beea44, 0x25⟩, ⟨.hh37, 4, 11, 0x4bdecfa9, 0x26⟩, ⟨.hh38, 7, 16, 0xf6bb4b60, 0x27⟩, ⟨.hh39, 10, 23, 0xbebfbc70, 0x28⟩,
   ⟨.hh40, 13, 4, 0x289b7ec6, 0x29⟩, ⟨.hh41, 0, 11, 0xeaa127fa, 0x2A⟩, ⟨.hh42, 3, 16, 0xd4ef3085, 0x2B⟩, ⟨.hh43, 6, 23, 0x04881d05, 0x2C⟩,
   ⟨.hh44, 9, 4, 0xd9d4d039, 0x2D⟩, ⟨.hh45, 12, 11, 0xe6db99e5, 0x2E⟩, ⟨.hh46, 15, 16, 0x1fa27cf8, 0x2F⟩, ⟨.hh47, 2, 23, 0xc4ac5665, 0x30⟩]

/-- Rows 48 to 63 (spec/45_round4_ii.md R248 to R263). -/
def roundFour : List Row :=
  [⟨.ii48, 0, 6, 0xf4292244, 0x31⟩, ⟨.ii49, 7, 10, 0x432aff97, 0x32⟩, ⟨.ii50, 14, 15, 0xab9423a7, 0x33⟩, ⟨.ii51, 5, 21, 0xfc93a039, 0x34⟩,
   ⟨.ii52, 12, 6, 0x655b59c3, 0x35⟩, ⟨.ii53, 3, 10, 0x8f0ccc92, 0x36⟩, ⟨.ii54, 10, 15, 0xffeff47d, 0x37⟩, ⟨.ii55, 1, 21, 0x85845dd1, 0x38⟩,
   ⟨.ii56, 8, 6, 0x6fa87e4f, 0x39⟩, ⟨.ii57, 15, 10, 0xfe2ce6e0, 0x3A⟩, ⟨.ii58, 6, 15, 0xa3014314, 0x3B⟩, ⟨.ii59, 13, 21, 0x4e0811a1, 0x3C⟩,
   ⟨.ii60, 4, 6, 0xf7537e82, 0x3D⟩, ⟨.ii61, 11, 10, 0xbd3af235, 0x3E⟩, ⟨.ii62, 2, 15, 0x2ad7d2bb, 0x3F⟩, ⟨.ii63, 9, 21, 0xeb86d391, 0x82⟩]

/-- `F` (spec/41_core_entry.md R162). -/
def fF (b c d : Word) : Word := (b &&& c) ||| (~~~b &&& d)

/-- `G` (spec/41_core_entry.md R163). -/
def fG (b c d : Word) : Word := (b &&& d) ||| (c &&& ~~~d)

/-- `H` (spec/41_core_entry.md R164). -/
def fH (b c d : Word) : Word := b ^^^ c ^^^ d

/-- `I` (spec/41_core_entry.md R165). -/
def fI (b c d : Word) : Word := c ^^^ (b ||| ~~~d)

/-- The state after the step of a row with message word `x`: the registers and `UPC` change, nothing else
(spec/41_core_entry.md R166). -/
def afterStep (nl : Word → Word → Word → Word) (row : Row) (x : Word) (s : State) : State :=
  let sum := plus (plus (plus s.regs.a.toNat (nl s.regs.b s.regs.c s.regs.d).toNat) x.toNat) row.t
  { s with
    regs := { a := s.regs.d
              b := BitVec.ofNat 32 (plus s.regs.b.toNat (rotated sum row.s))
              c := s.regs.b
              d := s.regs.c }
    upc := BitVec.ofNat 8 row.next }

/-- Every step of a round completes, with the effect of its row, when its message word is inside the buffer. -/
def RoundCompletes (nl : Word → Word → Word → Word) (rows : List Row) : Prop :=
  ∀ row ∈ rows, ∀ s : State, 16 * s.blk + row.k < s.w.length →
    ∃ x, s.w[16 * s.blk + row.k]? = some x ∧ exec row.instr s = .next (afterStep nl row x s)

/-- `L <= MSG_CAP` (spec/00_scope.md R7). -/
def WithinCapacity (s : State) : Prop := ∀ c, s.msgCap = some c → s.len ≤ c

/-- A buffer of `n` words is within `W_CAP = 16 * ((MSG_CAP + 8) div 64 + 1)` (spec/10_state.md R35). -/
def BufferHolds (s : State) (n : Nat) : Prop := ∀ c, s.msgCap = some c → n ≤ 16 * ((c + 8) / 64 + 1)

/-- The value of four bytes of a byte string, the first least significant, bytes past its end counting nothing
(spec/40_padder.md R143, R148). -/
def littleEndian (bs : List Byte) (w : Nat) : Nat :=
  ((bs[4 * w]?).getD 0).toNat + 2 ^ 8 * ((bs[4 * w + 1]?).getD 0).toNat
    + 2 ^ 16 * ((bs[4 * w + 2]?).getD 0).toNat + 2 ^ 24 * ((bs[4 * w + 3]?).getD 0).toNat

/-- The tuple `(r0, r1, r2, r3)` the data-at-rest form uses for step `n` (spec/41_core_entry.md R168). -/
def roles (n : Nat) (q : Regs) : Regs :=
  if n % 4 = 0 then q
  else if n % 4 = 1 then { a := q.d, b := q.a, c := q.b, d := q.c }
  else if n % 4 = 2 then { a := q.c, b := q.d, c := q.a, d := q.b }
  else { a := q.b, b := q.c, c := q.d, d := q.a }

/-- Step `i` with the data at rest: one register is updated in place (spec/41_core_entry.md R168). -/
def atRest (i : Fin 64) (x : Word) (q : Regs) : Regs :=
  let r := roles i.val q
  let v := add32 r.b (rotl32 (add32 (add32 (add32 r.a (nonlinear (fnOf i) r.b r.c r.d)) x) (tOf i)) (sOf i))
  if i.val % 4 = 0 then { q with a := v }
  else if i.val % 4 = 1 then { q with d := v }
  else if i.val % 4 = 2 then { q with c := v }
  else { q with b := v }

/-- Register `R_r` (spec/20_memory.md R72). -/
def regOf (q : Regs) (r : Nat) : Word :=
  if r = 0 then q.a else if r = 1 then q.b else if r = 2 then q.c else q.d

/-- The nibble shown at position `p`: `R_r[4e+3 : 4e]` with `m = p div 2`, `r = m div 4`, `n = m mod 4`, and
`e = 2n + 1` for even `p`, `e = 2n` for odd `p` (spec/47_encoder.md R292). -/
def nibbleShown (q : Regs) (p : Nat) : Nat :=
  let m := p / 2
  let e := if p % 2 = 0 then 2 * (m % 4) + 1 else 2 * (m % 4)
  (regOf q (m / 4)).toNat / 2 ^ (4 * e) % 16

/-- `HEXROM[v] = 0x30 + v` for `v <= 9` and `0x57 + v` for `v >= 10` (spec/30_encoding.md R114). -/
def digitCode (v : Nat) : Byte := if v ≤ 9 then BitVec.ofNat 8 (0x30 + v) else BitVec.ofNat 8 (0x57 + v)

/-- Uppercasing of an ASCII code (spec/47_encoder.md R294). -/
def asciiUpper (c : Byte) : Byte := if 0x61 ≤ c.toNat ∧ c.toNat ≤ 0x7A then BitVec.ofNat 8 (c.toNat - 0x20) else c

/-- The next-state function of `pc = (UPC, BLK)` (the table of spec/46_chain_sequencer.md R271). -/
def successor (s : State) : Nat × Nat :=
  let u := s.upc.toNat
  if u = 0x40 then (0x41, s.blk)
  else if u = 0x41 then (0x42, s.blk)
  else if u = 0x42 then (0x43, s.blk)
  else if u = 0x43 then (0x80, s.blk)
  else if u = 0x80 then (0x81, 0)
  else if u = 0x81 then (0x00, s.blk)
  else if u ≤ 0x3E then (u + 1, s.blk)
  else if u = 0x3F then (0x82, s.blk)
  else if u = 0x82 then if s.blk + 1 < s.w.length / 16 then (0x81, s.blk + 1) else (0xC0, s.blk)
  else if u = 0xC0 then if s.u then (0xC1, s.blk) else (0xC2, s.blk)
  else (0xC2, s.blk)

/-- The codes executed by `n` steps, in order. -/
def codesExecuted : Nat → State → List Code
  | 0, _ => []
  | n + 1, s => .uop s.upc :: (match step s with | .next t => codesExecuted n t | _ => [])

/-- The word written to `CTRL` for a command (spec/30_encoding.md R106). -/
def commandWord (upper : Bool) : Word := if upper then 0x00000003 else 0x00000001

/-- The host's next move is this access. -/
def HostTurn (s : State) (a : HostAccess) (ms : List HostMove) : Prop := s.pending = .access a :: ms

/-- The next turn is the engine's. -/
def EngineTurn (s : State) (ms : List HostMove) : Prop :=
  (s.pending = [] ∧ ms = []) ∨ s.pending = .engine :: ms

/-- A cell outside `HEX[0..31]` of no interest to `ENCL` and `ENCU`, and every cell of `MSG`, as before. -/
def KeepsMemoryBut (s t : State) (stored : Nat → Prop) : Prop :=
  (∀ a, t.msg.read a = s.msg.read a) ∧ (∀ p, ¬ stored p → t.hex.read p = s.hex.read p)

end Sys2Proof.Stated

open Sys2Proof Sys2Proof.Machine Sys2Proof.Stated

/-! ## The step and the encodings -/

/-- While `BUSY = 1` the engine's turn runs the micro-operation whose code `UPC` holds; nothing is done around it but that
the turn is taken from the list (spec/10_state.md R38, R40, R41; log 1). -/
def Obligations.StepRunsTheMicroOperationUpcHolds : Prop :=
  ∀ (s : State) (i : Instr) (ms : List HostMove), EngineTurn s ms → s.busy = true →
    decode (.uop s.upc) = .instr i → i.wellFormed = true → step s = exec i { s with pending := ms }

/-- The host's turn performs its access, and a write of a command word to `CTRL` runs that command; nothing is done around
it but that the turn is taken from the list (spec/10_state.md R56, spec/48_commands.md R300; log 1). -/
def Obligations.StepRunsTheCommandWritten : Prop :=
  (∀ (s : State) (a : HostAccess) (ms : List HostMove), HostTurn s a ms →
    step s = hostAccess a { s with pending := ms }) ∧
  (∀ (s : State) (v : Word) (i : Instr) (ms : List HostMove), HostTurn s (.writeReg 0x00 v) ms →
    decode (.cmd v) = .instr i → i.wellFormed = true → step s = exec i { s with pending := ms })

/-- Words of every family, written out bit by bit from spec/30_encoding.md R102 to R106. -/
def Obligations.WordsDecodeAsTheTablesSay : Prop :=
  decode (.uop 0b00000000) = .instr .ff0 ∧ decode (.uop 0b00001111) = .instr .ff15 ∧
  decode (.uop 0b00010100) = .instr .gg20 ∧ decode (.uop 0b00101111) = .instr .hh47 ∧
  decode (.uop 0b00111100) = .instr .ii60 ∧ decode (.uop 0b01000000) = .instr .pack ∧
  decode (.uop 0b01000011) = .instr .lenw ∧ decode (.uop 0b10000010) = .instr .chain ∧
  decode (.uop 0b11000001) = .instr .encu ∧ decode (.uop 0b11000010) = .instr .fin ∧
  decode (.cmd 0b00000000000000000000000000000001) = .instr .hashl ∧
  decode (.cmd 0b00000000000000000000000000000011) = .instr .hashu

/-- Decoding and encoding are inverse to each other on the codes that stand for an operation: every well-formed instruction
has exactly one code, and every code that decodes is that code. -/
def Obligations.DecodeInvertsEncode : Prop :=
  ∀ (c : Code) (i : Instr), i.wellFormed = true → (decode c = .instr i ↔ c = encode i)

/-- The reserved codes are the three ranges, 182 codes; a decoder answers "reserved" and the model refuses; no step leaves
a reserved code in `UPC` (spec/30_encoding.md R115).
For the reset move the last clause rests on the value 0x00 the model chooses for `UPC` after reset, which the spec leaves
unspecified (log 3). -/
def Obligations.ReservedCodesAreRefusedAndNeverReached : Prop :=
  (∀ c : BitVec 8, decode (.uop c) = .reserved ↔
    (0x44 ≤ c.toNat ∧ c.toNat ≤ 0x7F) ∨ (0x83 ≤ c.toNat ∧ c.toNat ≤ 0xBF) ∨ (0xC3 ≤ c.toNat ∧ c.toNat ≤ 0xFF)) ∧
  ((List.range 256).filter (fun n => decide (decode (.uop (BitVec.ofNat 8 n)) = .reserved))).length = 182 ∧
  (∀ s : State, s.busy = true → decode (.uop s.upc) = .reserved → engineTurn s = .refused (.reservedUop s.upc)) ∧
  (∀ s t : State, step s = .next t → decode (.uop s.upc) ≠ .reserved → decode (.uop t.upc) ≠ .reserved)

/-- The words 0 and 2 written to `CTRL` change nothing, every word with one of bits 31:2 set is refused, and there is no
other word but the two commands (spec/30_encoding.md R116). -/
def Obligations.CommandWordsOtherThanTheTwo : Prop :=
  ∀ (s : State) (v : Word),
    ((v = 0x00000000 ∨ v = 0x00000002) → hostAccess (.writeReg 0x00 v) s = .next s) ∧
    ((∃ n, 2 ≤ n ∧ n ≤ 31 ∧ v.getLsbD n = true) →
      hostAccess (.writeReg 0x00 v) s = .refused (.reservedCommand v)) ∧
    (v ≠ 0x00000001 → v ≠ 0x00000003 → v ≠ 0x00000000 → v ≠ 0x00000002 →
      ∃ n, 2 ≤ n ∧ n ≤ 31 ∧ v.getLsbD n = true)

/-- The class map, with `cls` in bits 7:6 and `sub` in bits 5:0 (spec/30_encoding.md R102, R103). -/
def Obligations.ClassMapOfTheCodes : Prop :=
  ∀ sub : BitVec 6,
    (∃ row, (roundOne ++ roundTwo ++ roundThree ++ roundFour)[sub.toNat]? = some row ∧
      decode (.uop (0b00#2 ++ sub)) = .instr row.instr) ∧
    decode (.uop (0b01#2 ++ sub)) =
      (if sub.toNat = 0 then .instr .pack else if sub.toNat = 1 then .instr .mark
       else if sub.toNat = 2 then .instr .zext else if sub.toNat = 3 then .instr .lenw else .reserved) ∧
    decode (.uop (0b10#2 ++ sub)) =
      (if sub.toNat = 0 then .instr .init else if sub.toNat = 1 then .instr .snap
       else if sub.toNat = 2 then .instr .chain else .reserved) ∧
    decode (.uop (0b11#2 ++ sub)) =
      (if sub.toNat = 0 then .instr .encl else if sub.toNat = 1 then .instr .encu
       else if sub.toNat = 2 then .instr .fin else .reserved)

/-- `STEP fn, k, s, t` stands for the step whose row has these parameters, and for nothing when no row has them
(spec/30_encoding.md R120). -/
def Obligations.PseudoStepStandsForItsRow : Prop :=
  ∀ (p : PseudoStep) (i : Instr), expandPseudo p = some i ↔
    (p.fn = .f ∧ ∃ row ∈ roundOne, row.instr = i ∧ p.k = row.k ∧ p.s = row.s ∧ p.t.toNat = row.t) ∨
    (p.fn = .g ∧ ∃ row ∈ roundTwo, row.instr = i ∧ p.k = row.k ∧ p.s = row.s ∧ p.t.toNat = row.t) ∨
    (p.fn = .h ∧ ∃ row ∈ roundThree, row.instr = i ∧ p.k = row.k ∧ p.s = row.s ∧ p.t.toNat = row.t) ∨
    (p.fn = .i ∧ ∃ row ∈ roundFour, row.instr = i ∧ p.k = row.k ∧ p.s = row.s ∧ p.t.toNat = row.t)

/-! ## Primitives and tables -/

/-- Addition is modulo 2^32, in any order and grouping (spec/00_scope.md R10). -/
def Obligations.AdditionIsModuloTwoToThe32 : Prop :=
  ∀ x y z : Word, (add32 x y).toNat = (x.toNat + y.toNat) % 2 ^ 32 ∧ add32 x y = add32 y x ∧
    add32 (add32 x y) z = add32 x (add32 y z)

/-- Rotation by its formula, and bit by bit (spec/00_scope.md R12; the rule marks its formula as general knowledge). -/
def Obligations.RotationMovesEveryBit : Prop :=
  ∀ (x : Word) (s : Fin 32),
    (1 ≤ s.val → (rotl32 x s).toNat = rotated x.toNat s.val) ∧
    (s.val = 0 → rotl32 x s = x) ∧
    (∀ n, n < 32 → (rotl32 x s).getLsbD ((n + s.val) % 32) = x.getLsbD n)

/-- The four nonlinear functions by formula, by bits, by the rounds that use them, and at the values the rules give
(spec/41_core_entry.md R162 to R165). -/
def Obligations.NonlinearFunctionsBitByBit : Prop :=
  (∀ b c d : Word,
    nonlinear .f b c d = (b &&& c) ||| (~~~b &&& d) ∧ nonlinear .g b c d = (b &&& d) ||| (c &&& ~~~d) ∧
    nonlinear .h b c d = b ^^^ c ^^^ d ∧ nonlinear .i b c d = c ^^^ (b ||| ~~~d) ∧
    ∀ n, n < 32 →
      (nonlinear .f b c d).getLsbD n = (if b.getLsbD n then c.getLsbD n else d.getLsbD n) ∧
      (nonlinear .g b c d).getLsbD n = (if d.getLsbD n then b.getLsbD n else c.getLsbD n) ∧
      ((nonlinear .h b c d).getLsbD n = true ↔
        ((b.getLsbD n).toNat + (c.getLsbD n).toNat + (d.getLsbD n).toNat) % 2 = 1) ∧
      (nonlinear .i b c d).getLsbD n = (c.getLsbD n != (b.getLsbD n || !d.getLsbD n))) ∧
  (∀ i : Fin 64, (i.val < 16 → fnOf i = .f) ∧ (16 ≤ i.val → i.val < 32 → fnOf i = .g) ∧
    (32 ≤ i.val → i.val < 48 → fnOf i = .h) ∧ (48 ≤ i.val → fnOf i = .i)) ∧
  nonlinear .f 0xefcdab89 0x98badcfe 0x10325476 = 0x98badcfe ∧
  nonlinear .g 0xefcdab89 0x98badcfe 0x10325476 = 0x88888888 ∧
  nonlinear .h 0xefcdab89 0x98badcfe 0x10325476 = 0x67452301 ∧
  nonlinear .i 0xefcdab89 0x98badcfe 0x10325476 = 0x77777777

/-- The constant tables against the closed forms and checksums of spec/30_encoding.md R109 to R114. -/
def Obligations.ConstantTablesPassTheirChecks : Prop :=
  ivRom = [0x67452301, 0xefcdab89, 0x98badcfe, 0x10325476] ∧
  (∀ i : Fin 64, (kOf i).val =
    (if i.val / 16 = 0 then i.val else if i.val / 16 = 1 then (5 * i.val + 1) % 16
     else if i.val / 16 = 2 then (3 * i.val + 5) % 16 else 7 * i.val % 16)) ∧
  (∀ i : Fin 64, some (sOf i).val =
    (if i.val / 16 = 0 then [7, 12, 17, 22][i.val % 4]? else if i.val / 16 = 1 then [5, 9, 14, 20][i.val % 4]?
     else if i.val / 16 = 2 then [4, 11, 16, 23][i.val % 4]? else [6, 10, 15, 21][i.val % 4]?)) ∧
  ((List.finRange 64).map (fun i => (sOf i).val)).sum = 848 ∧
  ((List.finRange 64).map (fun i => (kOf i).val)).sum = 480 ∧
  ((List.finRange 64).map (fun i => (tOf i).toNat)).sum % 2 ^ 32 = 0x27f3a0bc ∧
  ((List.finRange 64).map tOf).foldl (fun x y => x ^^^ y) 0 = 0x10e6cc5a ∧
  (∀ v : BitVec 4, hexDigit v = digitCode v.toNat)

/-! ## Reset -/

/-- The reset event leaves the engine idle: both flags 0, an engine's turn changes nothing but the list it is taken from,
and `STATUS` reads 0 (spec/70_reset_and_hazards.md R350, R351, R353; that the idle engine's turn is a step that holds the
state is the model's choice, log 2).
The values it leaves beside the two flags are the model's choice (log 3, log 18), not the spec's, which calls them
unspecified (spec/10_state.md R57). -/
def Obligations.ResetLeavesTheEngineIdle : Prop :=
  ∀ (s : State) (ms : List HostMove), s.pending = .reset :: ms →
    step s = .next { State.reset with
      msgCap := s.msgCap, resetCount := s.resetCount + 1, pending := ms, answers := s.answers } ∧
    ∃ t, step s = .next t ∧ t.busy = false ∧ t.done = false ∧ t.pending = ms ∧
      (∀ ns, EngineTurn t ns → step t = .next { t with pending := ns }) ∧
      (∀ ns, HostTurn t (.readReg 0x04) ns →
        step t = .next { t with pending := ns, answers := t.answers ++ [.word 0x00000000] })

/-! ## The padder -/

/-- `PACK` completes when every message byte is there: word `j div 4` holds byte `j` at byte position `j mod 4`, the last
word is filled with zeros, `WLEN = (L + 3) div 4`, and only `W` and `UPC` change
(spec/40_padder.md R142, spec/20_memory.md R70). -/
def Obligations.PackAssemblesLittleEndianWords : Prop :=
  ∀ (s : State) (m : List Byte), s.HoldsMessage m → WithinCapacity s →
    ∃ w, exec .pack s = .next { s with w := w, upc := 0x41 } ∧ w.length = (s.len + 3) / 4 ∧
      (∀ j, j < w.length → ∃ x, w[j]? = some x ∧ x.toNat = littleEndian m j) ∧
      (∀ j b, m[j]? = some b → ∃ x, w[j / 4]? = some x ∧ x.extractLsb' (8 * (j % 4)) 8 = b)

/-- `PACK` is refused when a cell of `MSG[0..L-1]` holds no value (spec/10_state.md R58; log 5). -/
def Obligations.PackRefusesAnUnwrittenByte : Prop :=
  ∀ (s : State) (j : Nat), j < s.len → s.msg.read j = none → exec .pack s = .refused .messageUnwritten

/-- `MARK`: the pad byte opens a new word when `L mod 4 = 0`, otherwise it is OR'd into word `L div 4`; every other word
and all else but `UPC` is unchanged; after `PACK` the length becomes `L div 4 + 1` (spec/40_padder.md R144). -/
def Obligations.MarkPlacesThePadByte : Prop :=
  ∀ s : State,
    (s.len % 4 = 0 → BufferHolds s (s.w.length + 1) →
      exec .mark s = .next { s with w := s.w ++ [0x00000080], upc := 0x42 }) ∧
    (s.len % 4 ≠ 0 → s.len / 4 < s.w.length →
      ∃ x v, s.w[s.len / 4]? = some x ∧ [0x00000080, 0x00008000, 0x00800000, 0x80000000][s.len % 4]? = some v ∧
        exec .mark s = .next { s with w := s.w.set (s.len / 4) (x ||| v), upc := 0x42 }) ∧
    (s.w.length = (s.len + 3) / 4 → WithinCapacity s → ∃ t, exec .mark s = .next t ∧ t.w.length = s.len / 4 + 1)

/-- `ZEXT` appends zero words up to `16*k - 2` and never shortens the buffer; after `MARK` it appends
`16*k - 3 - (L div 4)` of them, none when `L mod 64` is in 52..55 and 15 when it is in 56..59
(spec/40_padder.md R146). -/
def Obligations.ZextAppendsZeroWords : Prop :=
  ∀ s : State,
    (BufferHolds s (max s.w.length (16 * ((s.len + 8) / 64 + 1) - 2)) →
      exec .zext s = .next { s with
        w := s.w ++ List.replicate (16 * ((s.len + 8) / 64 + 1) - 2 - s.w.length) 0x00000000, upc := 0x43 }) ∧
    (s.w.length = s.len / 4 + 1 → WithinCapacity s →
      ∃ n, exec .zext s = .next { s with w := s.w ++ List.replicate n 0x00000000, upc := 0x43 } ∧
        s.w.length + n = 16 * ((s.len + 8) / 64 + 1) - 2 ∧ n = 16 * ((s.len + 8) / 64 + 1) - 3 - s.len / 4 ∧ n ≤ 15 ∧
        (52 ≤ s.len % 64 ∧ s.len % 64 ≤ 55 → n = 0) ∧ (56 ≤ s.len % 64 ∧ s.len % 64 ≤ 59 → n = 15))

/-- `LENW` appends the bit length `8 * L`, low word first, as a true 64-bit split, and nothing but `W` and `UPC` changes;
after `ZEXT` the length becomes `16*k` (spec/40_padder.md R147). -/
def Obligations.LenwAppendsTheBitLength : Prop :=
  ∀ s : State, BufferHolds s (s.w.length + 2) → s.len < 2 ^ 61 →
    ∃ lo hi : Word, exec .lenw s = .next { s with w := s.w ++ [lo, hi], upc := 0x80 } ∧
      lo.toNat = 8 * s.len % 2 ^ 32 ∧ hi.toNat = 8 * s.len / 2 ^ 32 ∧ 8 * s.len = hi.toNat * 2 ^ 32 + lo.toNat ∧
      lo.toNat = s.len % 2 ^ 29 * 2 ^ 3 % 2 ^ 32 ∧ hi.toNat = s.len / 2 ^ 29 ∧
      (s.w.length = 16 * ((s.len + 8) / 64 + 1) - 2 → (s.w ++ [lo, hi]).length = 16 * ((s.len + 8) / 64 + 1))

/-- For `L >= 2^61`, which no command admits, `LENW` appends two words as well, whose values the model leaves free: the
model's choice, log 8 (spec/40_padder.md R152 gives no value there). -/
def Obligations.LenwBeyondTheAdmittedLengths : Prop :=
  ∀ s : State, BufferHolds s (s.w.length + 2) → 2 ^ 61 ≤ s.len →
    ∃ lo hi : Word, exec .lenw s = .next { s with w := s.w ++ [lo, hi], upc := 0x80 }

/-- Where the buffer would need a cell that does not exist the padder stops by name: `MARK` at a missing word `L div 4`,
the growing operations above `W_CAP` (spec/10_state.md R34, R35, R51; the stop is the model's choice, log 11). -/
def Obligations.PadderStopsAtMissingCells : Prop :=
  ∀ s : State,
    (s.len % 4 ≠ 0 → s.w.length ≤ s.len / 4 → exec .mark s = .fault (.noSuchWord (s.len / 4))) ∧
    (s.len % 4 = 0 → ¬ BufferHolds s (s.w.length + 1) → exec .mark s = .fault .wordBufferFull) ∧
    (¬ BufferHolds s (max s.w.length (16 * ((s.len + 8) / 64 + 1) - 2)) → exec .zext s = .fault .wordBufferFull) ∧
    (¬ BufferHolds s (s.w.length + 2) → exec .lenw s = .fault .wordBufferFull) ∧
    (∀ m, s.HoldsMessage m → ¬ BufferHolds s ((s.len + 3) / 4) → exec .pack s = .fault .wordBufferFull)

/-- The four padder operations in a row leave the padded message: `WLEN = 16*k`, and every word is the little-endian value
of four bytes of `P = M || 0x80 || z zero bytes || LE64(8*L)`; nothing but `W` and `UPC` changes
(spec/40_padder.md R141, R148, R149). -/
def Obligations.PadderLeavesThePaddedMessage : Prop :=
  ∀ (s : State) (m : List Byte), s.HoldsMessage m → WithinCapacity s → s.len < 2 ^ 61 →
    ∃ w, execAll [.pack, .mark, .zext, .lenw] s = .next { s with w := w, upc := 0x80 } ∧
      (paddedBytes m).length = 64 * ((s.len + 8) / 64 + 1) ∧ w.length = 16 * ((s.len + 8) / 64 + 1) ∧
      ∀ j, j < w.length → ∃ x, w[j]? = some x ∧ x.toNat = littleEndian (paddedBytes m) j

/-- The buffer's length after each padder operation at the boundary lengths (the table of spec/40_padder.md R151). -/
def Obligations.PadderBoundaryLengths : Prop :=
  ∀ row ∈ [(0, 0, 1, 14, 16), (1, 1, 1, 14, 16), (3, 1, 1, 14, 16), (4, 1, 2, 14, 16), (55, 14, 14, 14, 16),
      (56, 14, 15, 30, 32), (63, 16, 16, 30, 32), (64, 16, 17, 30, 32), (119, 30, 30, 30, 32),
      ((120, 30, 31, 46, 48) : Nat × Nat × Nat × Nat × Nat)],
    ∀ (s : State) (m : List Byte), s.HoldsMessage m → m.length = row.1 → WithinCapacity s →
      ∃ t1 t2 t3 t4, exec .pack s = .next t1 ∧ exec .mark t1 = .next t2 ∧ exec .zext t2 = .next t3 ∧
        exec .lenw t3 = .next t4 ∧ t1.w.length = row.2.1 ∧ t2.w.length = row.2.2.1 ∧ t3.w.length = row.2.2.2.1 ∧
        t4.w.length = row.2.2.2.2

/-! ## The compression core -/

/-- `INIT` loads the initialization vector and clears `BLK`; `SNAP` copies the four registers; nothing else changes but
`UPC` (spec/41_core_entry.md R160, R161). -/
def Obligations.InitAndSnapLoadTheirRegisters : Prop :=
  ∀ s : State,
    exec .init s = .next { s with
      regs := { a := 0x67452301, b := 0xefcdab89, c := 0x98badcfe, d := 0x10325476 }, blk := 0, upc := 0x81 } ∧
    exec .snap s = .next { s with snap := { a := s.regs.a, b := s.regs.b, c := s.regs.c, d := s.regs.d }, upc := 0x00 }

/-- `CHAIN` adds the snapshot element by element, each sum modulo 2^32 on its own, and goes to the next block while
`BLK + 1 < WLEN div 16`, otherwise to `ENCL` with `BLK` kept (spec/46_chain_sequencer.md R270). -/
def Obligations.ChainAddsTheSnapshotAndAdvances : Prop :=
  ∀ s : State,
    (s.blk + 1 < s.w.length / 16 →
      exec .chain s = .next { s with regs := plusRegs s.regs s.snap, blk := s.blk + 1, upc := 0x81 }) ∧
    (¬ s.blk + 1 < s.w.length / 16 → exec .chain s = .next { s with regs := plusRegs s.regs s.snap, upc := 0xC0 })

/-- `FF0` to `FF15` complete with the effect of their rows (spec/42_round1_ff.md R200 to R215). -/
def Obligations.RoundOneStepsComplete : Prop := RoundCompletes fF roundOne

/-- `GG16` to `GG31` complete with the effect of their rows (spec/43_round2_gg.md R216 to R231). -/
def Obligations.RoundTwoStepsComplete : Prop := RoundCompletes fG roundTwo

/-- `HH32` to `HH47` complete with the effect of their rows (spec/44_round3_hh.md R232 to R247). -/
def Obligations.RoundThreeStepsComplete : Prop := RoundCompletes fH roundThree

/-- `II48` to `II63` complete with the effect of their rows (spec/45_round4_ii.md R248 to R263). -/
def Obligations.RoundFourStepsComplete : Prop := RoundCompletes fI roundFour

/-- A step uses one message word, `W[16*BLK + KTAB[i]]`: with every other word changed at will it leaves the same
registers, and where that word does not exist it stops by name (spec/41_core_entry.md R167; the stop is the model's
choice, log 11). -/
def Obligations.StepUsesExactlyOneMessageWord : Prop :=
  ∀ (i : Fin 64) (s : State),
    (∀ (v : List Word) (t : State), v[16 * s.blk + (kOf i).val]? = s.w[16 * s.blk + (kOf i).val]? →
      exec (stepInstr i) s = .next t → exec (stepInstr i) { s with w := v } = .next { t with w := v }) ∧
    (s.w.length ≤ 16 * s.blk + (kOf i).val →
      exec (stepInstr i) s = .fault (.noSuchWord (16 * s.blk + (kOf i).val)))

/-- The published form, in which the data stays and the roles rotate, agrees after every number of steps of a block; after
all 64 both hold the same values in the same registers (spec/41_core_entry.md R168). -/
def Obligations.DataAtRestFormAgrees : Prop :=
  ∀ (r : Regs) (x : List Word),
    (x.length = 16 → ∀ k : Fin 16, x[k.val]? = some (blockWord x k)) ∧
    (∀ n, n ≤ 64 →
      ((List.finRange 64).take n).foldl (fun q i => roundStep i q (blockWord x (kOf i))) r =
        roles n (((List.finRange 64).take n).foldl (fun q i => atRest i (blockWord x (kOf i)) q) r)) ∧
    blockSteps r x = (List.finRange 64).foldl (fun q i => atRest i (blockWord x (kOf i)) q) r

/-- One pass `SNAP`, 64 steps, `CHAIN` computes the block function on the 16 words of the block, saves the registers in the
snapshot, and changes nothing else but `BLK` and `UPC` as `CHAIN` says (spec/46_chain_sequencer.md R278). -/
def Obligations.BlockPassComputesTheBlockFunction : Prop :=
  ∀ s : State, 16 * s.blk + 16 ≤ s.w.length →
    execAll blockProgram s = .next { s with
      regs := block s.regs ((s.w.drop (16 * s.blk)).take 16)
      snap := s.regs
      blk := if s.blk + 1 < s.w.length / 16 then s.blk + 1 else s.blk
      upc := if s.blk + 1 < s.w.length / 16 then 0x81 else 0xC0 }

/-- `INIT` and a pass per block compute `compress(W)` for every buffer whose length is a positive multiple of 16
(spec/46_chain_sequencer.md R273, R279, R280). -/
def Obligations.CoreComputesCompress : Prop :=
  ∀ (s : State) (n : Nat), 1 ≤ n → s.w.length = 16 * n →
    ∃ q, execAll (.init :: (List.replicate n blockProgram).flatten) s =
      .next { s with regs := compress s.w, snap := q, blk := n - 1, upc := 0xC0 }

/-! ## The encoder -/

/-- `ENCL` completes in every state: cell `p` of `HEX` gets the code of the nibble shown at position `p`, the other cells
and all else but `UPC` is unchanged (spec/47_encoder.md R291). -/
def Obligations.EnclWritesTheHexDigits : Prop :=
  ∀ s : State, ∃ h, exec .encl s = .next { s with hex := h, upc := if s.u then 0xC1 else 0xC2 } ∧
    (∀ p, p < 32 → h.read p = some (digitCode (nibbleShown s.regs p))) ∧
    (∀ p, 32 ≤ p → h.read p = s.hex.read p)

/-- `ENCU` completes in every state; where the 32 cells hold hexadecimal digits it maps each to uppercase, and a second
pass changes nothing; the other cells and all else but `UPC` is unchanged (spec/47_encoder.md R293). -/
def Obligations.EncuMapsDigitsToUppercase : Prop :=
  ∀ s : State, ∃ h, exec .encu s = .next { s with hex := h, upc := 0xC2 } ∧
    (∀ p, p < 32 → ∀ c, s.hex.read p = some c → lowerHexDigit c = true ∨ upperHexDigit c = true →
      h.read p = some (asciiUpper c)) ∧
    (∀ p, 32 ≤ p → h.read p = s.hex.read p) ∧
    (s.HexHolds (fun c => lowerHexDigit c || upperHexDigit c) →
      ∃ k, exec .encu { s with hex := h, upc := 0xC2 } = .next { s with hex := k, upc := 0xC2 } ∧
        ∀ p, k.read p = h.read p)

/-- `FIN` writes the two status flags and nothing else, and the engine then has no step: its turn changes nothing
(spec/47_encoder.md R295; the turn of an idle engine: log 2). -/
def Obligations.FinEndsTheRun : Prop :=
  ∀ s : State, exec .fin s = .next { s with busy := false, done := true } ∧
    ∀ ms, EngineTurn s ms →
      step { s with busy := false, done := true } = .next { s with busy := false, done := true, pending := ms }

/-- Two different register quadruples never give the same output, in either case (spec/47_encoder.md R297). -/
def Obligations.EncoderIsInjective : Prop :=
  ∀ r q : Regs, (hexl r = hexl q → r = q) ∧ (hexu r = hexu q → r = q) ∧ (hexl r).length = 32 ∧ (hexu r).length = 32

/-! ## The sequencer -/

/-- Every micro-operation that completes leaves `UPC` and `BLK` as the table of successors says
(spec/46_chain_sequencer.md R271). -/
def Obligations.SuccessorOfEveryMicroOperation : Prop :=
  ∀ (s t : State) (i : Instr), decode (.uop s.upc) = .instr i → exec i s = .next t →
    (t.upc.toNat, t.blk) = successor s

/-- A run executes the micro-program, exactly `66 * N + 7 + U` micro-operations, and `BUSY` stays 1 until the last
(spec/46_chain_sequencer.md R275). -/
def Obligations.RunExecutesTheMicroProgram : Prop :=
  ∀ (s : State) (m : List Byte), s.pending = [] → s.busy = true → s.upc = 0x40 → s.HoldsMessage m →
    lengthAdmitted s.msgCap s.len = true →
    let n := (s.len + 8) / 64 + 1
    let k := 66 * n + 7 + (if s.u then 1 else 0)
    codesExecuted k s = (microProgram n s.u).map encode ∧ (microProgram n s.u).length = k ∧
      (∀ j, j < k → ∃ t, runSteps j s = .next t ∧ t.busy = true) ∧
      (∃ t, runSteps k s = .next t ∧ t.busy = false)

/-! ## Commands and host accesses -/

/-- What a host write of the word `v` to `CTRL` does, the tests in the rule's order (spec/48_commands.md R300). -/
def Obligations.CommandAcceptanceInItsOrder : Prop :=
  ∀ (s : State) (v : Word),
    let l := s.lenHi.toNat * 2 ^ 32 + s.lenLo.toNat
    if v.toNat / 4 ≠ 0 then ∃ r, hostAccess (.writeReg 0x00 v) s = .refused r
    else if v.toNat % 2 = 0 then hostAccess (.writeReg 0x00 v) s = .next s
    else if s.busy = true then hostAccess (.writeReg 0x00 v) s = .next s
    else if s.lenLoSet = false ∨ s.lenHiSet = false ∨ (∃ c, s.msgCap = some c ∧ c < l) ∨ 2 ^ 61 ≤ l then
      ∃ r, hostAccess (.writeReg 0x00 v) s = .refused r
    else hostAccess (.writeReg 0x00 v) s =
      .next { s with u := v.getLsbD 1, done := false, busy := true, upc := 0x40 }

/-- `HASHL` and `HASHU` complete: accepted by an idle engine with a written and admitted length, ignored by a busy one
(spec/48_commands.md R301, R302). -/
def Obligations.HashCommandsComplete : Prop :=
  ∀ s : State,
    (s.busy = false → s.lenLoSet = true → s.lenHiSet = true → WithinCapacity s → s.len < 2 ^ 61 →
      exec .hashl s = .next { s with u := false, done := false, busy := true, upc := 0x40 } ∧
      exec .hashu s = .next { s with u := true, done := false, busy := true, upc := 0x40 }) ∧
    (s.busy = true → exec .hashl s = .next s ∧ exec .hashu s = .next s)

/-- A read of `STATUS` returns `BUSY` in bit 0, `DONE` in bit 1, zeros above, and has no side effect
(spec/48_commands.md R308). -/
def Obligations.StatusReadReturnsTheTwoFlags : Prop :=
  ∀ (s : State) (ms : List HostMove), HostTurn s (.readReg 0x04) ms →
    ∃ v : Word, step s = .next { s with pending := ms, answers := s.answers ++ [.word v] } ∧
      v.getLsbD 0 = s.busy ∧ v.getLsbD 1 = s.done ∧ ∀ n, 2 ≤ n → v.getLsbD n = false

/-- Writes of the halves of `LEN` store while `BUSY = 0` and are refused while `BUSY = 1`; reads return the stored value
at any time (spec/48_commands.md R309).
That a half never written since reset answers too, with the value it holds after reset, is the model's choice
(log 3, log 19). -/
def Obligations.LengthHalvesReadAndWrite : Prop :=
  ∀ (s : State) (v : Word) (ms : List HostMove),
    (HostTurn s (.writeReg 0x08 v) ms → step s =
      if s.busy then .refused .inputWhileBusy
      else .next { s with pending := ms, lenLo := v, lenLoSet := true }) ∧
    (HostTurn s (.writeReg 0x0C v) ms → step s =
      if s.busy then .refused .inputWhileBusy
      else .next { s with pending := ms, lenHi := v, lenHiSet := true }) ∧
    (HostTurn s (.readReg 0x08) ms → step s =
      .next { s with pending := ms, answers := s.answers ++ [.word s.lenLo] }) ∧
    (HostTurn s (.readReg 0x0C) ms → step s =
      .next { s with pending := ms, answers := s.answers ++ [.word s.lenHi] })

/-- `LEN = LEN_HI * 2^32 + LEN_LO`: written in either order by an idle host, it is the number of the two halves, and a run
keeps it (spec/10_state.md R48). -/
def Obligations.LengthIsTheTwoHalves : Prop :=
  (∀ s : State, s.len = s.lenHi.toNat * 2 ^ 32 + s.lenLo.toNat) ∧
  (∀ (s : State) (lo hi : Word), s.busy = false →
    (s.pending = [.access (.writeReg 0x08 lo), .access (.writeReg 0x0C hi)] ∨
     s.pending = [.access (.writeReg 0x0C hi), .access (.writeReg 0x08 lo)]) →
    ∃ t, runSteps 2 s = .next t ∧ t.len = hi.toNat * 2 ^ 32 + lo.toNat ∧ t.lenKnown = true) ∧
  (∀ (i : Instr) (s t : State), exec i s = .next t → t.len = s.len)

/-- Writes of `MSG[a]` store the byte while `BUSY = 0` and leave the other cells; they are refused while `BUSY = 1` and for
`a >= MSG_CAP`; a read of a written cell returns its byte and changes nothing (spec/48_commands.md R310). -/
def Obligations.MessageCellsReadAndWrite : Prop :=
  ∀ (s : State) (a : Nat) (b : Byte) (ms : List HostMove),
    (HostTurn s (.writeMsg a b) ms → s.busy = false → (∀ c, s.msgCap = some c → a < c) →
      ∃ g, step s = .next { s with pending := ms, msg := g } ∧ g.read a = some b ∧
        ∀ p, p ≠ a → g.read p = s.msg.read p) ∧
    (HostTurn s (.writeMsg a b) ms → s.busy = true → ∃ r, step s = .refused r) ∧
    (HostTurn s (.writeMsg a b) ms → (∃ c, s.msgCap = some c ∧ c ≤ a) → ∃ r, step s = .refused r) ∧
    (HostTurn s (.readMsg a) ms → (∀ c, s.msgCap = some c → a < c) → s.msg.read a = some b →
      step s = .next { s with pending := ms, answers := s.answers ++ [.byte b] })

/-- A read of `HEX[p]` returns the code written while `DONE = 1` and is refused while `DONE = 0`; an index above 31 and
every write are refused (spec/48_commands.md R311). -/
def Obligations.ResultCellsReadableOnlyWhenDone : Prop :=
  ∀ (s : State) (p : Nat) (b : Byte) (ms : List HostMove),
    (HostTurn s (.readHex p) ms → p < 32 → s.done = true → s.hex.read p = some b →
      step s = .next { s with pending := ms, answers := s.answers ++ [.byte b] }) ∧
    (HostTurn s (.readHex p) ms → s.done = false → ∃ r, step s = .refused r) ∧
    (HostTurn s (.readHex p) ms → 32 ≤ p → step s = .refused (.resultIndex p)) ∧
    (HostTurn s (.writeHex p b) ms → ∃ r, step s = .refused r)

/-- Reads of `CTRL` return 0, writes of `STATUS` and of every reserved offset are ignored, reads of a reserved offset are
refused (spec/10_state.md R45). -/
def Obligations.ReservedOffsetsAndFixedRegisters : Prop :=
  ∀ (s : State) (off : Nat) (v : Word) (ms : List HostMove),
    (HostTurn s (.readReg 0x00) ms →
      step s = .next { s with pending := ms, answers := s.answers ++ [.word 0x00000000] }) ∧
    (HostTurn s (.writeReg 0x04 v) ms → step s = .next { s with pending := ms }) ∧
    (off ≠ 0x00 → off ≠ 0x04 → off ≠ 0x08 → off ≠ 0x0C →
      (HostTurn s (.writeReg off v) ms → step s = .next { s with pending := ms }) ∧
      (HostTurn s (.readReg off) ms → step s = .refused (.reservedRegister off)))

/-- No read has a side effect: it changes nothing but the record of what it returned, and a repeated read returns the same.
Of the writes only one to `CTRL` does more than store: every other changes only `LEN` or `MSG`
(spec/20_memory.md R80; the record of answers is the model's own field, log 16). -/
def Obligations.HostReadsHaveNoSideEffect : Prop :=
  (∀ (s t : State) (a : HostAccess), hostAccess a s = .next t →
    (∃ off, a = .readReg off) ∨ (∃ n, a = .readMsg n) ∨ (∃ p, a = .readHex p) →
    ∃ x, t = { s with answers := s.answers ++ [x] } ∧
      hostAccess a t = .next { s with answers := s.answers ++ [x] ++ [x] }) ∧
  (∀ (s t : State) (off : Nat) (v : Word), off ≠ 0x00 → hostAccess (.writeReg off v) s = .next t →
    t = { s with lenLo := t.lenLo, lenHi := t.lenHi, lenLoSet := t.lenLoSet, lenHiSet := t.lenHiSet }) ∧
  (∀ (s t : State) (n : Nat) (b : Byte), hostAccess (.writeMsg n b) s = .next t → t = { s with msg := t.msg })

/-- While `BUSY = 1` a host access that is not refused leaves everything but the record of answers as it was, so that a run
is not disturbed: in particular a command is lost and `MSG` and `LEN` are stable
(spec/20_memory.md R79, spec/70_reset_and_hazards.md R361, R363). -/
def Obligations.HostAccessesDoNotDisturbARun : Prop :=
  ∀ (s t : State) (a : HostAccess), s.busy = true → hostAccess a s = .next t → t = { s with answers := t.answers }

/-- What each instruction leaves unchanged: the engine's columns of the access table (spec/10_state.md R56, R30, R32,
spec/20_memory.md R78).
Every register, flag and cell that the table does not let the instruction write is as before; the padder's writes to `W`
and the encoder's to `HEX` are in the cells the rules name. -/
def Obligations.EngineWritesOnlyWhatTheTableAllows : Prop :=
  ∀ (i : Instr) (s t : State), exec i s = .next t →
    (i = .pack ∨ i = .mark ∨ i = .zext ∨ i = .lenw ∨ i = .snap ∨ i = .encl ∨ i = .encu ∨ i = .fin ∨ i = .hashl ∨
      i = .hashu → t.regs = s.regs) ∧
    (i ≠ .snap → t.snap = s.snap) ∧
    (i ≠ .pack → i ≠ .mark → i ≠ .zext → i ≠ .lenw → t.w = s.w) ∧
    (i = .zext ∨ i = .lenw → ∀ j, j < s.w.length → t.w[j]? = s.w[j]?) ∧
    (i = .mark → ∀ j, j < s.w.length → j ≠ s.len / 4 → t.w[j]? = s.w[j]?) ∧
    (i ≠ .init → i ≠ .chain → t.blk = s.blk) ∧
    (i ≠ .fin → i ≠ .hashl → i ≠ .hashu → t.busy = s.busy ∧ t.done = s.done) ∧
    (i ≠ .hashl → i ≠ .hashu → t.u = s.u) ∧
    (i = .fin → t.upc = s.upc) ∧
    (t.lenLo = s.lenLo ∧ t.lenHi = s.lenHi ∧ t.lenLoSet = s.lenLoSet ∧ t.lenHiSet = s.lenHiSet) ∧
    (t.msgCap = s.msgCap ∧ t.resetCount = s.resetCount ∧ t.pending = s.pending ∧ t.answers = s.answers) ∧
    (∀ a, t.msg.read a = s.msg.read a) ∧
    (∀ p, ¬ ((i = .encl ∨ i = .encu) ∧ p < 32) → t.hex.read p = s.hex.read p)

/-- What a host access leaves unchanged: the host's columns of the access table (spec/10_state.md R56,
spec/60_exceptions.md R334). -/
def Obligations.HostWritesOnlyWhatTheTableAllows : Prop :=
  ∀ (a : HostAccess) (s t : State), hostAccess a s = .next t →
    t.regs = s.regs ∧ t.snap = s.snap ∧ t.w = s.w ∧ t.blk = s.blk ∧ (∀ p, t.hex.read p = s.hex.read p) ∧
    t.msgCap = s.msgCap ∧ t.resetCount = s.resetCount ∧ t.pending = s.pending ∧
    ((∀ v, a ≠ .writeReg 0x00 v) → t.upc = s.upc ∧ t.u = s.u ∧ t.busy = s.busy ∧ t.done = s.done) ∧
    ((∀ v, a ≠ .writeReg 0x08 v) → t.lenLo = s.lenLo ∧ t.lenLoSet = s.lenLoSet) ∧
    ((∀ v, a ≠ .writeReg 0x0C v) → t.lenHi = s.lenHi ∧ t.lenHiSet = s.lenHiSet) ∧
    (∀ n, (∀ b, a ≠ .writeMsg n b) → t.msg.read n = s.msg.read n)

/-! ## Memory and invariants -/

/-- Two memories in canonical form that read the same everywhere are the same data; so the order of writes to two cells
does not matter, and of two writes to one cell the later stands (spec/00_scope.md R15, spec/20_memory.md R84). -/
def Obligations.MemoryIsCanonical : Prop :=
  (∀ m n : Memory, m.wf → n.wf → (∀ a, m.read a = n.read a) → m = n) ∧
  (∀ (m : Memory) (a b : Nat) (x y : Byte), m.wf →
    (m.write a x).wf ∧ (a ≠ b → (m.write a x).write b y = (m.write b y).write a x) ∧
    (m.write a x).write a y = m.write a y)

/-- The invariant holds after reset (the reset values of `WLEN` and `UPC` are the model's choice, log 3). -/
def Obligations.InvariantHoldsAtReset : Prop := State.reset.Inv

/-- The invariant is kept by every step, whoever's turn it is (spec/10_state.md R61, R42, R39,
spec/40_padder.md R149, spec/20_memory.md R82, spec/47_encoder.md R296). -/
def Obligations.InvariantKeptByEveryStep : Prop := ∀ s t : State, s.Inv → step s = .next t → t.Inv

/-- In a state that meets the invariant the engine's turn never faults, and is refused only at `PACK` of a message byte
that nothing has written (spec/60_exceptions.md R320, R321, spec/41_core_entry.md R170). -/
def Obligations.EngineNeverFaultsUnderTheInvariant : Prop :=
  ∀ (s : State) (ms : List HostMove), s.Inv → EngineTurn s ms →
    (∃ t, step s = .next t ∧ t.Inv) ∨
    (step s = .refused .messageUnwritten ∧ s.busy = true ∧ s.upc = 0x40 ∧ ∃ j, j < s.len ∧ s.msg.read j = none)

/-! ## What a run computes -/

/-- A command written to an idle engine whose `LEN`, both halves written, and `MSG` hold a message starts a run that, after exactly
`66 * N + 7 + U` engine steps, ends with `BUSY = 0`, `DONE = 1` and the digest of the message in `HEX`, in the case of the
command; `MSG` and `LEN` are as before (spec/48_commands.md R306). -/
def Obligations.RunComputesTheDigest : Prop :=
  ∀ (s : State) (m : List Byte) (upper : Bool), s.pending = [.access (.writeReg 0x00 (commandWord upper))] →
    s.busy = false → s.lenLoSet = true → s.lenHiSet = true → s.HoldsMessage m → WithinCapacity s →
    s.len < 2 ^ 61 →
    ∃ t, runSteps (1 + (66 * ((s.len + 8) / 64 + 1) + 7 + (if upper then 1 else 0))) s = .next t ∧
      t.busy = false ∧ t.done = true ∧
      (∀ p, p < 32 → ∃ b, (if upper then digestUpper m else digestLower m)[p]? = some b ∧ t.hex.read p = some b) ∧
      (∀ a, t.msg.read a = s.msg.read a) ∧ t.len = s.len

/-- The host protocol for one digest as a list of moves in front of an idle block in any state, in every order of its
writes: the host reads `STATUS`, loads the bytes and the length, writes the command, the engine has its turns, and the host
reads `STATUS = 2` and then the 32 characters of the digest, in order (spec/48_commands.md R312, R304, R305,
spec/20_memory.md R85). -/
def Obligations.HostProtocolReturnsTheDigest : Prop :=
  ∀ (s : State) (m : List Byte) (o : ProtocolOrder) (upper : Bool), s.busy = false →
    m.length < 2 ^ 61 → (∀ c, s.msgCap = some c → m.length ≤ c) →
    s.pending = hostProtocol o upper m (66 * ((m.length + 8) / 64 + 1) + 7 + (if upper then 1 else 0)) →
    ∃ t, runSteps s.pending.length s = .next t ∧ t.pending = [] ∧
      t.answers = s.answers ++ [.word (if s.done then 0x00000002 else 0x00000000)] ++ [.word 0x00000002] ++
        (if upper then digestUpper m else digestLower m).map HostAnswer.byte

/-- The host protocol for one digest, played by a host that waits for `BUSY = 0`, encodes its string, writes, polls until
`DONE = 1` and reads (spec/48_commands.md R312, spec/40_padder.md R140).
Whatever the order of its writes and whatever the order in which host and engine take their turns, also when it comes upon
a run in progress, no turn ever stops, and a host that has finished has read the digest of its string, and reads it again
whenever it likes; and from an idle block it does finish. -/
def Obligations.HostProtocolUnderEverySchedule : Prop :=
  ∀ (text : List Nat) (m : List Byte) (o : ProtocolOrder) (upper : Bool) (c : Client) (s : State),
    submit o upper text = some c → utf8String text = some m → m.length < 2 ^ 61 →
    (∀ n, s.msgCap = some n → m.length ≤ n) →
    (s.busy = true → s.Inv ∧ ∀ j, j < s.len → ∃ b, s.msg.read j = some b) →
    (∀ turns, ∃ d t, play turns c s = .next (d, t) ∧
      (d.phase = .finished → d.result = (if upper then digestUpper m else digestLower m) ∧
        ∀ again, ∃ e r, play again (readAgain d) t = .next (e, r) ∧
          (e.phase = .finished → e.result = if upper then digestUpper m else digestLower m))) ∧
    (s.busy = false → ∃ d t,
      play (List.replicate (m.length + 4) .client ++
        List.replicate (66 * ((m.length + 8) / 64 + 1) + 7 + (if upper then 1 else 0)) .engine ++
        List.replicate 33 .client) c s = .next (d, t) ∧ d.phase = .finished)

/-- Nothing of the state before a command reaches its result but `LEN` and `MSG[0..L-1]`: two states that agree on these,
whatever their registers, buffer, `BLK`, `HEX` and other `MSG` cells hold, run alike for every number of steps up to the
end, and end with the same result (spec/10_state.md R59, R60). -/
def Obligations.InternalStateDoesNotReachTheResult : Prop :=
  ∀ s q : State, s.pending = [] → q.pending = [] → s.busy = true → q.busy = true → s.upc = 0x40 → q.upc = 0x40 →
    s.u = q.u → s.lenLo = q.lenLo → s.lenHi = q.lenHi → s.msgCap = q.msgCap →
    lengthAdmitted s.msgCap s.len = true → (∀ j, j < s.len → s.msg.read j = q.msg.read j) →
    let k := 66 * ((s.len + 8) / 64 + 1) + 7 + (if s.u then 1 else 0)
    (∃ t r, runSteps k s = .next t ∧ runSteps k q = .next r ∧ t.busy = r.busy ∧ t.done = true ∧
      r.done = true ∧ ∀ p, p < 32 → t.hex.read p = r.hex.read p) ∨
    (runSteps k s = .refused .messageUnwritten ∧ runSteps k q = .refused .messageUnwritten)

/-- The digest is 32 characters of the lowercase alphabet, and the uppercase digest is the same string in capitals, of the
uppercase alphabet, for every message (spec/48_commands.md R305, R307, spec/47_encoder.md R296). -/
def Obligations.DigestIsHexInBothCases : Prop :=
  ∀ m : List Byte, (digestLower m).length = 32 ∧ (∀ c ∈ digestLower m, lowerHexDigit c = true) ∧
    digestUpper m = (digestLower m).map asciiUpper ∧ (∀ c ∈ digestUpper m, upperHexDigit c = true)

/-- Known digests: the empty message and "abc" (spec/95_test_vectors.md S1, S3). -/
def Obligations.KnownDigests : Prop :=
  digestLower [] =
    [0x64, 0x34, 0x31, 0x64, 0x38, 0x63, 0x64, 0x39, 0x38, 0x66, 0x30, 0x30, 0x62, 0x32, 0x30, 0x34,
     0x65, 0x39, 0x38, 0x30, 0x30, 0x39, 0x39, 0x38, 0x65, 0x63, 0x66, 0x38, 0x34, 0x32, 0x37, 0x65] ∧
  digestUpper [0x61, 0x62, 0x63] =
    [0x39, 0x30, 0x30, 0x31, 0x35, 0x30, 0x39, 0x38, 0x33, 0x43, 0x44, 0x32, 0x34, 0x46, 0x42, 0x30,
     0x44, 0x36, 0x39, 0x36, 0x33, 0x46, 0x37, 0x44, 0x32, 0x38, 0x45, 0x31, 0x37, 0x46, 0x37, 0x32]
end

