-- ==== Sys2Proof/Laws/Core.lean ====
section
/-! SUPPORT. The compression core as a function, where the spec defines it. -/

namespace Sys2Proof.Machine

theorem getElem_blockWord {x : List Word} (h : x.length = 16) (k : Fin 16) : x[k.val]? = some (blockWord x k) := by
  have hk : k.val < x.length := by rw [h]; exact k.isLt
  rw [blockWord, if_pos h, List.getD_eq_getElem?_getD, List.getElem?_eq_getElem hk]
  rfl

theorem blockWord_of_getElem {x : List Word} {k : Fin 16} {v : Word} (h : x.length = 16) (hv : x[k.val]? = some v) :
    blockWord x k = v :=
  Option.some.inj ((getElem_blockWord h k).symm.trans hv)

/-- A positive number of whole blocks. -/
theorem compress_of_blocks {w : List Word} {n : Nat} (hn : 0 < n) (h : w.length = 16 * n) :
    compress w = compressBlocks n ivRegs w := by
  have hw : 0 < w.length ∧ w.length % 16 = 0 := ⟨by omega, by omega⟩
  rw [compress, if_pos hw, h, Nat.mul_div_cancel_left n (by decide)]

end Sys2Proof.Machine
end

