-- ==== Sys2Proof/Laws/State.lean ====
section
/-! SUPPORT. What each named update of the state does to each field: one lemma per field per update. -/

namespace Sys2Proof.Machine

variable (s : State)

@[simp] theorem State.withRegs_regs (r : Regs) : (s.withRegs r).regs = r := rfl
@[simp] theorem State.withRegs_snap (r : Regs) : (s.withRegs r).snap = s.snap := rfl
@[simp] theorem State.withRegs_w (r : Regs) : (s.withRegs r).w = s.w := rfl
@[simp] theorem State.withRegs_upc (r : Regs) : (s.withRegs r).upc = s.upc := rfl
@[simp] theorem State.withRegs_blk (r : Regs) : (s.withRegs r).blk = s.blk := rfl
@[simp] theorem State.withRegs_busy (r : Regs) : (s.withRegs r).busy = s.busy := rfl
@[simp] theorem State.withRegs_done (r : Regs) : (s.withRegs r).done = s.done := rfl
@[simp] theorem State.withRegs_u (r : Regs) : (s.withRegs r).u = s.u := rfl
@[simp] theorem State.withRegs_lenLo (r : Regs) : (s.withRegs r).lenLo = s.lenLo := rfl
@[simp] theorem State.withRegs_lenHi (r : Regs) : (s.withRegs r).lenHi = s.lenHi := rfl
@[simp] theorem State.withRegs_lenLoSet (r : Regs) : (s.withRegs r).lenLoSet = s.lenLoSet := rfl
@[simp] theorem State.withRegs_lenHiSet (r : Regs) : (s.withRegs r).lenHiSet = s.lenHiSet := rfl
@[simp] theorem State.withRegs_msg (r : Regs) : (s.withRegs r).msg = s.msg := rfl
@[simp] theorem State.withRegs_hex (r : Regs) : (s.withRegs r).hex = s.hex := rfl
@[simp] theorem State.withRegs_msgCap (r : Regs) : (s.withRegs r).msgCap = s.msgCap := rfl
@[simp] theorem State.withRegs_resetCount (r : Regs) : (s.withRegs r).resetCount = s.resetCount := rfl
@[simp] theorem State.withRegs_pending (r : Regs) : (s.withRegs r).pending = s.pending := rfl
@[simp] theorem State.withRegs_answers (r : Regs) : (s.withRegs r).answers = s.answers := rfl

@[simp] theorem State.withSnap_regs (r : Regs) : (s.withSnap r).regs = s.regs := rfl
@[simp] theorem State.withSnap_snap (r : Regs) : (s.withSnap r).snap = r := rfl
@[simp] theorem State.withSnap_w (r : Regs) : (s.withSnap r).w = s.w := rfl
@[simp] theorem State.withSnap_upc (r : Regs) : (s.withSnap r).upc = s.upc := rfl
@[simp] theorem State.withSnap_blk (r : Regs) : (s.withSnap r).blk = s.blk := rfl
@[simp] theorem State.withSnap_busy (r : Regs) : (s.withSnap r).busy = s.busy := rfl
@[simp] theorem State.withSnap_done (r : Regs) : (s.withSnap r).done = s.done := rfl
@[simp] theorem State.withSnap_u (r : Regs) : (s.withSnap r).u = s.u := rfl
@[simp] theorem State.withSnap_lenLo (r : Regs) : (s.withSnap r).lenLo = s.lenLo := rfl
@[simp] theorem State.withSnap_lenHi (r : Regs) : (s.withSnap r).lenHi = s.lenHi := rfl
@[simp] theorem State.withSnap_lenLoSet (r : Regs) : (s.withSnap r).lenLoSet = s.lenLoSet := rfl
@[simp] theorem State.withSnap_lenHiSet (r : Regs) : (s.withSnap r).lenHiSet = s.lenHiSet := rfl
@[simp] theorem State.withSnap_msg (r : Regs) : (s.withSnap r).msg = s.msg := rfl
@[simp] theorem State.withSnap_hex (r : Regs) : (s.withSnap r).hex = s.hex := rfl
@[simp] theorem State.withSnap_msgCap (r : Regs) : (s.withSnap r).msgCap = s.msgCap := rfl
@[simp] theorem State.withSnap_resetCount (r : Regs) : (s.withSnap r).resetCount = s.resetCount := rfl
@[simp] theorem State.withSnap_pending (r : Regs) : (s.withSnap r).pending = s.pending := rfl
@[simp] theorem State.withSnap_answers (r : Regs) : (s.withSnap r).answers = s.answers := rfl

@[simp] theorem State.withW_regs (w : List Word) : (s.withW w).regs = s.regs := rfl
@[simp] theorem State.withW_snap (w : List Word) : (s.withW w).snap = s.snap := rfl
@[simp] theorem State.withW_w (w : List Word) : (s.withW w).w = w := rfl
@[simp] theorem State.withW_upc (w : List Word) : (s.withW w).upc = s.upc := rfl
@[simp] theorem State.withW_blk (w : List Word) : (s.withW w).blk = s.blk := rfl
@[simp] theorem State.withW_busy (w : List Word) : (s.withW w).busy = s.busy := rfl
@[simp] theorem State.withW_done (w : List Word) : (s.withW w).done = s.done := rfl
@[simp] theorem State.withW_u (w : List Word) : (s.withW w).u = s.u := rfl
@[simp] theorem State.withW_lenLo (w : List Word) : (s.withW w).lenLo = s.lenLo := rfl
@[simp] theorem State.withW_lenHi (w : List Word) : (s.withW w).lenHi = s.lenHi := rfl
@[simp] theorem State.withW_lenLoSet (w : List Word) : (s.withW w).lenLoSet = s.lenLoSet := rfl
@[simp] theorem State.withW_lenHiSet (w : List Word) : (s.withW w).lenHiSet = s.lenHiSet := rfl
@[simp] theorem State.withW_msg (w : List Word) : (s.withW w).msg = s.msg := rfl
@[simp] theorem State.withW_hex (w : List Word) : (s.withW w).hex = s.hex := rfl
@[simp] theorem State.withW_msgCap (w : List Word) : (s.withW w).msgCap = s.msgCap := rfl
@[simp] theorem State.withW_resetCount (w : List Word) : (s.withW w).resetCount = s.resetCount := rfl
@[simp] theorem State.withW_pending (w : List Word) : (s.withW w).pending = s.pending := rfl
@[simp] theorem State.withW_answers (w : List Word) : (s.withW w).answers = s.answers := rfl

@[simp] theorem State.withUpc_regs (c : BitVec 8) : (s.withUpc c).regs = s.regs := rfl
@[simp] theorem State.withUpc_snap (c : BitVec 8) : (s.withUpc c).snap = s.snap := rfl
@[simp] theorem State.withUpc_w (c : BitVec 8) : (s.withUpc c).w = s.w := rfl
@[simp] theorem State.withUpc_upc (c : BitVec 8) : (s.withUpc c).upc = c := rfl
@[simp] theorem State.withUpc_blk (c : BitVec 8) : (s.withUpc c).blk = s.blk := rfl
@[simp] theorem State.withUpc_busy (c : BitVec 8) : (s.withUpc c).busy = s.busy := rfl
@[simp] theorem State.withUpc_done (c : BitVec 8) : (s.withUpc c).done = s.done := rfl
@[simp] theorem State.withUpc_u (c : BitVec 8) : (s.withUpc c).u = s.u := rfl
@[simp] theorem State.withUpc_lenLo (c : BitVec 8) : (s.withUpc c).lenLo = s.lenLo := rfl
@[simp] theorem State.withUpc_lenHi (c : BitVec 8) : (s.withUpc c).lenHi = s.lenHi := rfl
@[simp] theorem State.withUpc_lenLoSet (c : BitVec 8) : (s.withUpc c).lenLoSet = s.lenLoSet := rfl
@[simp] theorem State.withUpc_lenHiSet (c : BitVec 8) : (s.withUpc c).lenHiSet = s.lenHiSet := rfl
@[simp] theorem State.withUpc_msg (c : BitVec 8) : (s.withUpc c).msg = s.msg := rfl
@[simp] theorem State.withUpc_hex (c : BitVec 8) : (s.withUpc c).hex = s.hex := rfl
@[simp] theorem State.withUpc_msgCap (c : BitVec 8) : (s.withUpc c).msgCap = s.msgCap := rfl
@[simp] theorem State.withUpc_resetCount (c : BitVec 8) : (s.withUpc c).resetCount = s.resetCount := rfl
@[simp] theorem State.withUpc_pending (c : BitVec 8) : (s.withUpc c).pending = s.pending := rfl
@[simp] theorem State.withUpc_answers (c : BitVec 8) : (s.withUpc c).answers = s.answers := rfl

@[simp] theorem State.withBlk_regs (q : Nat) : (s.withBlk q).regs = s.regs := rfl
@[simp] theorem State.withBlk_snap (q : Nat) : (s.withBlk q).snap = s.snap := rfl
@[simp] theorem State.withBlk_w (q : Nat) : (s.withBlk q).w = s.w := rfl
@[simp] theorem State.withBlk_upc (q : Nat) : (s.withBlk q).upc = s.upc := rfl
@[simp] theorem State.withBlk_blk (q : Nat) : (s.withBlk q).blk = q := rfl
@[simp] theorem State.withBlk_busy (q : Nat) : (s.withBlk q).busy = s.busy := rfl
@[simp] theorem State.withBlk_done (q : Nat) : (s.withBlk q).done = s.done := rfl
@[simp] theorem State.withBlk_u (q : Nat) : (s.withBlk q).u = s.u := rfl
@[simp] theorem State.withBlk_lenLo (q : Nat) : (s.withBlk q).lenLo = s.lenLo := rfl
@[simp] theorem State.withBlk_lenHi (q : Nat) : (s.withBlk q).lenHi = s.lenHi := rfl
@[simp] theorem State.withBlk_lenLoSet (q : Nat) : (s.withBlk q).lenLoSet = s.lenLoSet := rfl
@[simp] theorem State.withBlk_lenHiSet (q : Nat) : (s.withBlk q).lenHiSet = s.lenHiSet := rfl
@[simp] theorem State.withBlk_msg (q : Nat) : (s.withBlk q).msg = s.msg := rfl
@[simp] theorem State.withBlk_hex (q : Nat) : (s.withBlk q).hex = s.hex := rfl
@[simp] theorem State.withBlk_msgCap (q : Nat) : (s.withBlk q).msgCap = s.msgCap := rfl
@[simp] theorem State.withBlk_resetCount (q : Nat) : (s.withBlk q).resetCount = s.resetCount := rfl
@[simp] theorem State.withBlk_pending (q : Nat) : (s.withBlk q).pending = s.pending := rfl
@[simp] theorem State.withBlk_answers (q : Nat) : (s.withBlk q).answers = s.answers := rfl

@[simp] theorem State.withHex_regs (m : Memory) : (s.withHex m).regs = s.regs := rfl
@[simp] theorem State.withHex_snap (m : Memory) : (s.withHex m).snap = s.snap := rfl
@[simp] theorem State.withHex_w (m : Memory) : (s.withHex m).w = s.w := rfl
@[simp] theorem State.withHex_upc (m : Memory) : (s.withHex m).upc = s.upc := rfl
@[simp] theorem State.withHex_blk (m : Memory) : (s.withHex m).blk = s.blk := rfl
@[simp] theorem State.withHex_busy (m : Memory) : (s.withHex m).busy = s.busy := rfl
@[simp] theorem State.withHex_done (m : Memory) : (s.withHex m).done = s.done := rfl
@[simp] theorem State.withHex_u (m : Memory) : (s.withHex m).u = s.u := rfl
@[simp] theorem State.withHex_lenLo (m : Memory) : (s.withHex m).lenLo = s.lenLo := rfl
@[simp] theorem State.withHex_lenHi (m : Memory) : (s.withHex m).lenHi = s.lenHi := rfl
@[simp] theorem State.withHex_lenLoSet (m : Memory) : (s.withHex m).lenLoSet = s.lenLoSet := rfl
@[simp] theorem State.withHex_lenHiSet (m : Memory) : (s.withHex m).lenHiSet = s.lenHiSet := rfl
@[simp] theorem State.withHex_msg (m : Memory) : (s.withHex m).msg = s.msg := rfl
@[simp] theorem State.withHex_hex (m : Memory) : (s.withHex m).hex = m := rfl
@[simp] theorem State.withHex_msgCap (m : Memory) : (s.withHex m).msgCap = s.msgCap := rfl
@[simp] theorem State.withHex_resetCount (m : Memory) : (s.withHex m).resetCount = s.resetCount := rfl
@[simp] theorem State.withHex_pending (m : Memory) : (s.withHex m).pending = s.pending := rfl
@[simp] theorem State.withHex_answers (m : Memory) : (s.withHex m).answers = s.answers := rfl

@[simp] theorem State.withMsg_regs (m : Memory) : (s.withMsg m).regs = s.regs := rfl
@[simp] theorem State.withMsg_snap (m : Memory) : (s.withMsg m).snap = s.snap := rfl
@[simp] theorem State.withMsg_w (m : Memory) : (s.withMsg m).w = s.w := rfl
@[simp] theorem State.withMsg_upc (m : Memory) : (s.withMsg m).upc = s.upc := rfl
@[simp] theorem State.withMsg_blk (m : Memory) : (s.withMsg m).blk = s.blk := rfl
@[simp] theorem State.withMsg_busy (m : Memory) : (s.withMsg m).busy = s.busy := rfl
@[simp] theorem State.withMsg_done (m : Memory) : (s.withMsg m).done = s.done := rfl
@[simp] theorem State.withMsg_u (m : Memory) : (s.withMsg m).u = s.u := rfl
@[simp] theorem State.withMsg_lenLo (m : Memory) : (s.withMsg m).lenLo = s.lenLo := rfl
@[simp] theorem State.withMsg_lenHi (m : Memory) : (s.withMsg m).lenHi = s.lenHi := rfl
@[simp] theorem State.withMsg_lenLoSet (m : Memory) : (s.withMsg m).lenLoSet = s.lenLoSet := rfl
@[simp] theorem State.withMsg_lenHiSet (m : Memory) : (s.withMsg m).lenHiSet = s.lenHiSet := rfl
@[simp] theorem State.withMsg_msg (m : Memory) : (s.withMsg m).msg = m := rfl
@[simp] theorem State.withMsg_hex (m : Memory) : (s.withMsg m).hex = s.hex := rfl
@[simp] theorem State.withMsg_msgCap (m : Memory) : (s.withMsg m).msgCap = s.msgCap := rfl
@[simp] theorem State.withMsg_resetCount (m : Memory) : (s.withMsg m).resetCount = s.resetCount := rfl
@[simp] theorem State.withMsg_pending (m : Memory) : (s.withMsg m).pending = s.pending := rfl
@[simp] theorem State.withMsg_answers (m : Memory) : (s.withMsg m).answers = s.answers := rfl

@[simp] theorem State.withLenLo_regs (v : Word) : (s.withLenLo v).regs = s.regs := rfl
@[simp] theorem State.withLenLo_snap (v : Word) : (s.withLenLo v).snap = s.snap := rfl
@[simp] theorem State.withLenLo_w (v : Word) : (s.withLenLo v).w = s.w := rfl
@[simp] theorem State.withLenLo_upc (v : Word) : (s.withLenLo v).upc = s.upc := rfl
@[simp] theorem State.withLenLo_blk (v : Word) : (s.withLenLo v).blk = s.blk := rfl
@[simp] theorem State.withLenLo_busy (v : Word) : (s.withLenLo v).busy = s.busy := rfl
@[simp] theorem State.withLenLo_done (v : Word) : (s.withLenLo v).done = s.done := rfl
@[simp] theorem State.withLenLo_u (v : Word) : (s.withLenLo v).u = s.u := rfl
@[simp] theorem State.withLenLo_lenLo (v : Word) : (s.withLenLo v).lenLo = v := rfl
@[simp] theorem State.withLenLo_lenHi (v : Word) : (s.withLenLo v).lenHi = s.lenHi := rfl
@[simp] theorem State.withLenLo_lenLoSet (v : Word) : (s.withLenLo v).lenLoSet = true := rfl
@[simp] theorem State.withLenLo_lenHiSet (v : Word) : (s.withLenLo v).lenHiSet = s.lenHiSet := rfl
@[simp] theorem State.withLenLo_msg (v : Word) : (s.withLenLo v).msg = s.msg := rfl
@[simp] theorem State.withLenLo_hex (v : Word) : (s.withLenLo v).hex = s.hex := rfl
@[simp] theorem State.withLenLo_msgCap (v : Word) : (s.withLenLo v).msgCap = s.msgCap := rfl
@[simp] theorem State.withLenLo_resetCount (v : Word) : (s.withLenLo v).resetCount = s.resetCount := rfl
@[simp] theorem State.withLenLo_pending (v : Word) : (s.withLenLo v).pending = s.pending := rfl
@[simp] theorem State.withLenLo_answers (v : Word) : (s.withLenLo v).answers = s.answers := rfl

@[simp] theorem State.withLenHi_regs (v : Word) : (s.withLenHi v).regs = s.regs := rfl
@[simp] theorem State.withLenHi_snap (v : Word) : (s.withLenHi v).snap = s.snap := rfl
@[simp] theorem State.withLenHi_w (v : Word) : (s.withLenHi v).w = s.w := rfl
@[simp] theorem State.withLenHi_upc (v : Word) : (s.withLenHi v).upc = s.upc := rfl
@[simp] theorem State.withLenHi_blk (v : Word) : (s.withLenHi v).blk = s.blk := rfl
@[simp] theorem State.withLenHi_busy (v : Word) : (s.withLenHi v).busy = s.busy := rfl
@[simp] theorem State.withLenHi_done (v : Word) : (s.withLenHi v).done = s.done := rfl
@[simp] theorem State.withLenHi_u (v : Word) : (s.withLenHi v).u = s.u := rfl
@[simp] theorem State.withLenHi_lenLo (v : Word) : (s.withLenHi v).lenLo = s.lenLo := rfl
@[simp] theorem State.withLenHi_lenHi (v : Word) : (s.withLenHi v).lenHi = v := rfl
@[simp] theorem State.withLenHi_lenLoSet (v : Word) : (s.withLenHi v).lenLoSet = s.lenLoSet := rfl
@[simp] theorem State.withLenHi_lenHiSet (v : Word) : (s.withLenHi v).lenHiSet = true := rfl
@[simp] theorem State.withLenHi_msg (v : Word) : (s.withLenHi v).msg = s.msg := rfl
@[simp] theorem State.withLenHi_hex (v : Word) : (s.withLenHi v).hex = s.hex := rfl
@[simp] theorem State.withLenHi_msgCap (v : Word) : (s.withLenHi v).msgCap = s.msgCap := rfl
@[simp] theorem State.withLenHi_resetCount (v : Word) : (s.withLenHi v).resetCount = s.resetCount := rfl
@[simp] theorem State.withLenHi_pending (v : Word) : (s.withLenHi v).pending = s.pending := rfl
@[simp] theorem State.withLenHi_answers (v : Word) : (s.withLenHi v).answers = s.answers := rfl

@[simp] theorem State.withPending_regs (ms : List HostMove) : (s.withPending ms).regs = s.regs := rfl
@[simp] theorem State.withPending_snap (ms : List HostMove) : (s.withPending ms).snap = s.snap := rfl
@[simp] theorem State.withPending_w (ms : List HostMove) : (s.withPending ms).w = s.w := rfl
@[simp] theorem State.withPending_upc (ms : List HostMove) : (s.withPending ms).upc = s.upc := rfl
@[simp] theorem State.withPending_blk (ms : List HostMove) : (s.withPending ms).blk = s.blk := rfl
@[simp] theorem State.withPending_busy (ms : List HostMove) : (s.withPending ms).busy = s.busy := rfl
@[simp] theorem State.withPending_done (ms : List HostMove) : (s.withPending ms).done = s.done := rfl
@[simp] theorem State.withPending_u (ms : List HostMove) : (s.withPending ms).u = s.u := rfl
@[simp] theorem State.withPending_lenLo (ms : List HostMove) : (s.withPending ms).lenLo = s.lenLo := rfl
@[simp] theorem State.withPending_lenHi (ms : List HostMove) : (s.withPending ms).lenHi = s.lenHi := rfl
@[simp] theorem State.withPending_lenLoSet (ms : List HostMove) : (s.withPending ms).lenLoSet = s.lenLoSet := rfl
@[simp] theorem State.withPending_lenHiSet (ms : List HostMove) : (s.withPending ms).lenHiSet = s.lenHiSet := rfl
@[simp] theorem State.withPending_msg (ms : List HostMove) : (s.withPending ms).msg = s.msg := rfl
@[simp] theorem State.withPending_hex (ms : List HostMove) : (s.withPending ms).hex = s.hex := rfl
@[simp] theorem State.withPending_msgCap (ms : List HostMove) : (s.withPending ms).msgCap = s.msgCap := rfl
@[simp] theorem State.withPending_resetCount (ms : List HostMove) : (s.withPending ms).resetCount = s.resetCount := rfl
@[simp] theorem State.withPending_pending (ms : List HostMove) : (s.withPending ms).pending = ms := rfl
@[simp] theorem State.withPending_answers (ms : List HostMove) : (s.withPending ms).answers = s.answers := rfl

@[simp] theorem State.hear_regs (x : HostAnswer) : (s.hear x).regs = s.regs := rfl
@[simp] theorem State.hear_snap (x : HostAnswer) : (s.hear x).snap = s.snap := rfl
@[simp] theorem State.hear_w (x : HostAnswer) : (s.hear x).w = s.w := rfl
@[simp] theorem State.hear_upc (x : HostAnswer) : (s.hear x).upc = s.upc := rfl
@[simp] theorem State.hear_blk (x : HostAnswer) : (s.hear x).blk = s.blk := rfl
@[simp] theorem State.hear_busy (x : HostAnswer) : (s.hear x).busy = s.busy := rfl
@[simp] theorem State.hear_done (x : HostAnswer) : (s.hear x).done = s.done := rfl
@[simp] theorem State.hear_u (x : HostAnswer) : (s.hear x).u = s.u := rfl
@[simp] theorem State.hear_lenLo (x : HostAnswer) : (s.hear x).lenLo = s.lenLo := rfl
@[simp] theorem State.hear_lenHi (x : HostAnswer) : (s.hear x).lenHi = s.lenHi := rfl
@[simp] theorem State.hear_lenLoSet (x : HostAnswer) : (s.hear x).lenLoSet = s.lenLoSet := rfl
@[simp] theorem State.hear_lenHiSet (x : HostAnswer) : (s.hear x).lenHiSet = s.lenHiSet := rfl
@[simp] theorem State.hear_msg (x : HostAnswer) : (s.hear x).msg = s.msg := rfl
@[simp] theorem State.hear_hex (x : HostAnswer) : (s.hear x).hex = s.hex := rfl
@[simp] theorem State.hear_msgCap (x : HostAnswer) : (s.hear x).msgCap = s.msgCap := rfl
@[simp] theorem State.hear_resetCount (x : HostAnswer) : (s.hear x).resetCount = s.resetCount := rfl
@[simp] theorem State.hear_pending (x : HostAnswer) : (s.hear x).pending = s.pending := rfl
@[simp] theorem State.hear_answers (x : HostAnswer) : (s.hear x).answers = s.answers ++ [x] := rfl

@[simp] theorem State.accepted_regs (b : Bool) : (s.accepted b).regs = s.regs := rfl
@[simp] theorem State.accepted_snap (b : Bool) : (s.accepted b).snap = s.snap := rfl
@[simp] theorem State.accepted_w (b : Bool) : (s.accepted b).w = s.w := rfl
@[simp] theorem State.accepted_upc (b : Bool) : (s.accepted b).upc = 0x40 := rfl
@[simp] theorem State.accepted_blk (b : Bool) : (s.accepted b).blk = s.blk := rfl
@[simp] theorem State.accepted_busy (b : Bool) : (s.accepted b).busy = true := rfl
@[simp] theorem State.accepted_done (b : Bool) : (s.accepted b).done = false := rfl
@[simp] theorem State.accepted_u (b : Bool) : (s.accepted b).u = b := rfl
@[simp] theorem State.accepted_lenLo (b : Bool) : (s.accepted b).lenLo = s.lenLo := rfl
@[simp] theorem State.accepted_lenHi (b : Bool) : (s.accepted b).lenHi = s.lenHi := rfl
@[simp] theorem State.accepted_lenLoSet (b : Bool) : (s.accepted b).lenLoSet = s.lenLoSet := rfl
@[simp] theorem State.accepted_lenHiSet (b : Bool) : (s.accepted b).lenHiSet = s.lenHiSet := rfl
@[simp] theorem State.accepted_msg (b : Bool) : (s.accepted b).msg = s.msg := rfl
@[simp] theorem State.accepted_hex (b : Bool) : (s.accepted b).hex = s.hex := rfl
@[simp] theorem State.accepted_msgCap (b : Bool) : (s.accepted b).msgCap = s.msgCap := rfl
@[simp] theorem State.accepted_resetCount (b : Bool) : (s.accepted b).resetCount = s.resetCount := rfl
@[simp] theorem State.accepted_pending (b : Bool) : (s.accepted b).pending = s.pending := rfl
@[simp] theorem State.accepted_answers (b : Bool) : (s.accepted b).answers = s.answers := rfl

@[simp] theorem State.finished_regs : (s.finished).regs = s.regs := rfl
@[simp] theorem State.finished_snap : (s.finished).snap = s.snap := rfl
@[simp] theorem State.finished_w : (s.finished).w = s.w := rfl
@[simp] theorem State.finished_upc : (s.finished).upc = s.upc := rfl
@[simp] theorem State.finished_blk : (s.finished).blk = s.blk := rfl
@[simp] theorem State.finished_busy : (s.finished).busy = false := rfl
@[simp] theorem State.finished_done : (s.finished).done = true := rfl
@[simp] theorem State.finished_u : (s.finished).u = s.u := rfl
@[simp] theorem State.finished_lenLo : (s.finished).lenLo = s.lenLo := rfl
@[simp] theorem State.finished_lenHi : (s.finished).lenHi = s.lenHi := rfl
@[simp] theorem State.finished_lenLoSet : (s.finished).lenLoSet = s.lenLoSet := rfl
@[simp] theorem State.finished_lenHiSet : (s.finished).lenHiSet = s.lenHiSet := rfl
@[simp] theorem State.finished_msg : (s.finished).msg = s.msg := rfl
@[simp] theorem State.finished_hex : (s.finished).hex = s.hex := rfl
@[simp] theorem State.finished_msgCap : (s.finished).msgCap = s.msgCap := rfl
@[simp] theorem State.finished_resetCount : (s.finished).resetCount = s.resetCount := rfl
@[simp] theorem State.finished_pending : (s.finished).pending = s.pending := rfl
@[simp] theorem State.finished_answers : (s.finished).answers = s.answers := rfl

@[simp] theorem State.resetEvent_regs : s.resetEvent.regs = State.reset.regs := rfl
@[simp] theorem State.resetEvent_snap : s.resetEvent.snap = State.reset.snap := rfl
@[simp] theorem State.resetEvent_w : s.resetEvent.w = State.reset.w := rfl
@[simp] theorem State.resetEvent_upc : s.resetEvent.upc = State.reset.upc := rfl
@[simp] theorem State.resetEvent_blk : s.resetEvent.blk = State.reset.blk := rfl
@[simp] theorem State.resetEvent_busy : s.resetEvent.busy = State.reset.busy := rfl
@[simp] theorem State.resetEvent_done : s.resetEvent.done = State.reset.done := rfl
@[simp] theorem State.resetEvent_u : s.resetEvent.u = State.reset.u := rfl
@[simp] theorem State.resetEvent_lenLo : s.resetEvent.lenLo = State.reset.lenLo := rfl
@[simp] theorem State.resetEvent_lenHi : s.resetEvent.lenHi = State.reset.lenHi := rfl
@[simp] theorem State.resetEvent_lenLoSet : s.resetEvent.lenLoSet = State.reset.lenLoSet := rfl
@[simp] theorem State.resetEvent_lenHiSet : s.resetEvent.lenHiSet = State.reset.lenHiSet := rfl
@[simp] theorem State.resetEvent_msg : s.resetEvent.msg = State.reset.msg := rfl
@[simp] theorem State.resetEvent_hex : s.resetEvent.hex = State.reset.hex := rfl
@[simp] theorem State.resetEvent_msgCap : s.resetEvent.msgCap = s.msgCap := rfl
@[simp] theorem State.resetEvent_resetCount : s.resetEvent.resetCount = s.resetCount + 1 := rfl
@[simp] theorem State.resetEvent_pending : s.resetEvent.pending = s.pending := rfl
@[simp] theorem State.resetEvent_answers : s.resetEvent.answers = s.answers := rfl

/-! ## The views computed from the fields -/

@[simp] theorem State.withRegs_lenBits (r : Regs) : (s.withRegs r).lenBits = s.lenBits := rfl
@[simp] theorem State.withRegs_len (r : Regs) : (s.withRegs r).len = s.len := rfl
@[simp] theorem State.withRegs_lenKnown (r : Regs) : (s.withRegs r).lenKnown = s.lenKnown := rfl
@[simp] theorem State.withRegs_wlen (r : Regs) : (s.withRegs r).wlen = s.wlen := rfl
@[simp] theorem State.withRegs_blockCount (r : Regs) : (s.withRegs r).blockCount = s.blockCount := rfl
@[simp] theorem State.withRegs_wCap (r : Regs) : (s.withRegs r).wCap = s.wCap := rfl
@[simp] theorem State.withRegs_wFits (r : Regs) (n : Nat) : (s.withRegs r).wFits n = s.wFits n := rfl
@[simp] theorem State.withRegs_hexByte (r : Regs) (p : Nat) : (s.withRegs r).hexByte p = s.hexByte p := rfl
@[simp] theorem State.withRegs_wordIndex (r : Regs) (i : Fin 64) : (s.withRegs r).wordIndex i = s.wordIndex i := rfl
@[simp] theorem State.withRegs_messageWord (r : Regs) (i : Fin 64) : (s.withRegs r).messageWord i = s.messageWord i := rfl

@[simp] theorem State.withSnap_lenBits (r : Regs) : (s.withSnap r).lenBits = s.lenBits := rfl
@[simp] theorem State.withSnap_len (r : Regs) : (s.withSnap r).len = s.len := rfl
@[simp] theorem State.withSnap_lenKnown (r : Regs) : (s.withSnap r).lenKnown = s.lenKnown := rfl
@[simp] theorem State.withSnap_wlen (r : Regs) : (s.withSnap r).wlen = s.wlen := rfl
@[simp] theorem State.withSnap_blockCount (r : Regs) : (s.withSnap r).blockCount = s.blockCount := rfl
@[simp] theorem State.withSnap_wCap (r : Regs) : (s.withSnap r).wCap = s.wCap := rfl
@[simp] theorem State.withSnap_wFits (r : Regs) (n : Nat) : (s.withSnap r).wFits n = s.wFits n := rfl
@[simp] theorem State.withSnap_hexByte (r : Regs) (p : Nat) : (s.withSnap r).hexByte p = s.hexByte p := rfl
@[simp] theorem State.withSnap_wordIndex (r : Regs) (i : Fin 64) : (s.withSnap r).wordIndex i = s.wordIndex i := rfl
@[simp] theorem State.withSnap_messageWord (r : Regs) (i : Fin 64) : (s.withSnap r).messageWord i = s.messageWord i := rfl

@[simp] theorem State.withW_lenBits (w : List Word) : (s.withW w).lenBits = s.lenBits := rfl
@[simp] theorem State.withW_len (w : List Word) : (s.withW w).len = s.len := rfl
@[simp] theorem State.withW_lenKnown (w : List Word) : (s.withW w).lenKnown = s.lenKnown := rfl
@[simp] theorem State.withW_wCap (w : List Word) : (s.withW w).wCap = s.wCap := rfl
@[simp] theorem State.withW_wFits (w : List Word) (n : Nat) : (s.withW w).wFits n = s.wFits n := rfl
@[simp] theorem State.withW_hexByte (w : List Word) (p : Nat) : (s.withW w).hexByte p = s.hexByte p := rfl
@[simp] theorem State.withW_wordIndex (w : List Word) (i : Fin 64) : (s.withW w).wordIndex i = s.wordIndex i := rfl

@[simp] theorem State.withUpc_lenBits (c : BitVec 8) : (s.withUpc c).lenBits = s.lenBits := rfl
@[simp] theorem State.withUpc_len (c : BitVec 8) : (s.withUpc c).len = s.len := rfl
@[simp] theorem State.withUpc_lenKnown (c : BitVec 8) : (s.withUpc c).lenKnown = s.lenKnown := rfl
@[simp] theorem State.withUpc_wlen (c : BitVec 8) : (s.withUpc c).wlen = s.wlen := rfl
@[simp] theorem State.withUpc_blockCount (c : BitVec 8) : (s.withUpc c).blockCount = s.blockCount := rfl
@[simp] theorem State.withUpc_wCap (c : BitVec 8) : (s.withUpc c).wCap = s.wCap := rfl
@[simp] theorem State.withUpc_wFits (c : BitVec 8) (n : Nat) : (s.withUpc c).wFits n = s.wFits n := rfl
@[simp] theorem State.withUpc_hexByte (c : BitVec 8) (p : Nat) : (s.withUpc c).hexByte p = s.hexByte p := rfl
@[simp] theorem State.withUpc_wordIndex (c : BitVec 8) (i : Fin 64) : (s.withUpc c).wordIndex i = s.wordIndex i := rfl
@[simp] theorem State.withUpc_messageWord (c : BitVec 8) (i : Fin 64) : (s.withUpc c).messageWord i = s.messageWord i := rfl

@[simp] theorem State.withBlk_lenBits (q : Nat) : (s.withBlk q).lenBits = s.lenBits := rfl
@[simp] theorem State.withBlk_len (q : Nat) : (s.withBlk q).len = s.len := rfl
@[simp] theorem State.withBlk_lenKnown (q : Nat) : (s.withBlk q).lenKnown = s.lenKnown := rfl
@[simp] theorem State.withBlk_wlen (q : Nat) : (s.withBlk q).wlen = s.wlen := rfl
@[simp] theorem State.withBlk_blockCount (q : Nat) : (s.withBlk q).blockCount = s.blockCount := rfl
@[simp] theorem State.withBlk_wCap (q : Nat) : (s.withBlk q).wCap = s.wCap := rfl
@[simp] theorem State.withBlk_wFits (q : Nat) (n : Nat) : (s.withBlk q).wFits n = s.wFits n := rfl
@[simp] theorem State.withBlk_hexByte (q : Nat) (p : Nat) : (s.withBlk q).hexByte p = s.hexByte p := rfl

@[simp] theorem State.withHex_lenBits (m : Memory) : (s.withHex m).lenBits = s.lenBits := rfl
@[simp] theorem State.withHex_len (m : Memory) : (s.withHex m).len = s.len := rfl
@[simp] theorem State.withHex_lenKnown (m : Memory) : (s.withHex m).lenKnown = s.lenKnown := rfl
@[simp] theorem State.withHex_wlen (m : Memory) : (s.withHex m).wlen = s.wlen := rfl
@[simp] theorem State.withHex_blockCount (m : Memory) : (s.withHex m).blockCount = s.blockCount := rfl
@[simp] theorem State.withHex_wCap (m : Memory) : (s.withHex m).wCap = s.wCap := rfl
@[simp] theorem State.withHex_wFits (m : Memory) (n : Nat) : (s.withHex m).wFits n = s.wFits n := rfl
@[simp] theorem State.withHex_wordIndex (m : Memory) (i : Fin 64) : (s.withHex m).wordIndex i = s.wordIndex i := rfl
@[simp] theorem State.withHex_messageWord (m : Memory) (i : Fin 64) : (s.withHex m).messageWord i = s.messageWord i := rfl

@[simp] theorem State.withMsg_lenBits (m : Memory) : (s.withMsg m).lenBits = s.lenBits := rfl
@[simp] theorem State.withMsg_len (m : Memory) : (s.withMsg m).len = s.len := rfl
@[simp] theorem State.withMsg_lenKnown (m : Memory) : (s.withMsg m).lenKnown = s.lenKnown := rfl
@[simp] theorem State.withMsg_wlen (m : Memory) : (s.withMsg m).wlen = s.wlen := rfl
@[simp] theorem State.withMsg_blockCount (m : Memory) : (s.withMsg m).blockCount = s.blockCount := rfl
@[simp] theorem State.withMsg_wCap (m : Memory) : (s.withMsg m).wCap = s.wCap := rfl
@[simp] theorem State.withMsg_wFits (m : Memory) (n : Nat) : (s.withMsg m).wFits n = s.wFits n := rfl
@[simp] theorem State.withMsg_hexByte (m : Memory) (p : Nat) : (s.withMsg m).hexByte p = s.hexByte p := rfl
@[simp] theorem State.withMsg_wordIndex (m : Memory) (i : Fin 64) : (s.withMsg m).wordIndex i = s.wordIndex i := rfl
@[simp] theorem State.withMsg_messageWord (m : Memory) (i : Fin 64) : (s.withMsg m).messageWord i = s.messageWord i := rfl

@[simp] theorem State.withLenLo_wlen (v : Word) : (s.withLenLo v).wlen = s.wlen := rfl
@[simp] theorem State.withLenLo_blockCount (v : Word) : (s.withLenLo v).blockCount = s.blockCount := rfl
@[simp] theorem State.withLenLo_wCap (v : Word) : (s.withLenLo v).wCap = s.wCap := rfl
@[simp] theorem State.withLenLo_wFits (v : Word) (n : Nat) : (s.withLenLo v).wFits n = s.wFits n := rfl
@[simp] theorem State.withLenLo_hexByte (v : Word) (p : Nat) : (s.withLenLo v).hexByte p = s.hexByte p := rfl
@[simp] theorem State.withLenLo_wordIndex (v : Word) (i : Fin 64) : (s.withLenLo v).wordIndex i = s.wordIndex i := rfl
@[simp] theorem State.withLenLo_messageWord (v : Word) (i : Fin 64) : (s.withLenLo v).messageWord i = s.messageWord i := rfl

@[simp] theorem State.withLenHi_wlen (v : Word) : (s.withLenHi v).wlen = s.wlen := rfl
@[simp] theorem State.withLenHi_blockCount (v : Word) : (s.withLenHi v).blockCount = s.blockCount := rfl
@[simp] theorem State.withLenHi_wCap (v : Word) : (s.withLenHi v).wCap = s.wCap := rfl
@[simp] theorem State.withLenHi_wFits (v : Word) (n : Nat) : (s.withLenHi v).wFits n = s.wFits n := rfl
@[simp] theorem State.withLenHi_hexByte (v : Word) (p : Nat) : (s.withLenHi v).hexByte p = s.hexByte p := rfl
@[simp] theorem State.withLenHi_wordIndex (v : Word) (i : Fin 64) : (s.withLenHi v).wordIndex i = s.wordIndex i := rfl
@[simp] theorem State.withLenHi_messageWord (v : Word) (i : Fin 64) : (s.withLenHi v).messageWord i = s.messageWord i := rfl

@[simp] theorem State.withPending_lenBits (ms : List HostMove) : (s.withPending ms).lenBits = s.lenBits := rfl
@[simp] theorem State.withPending_len (ms : List HostMove) : (s.withPending ms).len = s.len := rfl
@[simp] theorem State.withPending_lenKnown (ms : List HostMove) : (s.withPending ms).lenKnown = s.lenKnown := rfl
@[simp] theorem State.withPending_wlen (ms : List HostMove) : (s.withPending ms).wlen = s.wlen := rfl
@[simp] theorem State.withPending_blockCount (ms : List HostMove) : (s.withPending ms).blockCount = s.blockCount := rfl
@[simp] theorem State.withPending_wCap (ms : List HostMove) : (s.withPending ms).wCap = s.wCap := rfl
@[simp] theorem State.withPending_wFits (ms : List HostMove) (n : Nat) : (s.withPending ms).wFits n = s.wFits n := rfl
@[simp] theorem State.withPending_hexByte (ms : List HostMove) (p : Nat) : (s.withPending ms).hexByte p = s.hexByte p := rfl
@[simp] theorem State.withPending_wordIndex (ms : List HostMove) (i : Fin 64) : (s.withPending ms).wordIndex i = s.wordIndex i := rfl
@[simp] theorem State.withPending_messageWord (ms : List HostMove) (i : Fin 64) : (s.withPending ms).messageWord i = s.messageWord i := rfl

@[simp] theorem State.hear_lenBits (x : HostAnswer) : (s.hear x).lenBits = s.lenBits := rfl
@[simp] theorem State.hear_len (x : HostAnswer) : (s.hear x).len = s.len := rfl
@[simp] theorem State.hear_lenKnown (x : HostAnswer) : (s.hear x).lenKnown = s.lenKnown := rfl
@[simp] theorem State.hear_wlen (x : HostAnswer) : (s.hear x).wlen = s.wlen := rfl
@[simp] theorem State.hear_blockCount (x : HostAnswer) : (s.hear x).blockCount = s.blockCount := rfl
@[simp] theorem State.hear_wCap (x : HostAnswer) : (s.hear x).wCap = s.wCap := rfl
@[simp] theorem State.hear_wFits (x : HostAnswer) (n : Nat) : (s.hear x).wFits n = s.wFits n := rfl
@[simp] theorem State.hear_hexByte (x : HostAnswer) (p : Nat) : (s.hear x).hexByte p = s.hexByte p := rfl
@[simp] theorem State.hear_wordIndex (x : HostAnswer) (i : Fin 64) : (s.hear x).wordIndex i = s.wordIndex i := rfl
@[simp] theorem State.hear_messageWord (x : HostAnswer) (i : Fin 64) : (s.hear x).messageWord i = s.messageWord i := rfl

@[simp] theorem State.accepted_lenBits (b : Bool) : (s.accepted b).lenBits = s.lenBits := rfl
@[simp] theorem State.accepted_len (b : Bool) : (s.accepted b).len = s.len := rfl
@[simp] theorem State.accepted_lenKnown (b : Bool) : (s.accepted b).lenKnown = s.lenKnown := rfl
@[simp] theorem State.accepted_wlen (b : Bool) : (s.accepted b).wlen = s.wlen := rfl
@[simp] theorem State.accepted_blockCount (b : Bool) : (s.accepted b).blockCount = s.blockCount := rfl
@[simp] theorem State.accepted_wCap (b : Bool) : (s.accepted b).wCap = s.wCap := rfl
@[simp] theorem State.accepted_wFits (b : Bool) (n : Nat) : (s.accepted b).wFits n = s.wFits n := rfl
@[simp] theorem State.accepted_hexByte (b : Bool) (p : Nat) : (s.accepted b).hexByte p = s.hexByte p := rfl
@[simp] theorem State.accepted_wordIndex (b : Bool) (i : Fin 64) : (s.accepted b).wordIndex i = s.wordIndex i := rfl
@[simp] theorem State.accepted_messageWord (b : Bool) (i : Fin 64) : (s.accepted b).messageWord i = s.messageWord i := rfl

@[simp] theorem State.finished_lenBits : (s.finished).lenBits = s.lenBits := rfl
@[simp] theorem State.finished_len : (s.finished).len = s.len := rfl
@[simp] theorem State.finished_lenKnown : (s.finished).lenKnown = s.lenKnown := rfl
@[simp] theorem State.finished_wlen : (s.finished).wlen = s.wlen := rfl
@[simp] theorem State.finished_blockCount : (s.finished).blockCount = s.blockCount := rfl
@[simp] theorem State.finished_wCap : (s.finished).wCap = s.wCap := rfl
@[simp] theorem State.finished_wFits (n : Nat) : (s.finished).wFits n = s.wFits n := rfl
@[simp] theorem State.finished_hexByte (p : Nat) : (s.finished).hexByte p = s.hexByte p := rfl
@[simp] theorem State.finished_wordIndex (i : Fin 64) : (s.finished).wordIndex i = s.wordIndex i := rfl
@[simp] theorem State.finished_messageWord (i : Fin 64) : (s.finished).messageWord i = s.messageWord i := rfl

@[simp] theorem State.withW_wlen (w : List Word) : (s.withW w).wlen = w.length := rfl

@[simp] theorem State.resetEvent_wFits (n : Nat) : s.resetEvent.wFits n = s.wFits n := rfl

/-- `LEN = LEN_HI * 2^32 + LEN_LO` (spec/10_state.md R48). -/
theorem State.len_eq : s.len = s.lenHi.toNat * 2 ^ 32 + s.lenLo.toNat := by
  unfold State.len State.lenBits
  rw [BitVec.toNat_append, Nat.shiftLeft_eq, Nat.mul_comm, ← Nat.two_pow_add_eq_or_of_lt s.lenLo.isLt, Nat.mul_comm]

theorem State.len_lt : s.len < 2 ^ 64 := s.lenBits.isLt

/-- A buffer no longer than one that fits fits. -/
theorem State.wFits_of_le {m n : Nat} (hn : s.wFits n = true) (h : m ≤ n) : s.wFits m = true := by
  unfold State.wFits at hn ⊢
  split
  · rfl
  · rename_i c hc; rw [hc] at hn; simp only [decide_eq_true_eq] at hn ⊢; omega

/-- The padded buffer of an admitted length fits into `W` (spec/10_state.md R35). -/
theorem State.wFits_of_admitted {l : Nat} (h : lengthAdmitted s.msgCap l = true) :
    s.wFits (16 * blocksFor l) = true := by
  unfold State.wFits State.wCap
  unfold lengthAdmitted at h
  cases hc : s.msgCap with
  | none => rfl
  | some c =>
    rw [hc] at h
    have hl : l ≤ c := of_decide_eq_true (Bool.and_eq_true_iff.mp h).2
    show decide (16 * blocksFor l ≤ 16 * blocksFor c) = true
    rw [decide_eq_true_eq]
    unfold blocksFor
    omega

theorem lengthAdmitted_lt {cap : Option Nat} {l : Nat} (h : lengthAdmitted cap l = true) : l < 2 ^ 61 := by
  unfold lengthAdmitted at h
  simp only [Bool.and_eq_true, decide_eq_true_eq] at h
  exact h.1

end Sys2Proof.Machine
end

