-- ==== Sys2Proof/Laws/Exec.lean ====
section
/-! SUPPORT. What each shared operation can do, and what an executed instruction can do: the lemmas later proofs cite
instead of unfolding the machine. -/

namespace Sys2Proof.Machine

/-! ## Shared operations -/

theorem storeW_eq_next_iff (s : State) (w : List Word) (c : BitVec 8) (t : State) :
    storeW s w c = .next t ↔ s.wFits w.length = true ∧ t = (s.withW w).withUpc c := by
  unfold storeW
  split
  · rename_i h; simp only [h, true_and]; constructor
    · rintro ⟨⟩; rfl
    · rintro rfl; rfl
  · rename_i h; simp [h]

theorem storeW_of_fits {s : State} {w : List Word} (c : BitVec 8) (h : s.wFits w.length = true) :
    storeW s w c = .next ((s.withW w).withUpc c) := (storeW_eq_next_iff _ _ _ _).mpr ⟨h, rfl⟩

theorem storeW_ne_refused (s : State) (w : List Word) (c : BitVec 8) (r : Refusal) : storeW s w c ≠ .refused r := by
  unfold storeW; split <;> simp

theorem stepOp_of_word {i : Fin 64} {s : State} {x : Word} (h : s.messageWord i = some x) :
    stepOp i s = .next ((s.withRegs (roundStep i s.regs x)).withUpc (stepSuccessor i)) := by
  simp only [stepOp, h]

theorem stepOp_of_no_word {i : Fin 64} {s : State} (h : s.messageWord i = none) :
    stepOp i s = .fault (.noSuchWord (s.wordIndex i)) := by
  simp only [stepOp, h]

theorem stepOp_eq_next_iff (i : Fin 64) (s t : State) :
    stepOp i s = .next t ↔
      ∃ x, s.messageWord i = some x ∧ t = (s.withRegs (roundStep i s.regs x)).withUpc (stepSuccessor i) := by
  cases h : s.messageWord i with
  | none => simp [stepOp_of_no_word h]
  | some x =>
    rw [stepOp_of_word h]
    constructor
    · rintro ⟨⟩; exact ⟨x, rfl, rfl⟩
    · rintro ⟨y, hy, rfl⟩; cases hy; rfl

theorem messageWord_isSome_iff (i : Fin 64) (s : State) :
    (∃ x, s.messageWord i = some x) ↔ s.wordIndex i < s.wlen := by
  unfold State.messageWord State.wlen
  constructor
  · rintro ⟨x, hx⟩; exact (List.getElem?_eq_some_iff.mp hx).1
  · intro h; exact ⟨_, List.getElem?_eq_getElem h⟩

theorem acceptCommand_eq_next_iff (b : Bool) (s t : State) :
    acceptCommand b s = .next t ↔
      (s.busy = true ∧ t = s) ∨
      (s.busy = false ∧ s.lenKnown = true ∧ lengthAdmitted s.msgCap s.len = true ∧ t = s.accepted b) := by
  unfold acceptCommand
  cases s.busy <;> cases s.lenKnown <;> cases lengthAdmitted s.msgCap s.len <;>
    simp [eq_comm]

/-! ## PACK by what the message memory holds -/

theorem execPack_of_read {s : State} {bs : List Byte} (h : s.msg.readRange 0 s.len = some bs) :
    execPack s = storeW s (packBytes bs 0 []) 0x41 := by
  unfold execPack; rw [h]

theorem execPack_of_unwritten {s : State} (h : s.msg.readRange 0 s.len = none) :
    execPack s = .refused .messageUnwritten := by
  unfold execPack; rw [h]

theorem execPack_eq_next_iff (s t : State) :
    execPack s = .next t ↔ ∃ bs, s.msg.readRange 0 s.len = some bs ∧
      s.wFits (packBytes bs 0 []).length = true ∧ t = (s.withW (packBytes bs 0 [])).withUpc 0x41 := by
  cases hr : s.msg.readRange 0 s.len with
  | none => rw [execPack_of_unwritten hr]; simp
  | some bs => rw [execPack_of_read hr, storeW_eq_next_iff]; simp

/-! ## The steps by index -/

theorem exec_stepInstr (i : Fin 64) (s : State) : exec (stepInstr i) s = stepOp i s := by
  fin_cases i <;> rfl

theorem decode_step_code (i : Fin 64) : decode (.uop (BitVec.ofNat 8 i.val)) = .instr (stepInstr i) := by
  revert i; decide

theorem engineTurn_step {s : State} (i : Fin 64) (hb : s.busy = true) (hu : s.upc = BitVec.ofNat 8 i.val) :
    engineTurn s = stepOp i s := by
  unfold engineTurn
  rw [if_pos hb, hu, decode_step_code]
  exact exec_stepInstr i s

theorem engineTurn_of_decode {s : State} {i : Instr} (hb : s.busy = true) (h : decode (.uop s.upc) = .instr i) :
    engineTurn s = exec i s := by
  unfold engineTurn; rw [if_pos hb, h]

theorem engineTurn_idle {s : State} (hb : s.busy = false) : engineTurn s = .next s := by
  unfold engineTurn; rw [if_neg (by simp [hb])]

/-- Every instruction is a step or one of the twelve others. -/
theorem instr_step_or_other (i : Instr) :
    (∃ k, i = stepInstr k) ∨ i = .pack ∨ i = .mark ∨ i = .zext ∨ i = .lenw ∨ i = .init ∨ i = .snap ∨ i = .chain ∨
      i = .encl ∨ i = .encu ∨ i = .fin ∨ i = .hashl ∨ i = .hashu := by
  have h : i ∈ allInstrs := by cases i <;> decide
  have hs : ∀ j ∈ stepInstrs, ∃ k, j = stepInstr k := by
    intro j hj
    obtain ⟨n, hn, rfl⟩ := List.mem_iff_getElem.mp hj
    exact ⟨⟨n, hn⟩, by simp [stepInstr, List.getElem?_eq_getElem hn]⟩
  rcases List.mem_append.mp h with h | h
  · exact .inl (hs i h)
  · right; simpa using h

/-- What an executed instruction can do: one case for each kind. -/
theorem exec_eq_next {i : Instr} {s t : State} (h : exec i s = .next t) :
    (∃ k x, i = stepInstr k ∧ s.messageWord k = some x ∧
      t = (s.withRegs (roundStep k s.regs x)).withUpc (stepSuccessor k)) ∨
    (i = .pack ∧ ∃ bs, s.msg.readRange 0 s.len = some bs ∧ s.wFits (packBytes bs 0 []).length = true ∧
      t = (s.withW (packBytes bs 0 [])).withUpc 0x41) ∨
    (i = .mark ∧ s.len % 4 = 0 ∧ s.wFits (s.w ++ [0x00000080]).length = true ∧
      t = (s.withW (s.w ++ [0x00000080])).withUpc 0x42) ∨
    (i = .mark ∧ s.len % 4 ≠ 0 ∧ s.len / 4 < s.wlen ∧
      t = (s.withW (s.w.modify (s.len / 4) (fun x => x ||| shl32 0x80 (8 * (s.len % 4))))).withUpc 0x42) ∨
    (i = .zext ∧ ∃ w, w = s.w ++ List.replicate (16 * blocksFor s.len - 2 - s.wlen) 0 ∧ s.wFits w.length = true ∧
      t = (s.withW w).withUpc 0x43) ∨
    (i = .lenw ∧ ∃ w, w = s.w ++ [(bitLength s.len).extractLsb' 0 32, (bitLength s.len).extractLsb' 32 32] ∧
      s.wFits w.length = true ∧ t = (s.withW w).withUpc 0x80) ∨
    (i = .init ∧ t = ((s.withRegs ivRegs).withBlk 0).withUpc 0x81) ∨
    (i = .snap ∧ t = (s.withSnap s.regs).withUpc 0x00) ∨
    (i = .chain ∧ s.blk + 1 < s.blockCount ∧
      t = ((s.withRegs (s.regs.add s.snap)).withBlk (s.blk + 1)).withUpc 0x81) ∨
    (i = .chain ∧ s.blockCount ≤ s.blk + 1 ∧ t = (s.withRegs (s.regs.add s.snap)).withUpc 0xC0) ∨
    (i = .encl ∧ t = (s.withHex (s.hex.writeFrom 0 (hexl s.regs))).withUpc (if s.u then 0xC1 else 0xC2)) ∨
    (i = .encu ∧
      t = (s.withHex (s.hex.writeFrom 0 ((List.range 32).map (fun p => up (s.hexByte p))))).withUpc 0xC2) ∨
    (i = .fin ∧ t = s.finished) ∨
    ((i = .hashl ∨ i = .hashu) ∧ s.busy = true ∧ t = s) ∨
    (∃ b, (i = .hashl ∧ b = false ∨ i = .hashu ∧ b = true) ∧ s.busy = false ∧ s.lenKnown = true ∧
      lengthAdmitted s.msgCap s.len = true ∧ t = s.accepted b) := by
  rcases instr_step_or_other i with ⟨k, rfl⟩ | rfl | rfl | rfl | rfl | rfl | rfl | rfl | rfl | rfl | rfl | rfl | rfl
  · rw [exec_stepInstr] at h
    obtain ⟨x, hx, ht⟩ := (stepOp_eq_next_iff k s t).mp h
    exact .inl ⟨k, x, rfl, hx, ht⟩
  · obtain ⟨bs, hbs, hf, ht⟩ := (execPack_eq_next_iff s t).mp h
    exact .inr (.inl ⟨rfl, bs, hbs, hf, ht⟩)
  · change execMark s = _ at h
    unfold execMark at h
    split at h
    · rename_i h4
      obtain ⟨hf, ht⟩ := (storeW_eq_next_iff _ _ _ _).mp h
      exact .inr (.inr (.inl ⟨rfl, h4, hf, ht⟩))
    · rename_i h4
      split at h
      · rename_i hl; cases h; exact .inr (.inr (.inr (.inl ⟨rfl, h4, hl, rfl⟩)))
      · simp at h
  · change execZext s = _ at h
    unfold execZext at h
    obtain ⟨hf, ht⟩ := (storeW_eq_next_iff _ _ _ _).mp h
    exact .inr (.inr (.inr (.inr (.inl ⟨rfl, _, rfl, hf, ht⟩))))
  · change execLenw s = _ at h
    unfold execLenw at h
    obtain ⟨hf, ht⟩ := (storeW_eq_next_iff _ _ _ _).mp h
    exact .inr (.inr (.inr (.inr (.inr (.inl ⟨rfl, _, rfl, hf, ht⟩)))))
  · change execInit s = _ at h; unfold execInit at h; cases h; simp
  · change execSnap s = _ at h; unfold execSnap at h; cases h; simp
  · change execChain s = _ at h
    unfold execChain at h
    dsimp only at h
    split at h
    · rename_i hb; cases h; simp [hb]
    · rename_i hb; cases h; simp [Nat.le_of_not_lt hb]
  · change execEncl s = _ at h; unfold execEncl at h; cases h; simp
  · change execEncu s = _ at h; unfold execEncu at h; cases h; simp
  · change execFin s = _ at h; unfold execFin at h; cases h; simp
  · change execHashl s = _ at h
    unfold execHashl at h
    rcases (acceptCommand_eq_next_iff false s t).mp h with ⟨hb, ht⟩ | ⟨hb, hk, ha, ht⟩
    · simp [hb, ht]
    · simp [hb, hk, ha, ht]
  · change execHashu s = _ at h
    unfold execHashu at h
    rcases (acceptCommand_eq_next_iff true s t).mp h with ⟨hb, ht⟩ | ⟨hb, hk, ha, ht⟩
    · simp [hb, ht]
    · simp [hb, hk, ha, ht]

end Sys2Proof.Machine
end

