-- ==== Sys2Proof/Laws/Turns.lean ====
section
/-! SUPPORT. What a step can do, by whose turn it is; what a host access can do. -/

namespace Sys2Proof.Machine

/-! ## Whose turn it is -/

theorem step_of_no_move {s : State} (h : s.pending = []) : step s = engineTurn s := by
  unfold step turn; rw [h]

theorem step_of_engine_move {s : State} {ms : List HostMove} (h : s.pending = .engine :: ms) :
    step s = engineTurn (s.withPending ms) := by
  unfold step turn; rw [h]; rfl

theorem step_of_access {s : State} {a : HostAccess} {ms : List HostMove} (h : s.pending = .access a :: ms) :
    step s = hostAccess a (s.withPending ms) := by
  unfold step turn; rw [h]; rfl

theorem step_of_reset_move {s : State} {ms : List HostMove} (h : s.pending = .reset :: ms) :
    step s = .next (s.withPending ms).resetEvent := by
  unfold step turn; rw [h]; rfl

/-- What the engine's turn can do. -/
theorem engineTurn_eq_next {s t : State} (h : engineTurn s = .next t) :
    (s.busy = true ∧ ∃ i, decode (.uop s.upc) = .instr i ∧ exec i s = .next t) ∨ (s.busy = false ∧ t = s) := by
  unfold engineTurn at h
  split at h
  · rename_i hb
    split at h
    · rename_i i hi; exact .inl ⟨hb, i, hi, h⟩
    · simp at h
  · rename_i hb; cases h; exact .inr ⟨by simpa using hb, rfl⟩

/-- What a step can do. -/
theorem step_eq_next {s t : State} (h : step s = .next t) :
    (∃ ms, engineTurn (s.withPending ms) = .next t) ∨ (∃ a ms, hostAccess a (s.withPending ms) = .next t) ∨
      (∃ ms, t = (s.withPending ms).resetEvent) := by
  cases hp : s.pending with
  | nil =>
    rw [step_of_no_move hp] at h
    exact .inl ⟨[], by rwa [show s.withPending [] = s by rw [← hp]; rfl]⟩
  | cons m ms =>
    cases m with
    | engine => rw [step_of_engine_move hp] at h; exact .inl ⟨ms, h⟩
    | access a => rw [step_of_access hp] at h; exact .inr (.inl ⟨a, ms, h⟩)
    | reset => rw [step_of_reset_move hp] at h; cases h; exact .inr (.inr ⟨ms, rfl⟩)

/-! ## Host accesses -/

/-- A word for `CTRL` that decodes is a command. -/
theorem decodeCtrl_eq_instr {v : Word} {i : Instr} (h : decodeCtrl v = .instr i) : i = .hashl ∨ i = .hashu := by
  unfold decodeCtrl at h
  by_cases h1 : v.extractLsb' 2 30 ≠ 0
  · rw [if_pos h1] at h; cases h
  · by_cases h2 : v.getLsbD 0 = false
    · rw [if_neg h1, if_pos h2] at h; cases h
    · by_cases h3 : v.getLsbD 1 = true
      · rw [if_neg h1, if_neg h2, if_pos h3] at h; cases h; exact .inr rfl
      · rw [if_neg h1, if_neg h2, if_neg h3] at h; cases h; exact .inl rfl

/-- What a write to `CTRL` can do. -/
theorem writeCtrl_eq_next {v : Word} {s t : State} (h : writeCtrl v s = .next t) :
    t = s ∨ (∃ b, s.busy = false ∧ s.lenKnown = true ∧ lengthAdmitted s.msgCap s.len = true ∧ t = s.accepted b) := by
  have hc : ∀ b, acceptCommand b s = .next t → t = s ∨ (∃ b, s.busy = false ∧ s.lenKnown = true ∧
      lengthAdmitted s.msgCap s.len = true ∧ t = s.accepted b) := fun b hb => by
    rcases (acceptCommand_eq_next_iff b s t).mp hb with ⟨-, rfl⟩ | ⟨h1, h2, h3, rfl⟩
    · exact .inl rfl
    · exact .inr ⟨b, h1, h2, h3, rfl⟩
  unfold writeCtrl at h
  split at h
  · rename_i i hi
    rcases decodeCtrl_eq_instr hi with rfl | rfl
    · exact hc false h
    · exact hc true h
  · cases h; exact .inl rfl
  · simp at h

/-- What a host access can do: answer, store, start a run, or nothing. -/
theorem hostAccess_eq_next {a : HostAccess} {s t : State} (h : hostAccess a s = .next t) :
    (∃ x, ((∃ off, a = .readReg off) ∨ (∃ n, a = .readMsg n) ∨ (∃ p, a = .readHex p)) ∧ t = s.hear x) ∨
    (∃ off v, a = .writeReg off v ∧ t = s) ∨
    (∃ v b, a = .writeReg 0x00 v ∧ s.busy = false ∧ s.lenKnown = true ∧ lengthAdmitted s.msgCap s.len = true ∧
      t = s.accepted b) ∨
    (∃ v, a = .writeReg 0x08 v ∧ s.busy = false ∧ t = s.withLenLo v) ∨
    (∃ v, a = .writeReg 0x0C v ∧ s.busy = false ∧ t = s.withLenHi v) ∨
    (∃ n b, a = .writeMsg n b ∧ msgIndexExists s.msgCap n = true ∧ s.busy = false ∧ t = s.withMsg (s.msg.write n b)) := by
  cases a with
  | readReg off =>
    simp only [hostAccess, readRegister] at h
    refine .inl ?_
    split at h
    · cases h; exact ⟨_, .inl ⟨_, rfl⟩, rfl⟩
    · cases h; exact ⟨_, .inl ⟨_, rfl⟩, rfl⟩
    · cases h; exact ⟨_, .inl ⟨_, rfl⟩, rfl⟩
    · cases h; exact ⟨_, .inl ⟨_, rfl⟩, rfl⟩
    · simp at h
  | writeReg off v =>
    simp only [hostAccess, writeRegister] at h
    split at h
    · rcases writeCtrl_eq_next h with rfl | ⟨b, h1, h2, h3, rfl⟩
      · exact .inr (.inl ⟨_, _, rfl, rfl⟩)
      · exact .inr (.inr (.inl ⟨_, b, rfl, h1, h2, h3, rfl⟩))
    · split at h
      · simp at h
      · rename_i hb; cases h; exact .inr (.inr (.inr (.inl ⟨_, rfl, by simpa using hb, rfl⟩)))
    · split at h
      · simp at h
      · rename_i hb; cases h; exact .inr (.inr (.inr (.inr (.inl ⟨_, rfl, by simpa using hb, rfl⟩))))
    · cases h; exact .inr (.inl ⟨_, _, rfl, rfl⟩)
  | readMsg n =>
    simp only [hostAccess, readMessage] at h
    split at h
    · split at h
      · cases h; exact .inl ⟨_, .inr (.inl ⟨_, rfl⟩), rfl⟩
      · simp at h
    · simp at h
  | writeMsg n b =>
    simp only [hostAccess, writeMessage] at h
    split at h
    · rename_i he
      split at h
      · simp at h
      · rename_i hb; cases h; exact .inr (.inr (.inr (.inr (.inr ⟨_, _, rfl, he, by simpa using hb, rfl⟩))))
    · simp at h
  | readHex p =>
    simp only [hostAccess, readResult] at h
    split at h
    · split at h
      · cases h; exact .inl ⟨_, .inr (.inr ⟨_, rfl⟩), rfl⟩
      · simp at h
    · simp at h
  | writeHex p b =>
    simp only [hostAccess] at h
    split at h <;> simp at h

end Sys2Proof.Machine
end

