-- ==== Sys2Proof/Laws/Run.lean ====
section
/-! SUPPORT. Steps in a row and instructions in a row: how a run is taken apart and put together. -/

namespace Sys2Proof.Machine

theorem runSteps_zero (s : State) : runSteps 0 s = .next s := rfl

theorem runSteps_succ {s t : State} (n : Nat) (h : step s = .next t) : runSteps (n + 1) s = runSteps n t := by
  simp only [runSteps, h]

theorem runSteps_refused {s : State} {r : Refusal} (n : Nat) (h : step s = .refused r) :
    runSteps (n + 1) s = .refused r := by
  simp only [runSteps, h]

/-- A run in two parts. -/
theorem runSteps_add {m : Nat} {s t : State} (n : Nat) (h : runSteps m s = .next t) :
    runSteps (m + n) s = runSteps n t := by
  induction m generalizing s with
  | zero => cases h; rw [Nat.zero_add]
  | succ m ih =>
    rw [Nat.succ_add]
    simp only [runSteps] at h ⊢
    split at h
    · exact ih h
    · simp at h
    · simp at h

theorem execAll_cons {i : Instr} {is : List Instr} {s t : State} (h : exec i s = .next t) :
    execAll (i :: is) s = execAll is t := by
  simp only [execAll, h]

/-- A list of instructions in two parts. -/
theorem execAll_append {is : List Instr} (js : List Instr) {s t : State} (h : execAll is s = .next t) :
    execAll (is ++ js) s = execAll js t := by
  induction is generalizing s with
  | nil => cases h; rfl
  | cons i is ih =>
    rw [List.cons_append]
    simp only [execAll] at h ⊢
    split at h
    · exact ih h
    · simp at h
    · simp at h

/-- An instruction other than `FIN` and the commands leaves `BUSY`, and every instruction leaves the outside agents. -/
theorem exec_busy {i : Instr} {s t : State} (h : exec i s = .next t) (hf : i ≠ .fin) (hl : i ≠ .hashl)
    (hu : i ≠ .hashu) : t.busy = s.busy := by
  rcases exec_eq_next h with ⟨_, _, _, _, rfl⟩ | ⟨_, _, _, _, rfl⟩ | ⟨_, _, _, rfl⟩ | ⟨_, _, _, rfl⟩ | ⟨_, _, _, _, rfl⟩ |
    ⟨_, _, _, _, rfl⟩ | ⟨_, rfl⟩ | ⟨_, rfl⟩ | ⟨_, _, rfl⟩ | ⟨_, _, rfl⟩ | ⟨_, rfl⟩ | ⟨_, rfl⟩ | ⟨hi, _⟩ | ⟨_, _, rfl⟩ |
    ⟨_, hi, _⟩
  any_goals simp only [State.withUpc_busy, State.withRegs_busy, State.withW_busy, State.withBlk_busy, State.withSnap_busy,
    State.withHex_busy]
  · exact absurd hi hf
  rcases hi with ⟨hi, _⟩ | ⟨hi, _⟩
  · exact absurd hi hl
  · exact absurd hi hu

theorem exec_pending {i : Instr} {s t : State} (h : exec i s = .next t) : t.pending = s.pending := by
  rcases exec_eq_next h with ⟨_, _, _, _, rfl⟩ | ⟨_, _, _, _, rfl⟩ | ⟨_, _, _, rfl⟩ | ⟨_, _, _, rfl⟩ | ⟨_, _, _, _, rfl⟩ |
    ⟨_, _, _, _, rfl⟩ | ⟨_, rfl⟩ | ⟨_, rfl⟩ | ⟨_, _, rfl⟩ | ⟨_, _, rfl⟩ | ⟨_, rfl⟩ | ⟨_, rfl⟩ | ⟨_, rfl⟩ | ⟨_, _, rfl⟩ |
    ⟨_, _, _, _, _, rfl⟩
  all_goals simp

end Sys2Proof.Machine
end

