-- ==== Sys2Proof/Laws/Path.lean ====
section
/-! SUPPORT. Where a state in a run stands: the phase at each code, and the path of instructions that the engine's turns
follow from a state in a run. -/

namespace Sys2Proof.Machine

/-! ## The phase at each code -/

theorem State.phase_at (s : State) {c : BitVec 8} (h : s.upc = c) :
    s.Phase ↔
      (if c = 0x40 then True
      else if c = 0x41 then s.wlen = (s.len + 3) / 4
      else if c = 0x42 then s.wlen = s.len / 4 + 1
      else if c = 0x43 then s.wlen = 16 * blocksFor s.len - 2
      else if c = 0x80 then s.wlen = 16 * blocksFor s.len
      else if c.toNat ≤ 0x3F ∨ c = 0x81 ∨ c = 0x82 then s.wlen = 16 * blocksFor s.len ∧ s.blk < blocksFor s.len
      else if c = 0xC0 then s.wlen = 16 * blocksFor s.len
      else if c = 0xC1 then s.wlen = 16 * blocksFor s.len ∧ s.u = true ∧ s.HexHolds lowerHexDigit
      else if c = 0xC2 then s.wlen = 16 * blocksFor s.len ∧ s.HexHolds (resultDigit s.u)
      else False) := by subst h; rfl

theorem State.phase_at_pack {s : State} (h : s.upc = 0x40) : s.Phase ↔ True := by
  rw [s.phase_at h]; rfl

theorem State.phase_at_mark {s : State} (h : s.upc = 0x41) : s.Phase ↔ s.wlen = (s.len + 3) / 4 := by
  rw [s.phase_at h]; rfl

theorem State.phase_at_zext {s : State} (h : s.upc = 0x42) : s.Phase ↔ s.wlen = s.len / 4 + 1 := by
  rw [s.phase_at h]; rfl

theorem State.phase_at_lenw {s : State} (h : s.upc = 0x43) : s.Phase ↔ s.wlen = 16 * blocksFor s.len - 2 := by
  rw [s.phase_at h]; rfl

theorem State.phase_at_init {s : State} (h : s.upc = 0x80) : s.Phase ↔ s.wlen = 16 * blocksFor s.len := by
  rw [s.phase_at h]; rfl

theorem State.phase_at_snap {s : State} (h : s.upc = 0x81) :
    s.Phase ↔ s.wlen = 16 * blocksFor s.len ∧ s.blk < blocksFor s.len := by
  rw [s.phase_at h]; rfl

theorem State.phase_at_chain {s : State} (h : s.upc = 0x82) :
    s.Phase ↔ s.wlen = 16 * blocksFor s.len ∧ s.blk < blocksFor s.len := by
  rw [s.phase_at h]; rfl

theorem State.phase_at_encl {s : State} (h : s.upc = 0xC0) : s.Phase ↔ s.wlen = 16 * blocksFor s.len := by
  rw [s.phase_at h]; rfl

theorem State.phase_at_encu {s : State} (h : s.upc = 0xC1) :
    s.Phase ↔ s.wlen = 16 * blocksFor s.len ∧ s.u = true ∧ s.HexHolds lowerHexDigit := by
  rw [s.phase_at h]; rfl

theorem State.phase_at_fin {s : State} (h : s.upc = 0xC2) :
    s.Phase ↔ s.wlen = 16 * blocksFor s.len ∧ s.HexHolds (resultDigit s.u) := by
  rw [s.phase_at h]; rfl

theorem State.phase_at_step {s : State} {c : BitVec 8} (h : s.upc = c) (hc : c.toNat ≤ 0x3F) :
    s.Phase ↔ s.wlen = 16 * blocksFor s.len ∧ s.blk < blocksFor s.len := by
  have hn : ∀ d : BitVec 8, 0x40 ≤ d.toNat → c ≠ d := by rintro d hd rfl; omega
  rw [s.phase_at h, if_neg (hn _ (by decide)), if_neg (hn _ (by decide)), if_neg (hn _ (by decide)),
    if_neg (hn _ (by decide)), if_neg (hn _ (by decide)), if_pos (.inl hc)]

/-! ## The outside agents do not matter to an instruction -/

theorem State.withPending_withPending (s : State) (ms ns : List HostMove) :
    (s.withPending ms).withPending ns = s.withPending ns := rfl

theorem storeW_withPending {s : State} {w : List Word} {c : BitVec 8} (ms : List HostMove)
    (h : s.wFits w.length = true) :
    storeW (s.withPending ms) w c = .next (((s.withW w).withUpc c).withPending ms) :=
  storeW_of_fits (s := s.withPending ms) c h

theorem execMark_new {s : State} (h4 : s.len % 4 = 0) : execMark s = storeW s (s.w ++ [0x00000080]) 0x42 := by
  unfold execMark; rw [if_pos h4]

theorem execMark_into {s : State} (h4 : s.len % 4 ≠ 0) (hl : s.len / 4 < s.wlen) :
    execMark s = .next ((s.withW (s.w.modify (s.len / 4) (fun x => x ||| shl32 0x80 (8 * (s.len % 4))))).withUpc
      0x42) := by
  unfold execMark; rw [if_neg h4, if_pos hl]

theorem execChain_eq (s : State) :
    execChain s = if s.blk + 1 < s.blockCount then
      .next (((s.withRegs (s.regs.add s.snap)).withBlk (s.blk + 1)).withUpc 0x81)
      else .next ((s.withRegs (s.regs.add s.snap)).withUpc 0xC0) := rfl

theorem execEncu_eq (s : State) :
    execEncu s = .next ((s.withHex (s.hex.writeFrom 0 ((List.range 32).map (fun p => up (s.hexByte p))))).withUpc
      0xC2) := rfl

theorem execEncl_eq (s : State) :
    execEncl s = .next ((s.withHex (s.hex.writeFrom 0 (hexl s.regs))).withUpc (if s.u then 0xC1 else 0xC2)) := rfl

theorem State.withHex_withUpc_withPending (s : State) (m : Memory) (c : BitVec 8) (ms : List HostMove) :
    ((s.withPending ms).withHex m).withUpc c = ((s.withHex m).withUpc c).withPending ms := rfl

theorem execEncl_withPending {s t : State} (ms : List HostMove) (h : execEncl s = .next t) :
    execEncl (s.withPending ms) = .next (t.withPending ms) := by
  rw [execEncl_eq] at h ⊢
  rw [State.withPending_regs, State.withPending_hex, State.withPending_u, State.withHex_withUpc_withPending]
  cases h; rfl

theorem execEncu_withPending {s t : State} (ms : List HostMove) (h : execEncu s = .next t) :
    execEncu (s.withPending ms) = .next (t.withPending ms) := by
  rw [execEncu_eq] at h ⊢
  have e : ∀ p, (s.withPending ms).hexByte p = s.hexByte p := fun p => rfl
  simp only [e]
  rw [State.withPending_hex, State.withHex_withUpc_withPending]
  cases h; rfl

/-- What an instruction does does not depend on the moves still to come. -/
theorem exec_withPending {i : Instr} {s t : State} (ms : List HostMove) (h : exec i s = .next t) :
    exec i (s.withPending ms) = .next (t.withPending ms) := by
  rcases exec_eq_next h with ⟨k, x, rfl, hx, rfl⟩ | ⟨rfl, bs, hbs, hf, rfl⟩ | ⟨rfl, h4, hf, rfl⟩ | ⟨rfl, h4, hl, rfl⟩ |
    ⟨rfl, w, hw, hf, rfl⟩ | ⟨rfl, w, hw, hf, rfl⟩ | ⟨rfl, rfl⟩ | ⟨rfl, rfl⟩ | ⟨rfl, hlt, rfl⟩ | ⟨rfl, hlt, rfl⟩ |
    ⟨rfl, rfl⟩ | ⟨rfl, rfl⟩ | ⟨rfl, rfl⟩ | ⟨hi, hb, rfl⟩ | ⟨b, hi, hb, hk, ha, rfl⟩
  · rw [exec_stepInstr]; exact stepOp_of_word (s := s.withPending ms) hx
  · exact (execPack_of_read (s := s.withPending ms) hbs).trans (storeW_withPending ms hf)
  · exact (execMark_new (s := s.withPending ms) h4).trans (storeW_withPending ms hf)
  · exact execMark_into (s := s.withPending ms) h4 hl
  · have e : exec .zext (s.withPending ms) =
        storeW (s.withPending ms) (s.w ++ List.replicate (16 * blocksFor s.len - 2 - s.wlen) 0) 0x43 := rfl
    rw [e, ← hw, storeW_withPending ms hf]
  · have e : exec .lenw (s.withPending ms) = storeW (s.withPending ms)
        (s.w ++ [(bitLength s.len).extractLsb' 0 32, (bitLength s.len).extractLsb' 32 32]) 0x80 := rfl
    rw [e, ← hw, storeW_withPending ms hf]
  · rfl
  · rfl
  · exact (execChain_eq (s.withPending ms)).trans (if_pos hlt)
  · exact (execChain_eq (s.withPending ms)).trans (if_neg (Nat.not_lt.mpr hlt))
  · have e : exec .encl = execEncl := rfl
    rw [e] at h ⊢
    exact execEncl_withPending ms h
  · have e : exec .encu = execEncu := rfl
    rw [e] at h ⊢
    exact execEncu_withPending ms h
  · rfl
  · rcases hi with rfl | rfl
    · exact (acceptCommand_eq_next_iff _ _ _).mpr (.inl ⟨hb, rfl⟩)
    · exact (acceptCommand_eq_next_iff _ _ _).mpr (.inl ⟨hb, rfl⟩)
  · rcases hi with ⟨rfl, rfl⟩ | ⟨rfl, rfl⟩
    · exact (acceptCommand_eq_next_iff _ _ _).mpr (.inr ⟨hb, hk, ha, rfl⟩)
    · exact (acceptCommand_eq_next_iff _ _ _).mpr (.inr ⟨hb, hk, ha, rfl⟩)

theorem storeW_hear {s : State} {w : List Word} {c : BitVec 8} (x : HostAnswer) (h : s.wFits w.length = true) :
    storeW (s.hear x) w c = .next (((s.withW w).withUpc c).hear x) :=
  storeW_of_fits (s := s.hear x) c h

theorem State.withHex_withUpc_hear (s : State) (m : Memory) (c : BitVec 8) (x : HostAnswer) :
    ((s.hear x).withHex m).withUpc c = ((s.withHex m).withUpc c).hear x := rfl

theorem execEncl_hear {s t : State} (x : HostAnswer) (h : execEncl s = .next t) :
    execEncl (s.hear x) = .next (t.hear x) := by
  rw [execEncl_eq] at h ⊢
  rw [State.hear_regs, State.hear_hex, State.hear_u, State.withHex_withUpc_hear]
  cases h; rfl

theorem execEncu_hear {s t : State} (x : HostAnswer) (h : execEncu s = .next t) :
    execEncu (s.hear x) = .next (t.hear x) := by
  rw [execEncu_eq] at h ⊢
  have e : ∀ p, (s.hear x).hexByte p = s.hexByte p := fun p => rfl
  simp only [e]
  rw [State.hear_hex, State.withHex_withUpc_hear]
  cases h; rfl

/-- What an instruction does does not depend on what the host has heard. -/
theorem exec_hear {i : Instr} {s t : State} (x : HostAnswer) (h : exec i s = .next t) :
    exec i (s.hear x) = .next (t.hear x) := by
  rcases exec_eq_next h with ⟨k, y, rfl, hx, rfl⟩ | ⟨rfl, bs, hbs, hf, rfl⟩ | ⟨rfl, h4, hf, rfl⟩ | ⟨rfl, h4, hl, rfl⟩ |
    ⟨rfl, w, hw, hf, rfl⟩ | ⟨rfl, w, hw, hf, rfl⟩ | ⟨rfl, rfl⟩ | ⟨rfl, rfl⟩ | ⟨rfl, hlt, rfl⟩ | ⟨rfl, hlt, rfl⟩ |
    ⟨rfl, rfl⟩ | ⟨rfl, rfl⟩ | ⟨rfl, rfl⟩ | ⟨hi, hb, rfl⟩ | ⟨b, hi, hb, hk, ha, rfl⟩
  · rw [exec_stepInstr]; exact stepOp_of_word (s := s.hear x) hx
  · exact (execPack_of_read (s := s.hear x) hbs).trans (storeW_hear x hf)
  · exact (execMark_new (s := s.hear x) h4).trans (storeW_hear x hf)
  · exact execMark_into (s := s.hear x) h4 hl
  · have e : exec .zext (s.hear x) =
        storeW (s.hear x) (s.w ++ List.replicate (16 * blocksFor s.len - 2 - s.wlen) 0) 0x43 := rfl
    rw [e, ← hw, storeW_hear x hf]
  · have e : exec .lenw (s.hear x) = storeW (s.hear x)
        (s.w ++ [(bitLength s.len).extractLsb' 0 32, (bitLength s.len).extractLsb' 32 32]) 0x80 := rfl
    rw [e, ← hw, storeW_hear x hf]
  · rfl
  · rfl
  · exact (execChain_eq (s.hear x)).trans (if_pos hlt)
  · exact (execChain_eq (s.hear x)).trans (if_neg (Nat.not_lt.mpr hlt))
  · have e : exec .encl = execEncl := rfl
    rw [e] at h ⊢
    exact execEncl_hear x h
  · have e : exec .encu = execEncu := rfl
    rw [e] at h ⊢
    exact execEncu_hear x h
  · rfl
  · rcases hi with rfl | rfl
    · exact (acceptCommand_eq_next_iff _ _ _).mpr (.inl ⟨hb, rfl⟩)
    · exact (acceptCommand_eq_next_iff _ _ _).mpr (.inl ⟨hb, rfl⟩)
  · rcases hi with ⟨rfl, rfl⟩ | ⟨rfl, rfl⟩
    · exact (acceptCommand_eq_next_iff _ _ _).mpr (.inr ⟨hb, hk, ha, rfl⟩)
    · exact (acceptCommand_eq_next_iff _ _ _).mpr (.inr ⟨hb, hk, ha, rfl⟩)

/-! ## Paths -/

/-- From `s` the codes in `UPC` decode one after the other to the instructions of the list, which lead to the last
state. -/
def Path : List Instr → State → State → Prop
  | [], s, t => s = t
  | i :: is, s, t => decode (.uop s.upc) = .instr i ∧ ∃ r, exec i s = .next r ∧ Path is r t

theorem path_append {is js : List Instr} {s t r : State} (h : Path is s t) (h2 : Path js t r) : Path (is ++ js) s r := by
  induction is generalizing s with
  | nil => cases h; exact h2
  | cons i is ih => obtain ⟨h1, q, hq, hp⟩ := h; exact ⟨h1, q, hq, ih hp⟩

theorem execAll_of_path {is : List Instr} {s t : State} (h : Path is s t) : execAll is s = .next t := by
  induction is generalizing s with
  | nil => cases h; rfl
  | cons i is ih => obtain ⟨-, q, hq, hp⟩ := h; rw [execAll_cons hq]; exact ih hp

/-- A path without `FIN` and without commands, walked by the engine's turns of the list of moves. -/
theorem runSteps_of_path {is : List Instr} {s t : State} (ms : List HostMove) (hb : s.busy = true)
    (hi : ∀ i ∈ is, i ≠ .fin ∧ i ≠ .hashl ∧ i ≠ .hashu) (h : Path is s t) :
    runSteps is.length (s.withPending (List.replicate is.length .engine ++ ms)) = .next (t.withPending ms) := by
  induction is generalizing s with
  | nil => cases h; rfl
  | cons i is ih =>
    obtain ⟨hd, r, hx, hr⟩ := h
    obtain ⟨h1, h2, h3⟩ := hi i (List.mem_cons_self ..)
    have hs : step (s.withPending (List.replicate (is.length + 1) .engine ++ ms)) =
        .next (r.withPending (List.replicate is.length .engine ++ ms)) := by
      have hd' : decode (.uop (s.withPending (List.replicate is.length .engine ++ ms)).upc) = .instr i := hd
      have hb' : (s.withPending (List.replicate is.length .engine ++ ms)).busy = true := hb
      have hp : (s.withPending (List.replicate (is.length + 1) HostMove.engine ++ ms)).pending =
          .engine :: (List.replicate is.length .engine ++ ms) := by
        rw [State.withPending_pending, List.replicate_succ, List.cons_append]
      rw [step_of_engine_move hp, State.withPending_withPending, engineTurn_of_decode hb' hd']
      exact exec_withPending _ hx
    rw [List.length_cons, runSteps_succ _ hs]
    exact ih ((exec_busy hx h1 h2 h3).trans hb) (fun j hj => hi j (List.mem_cons_of_mem _ hj)) hr

/-- The same where no move is listed. -/
theorem runSteps_of_path_alone {is : List Instr} {s t : State} (hb : s.busy = true) (hp : s.pending = [])
    (hi : ∀ i ∈ is, i ≠ .fin ∧ i ≠ .hashl ∧ i ≠ .hashu) (h : Path is s t) :
    runSteps is.length s = .next t ∧ t.busy = true ∧ t.pending = [] := by
  induction is generalizing s with
  | nil => cases h; exact ⟨rfl, hb, hp⟩
  | cons i is ih =>
    obtain ⟨hd, r, hx, hr⟩ := h
    obtain ⟨h1, h2, h3⟩ := hi i (List.mem_cons_self ..)
    have hs : step s = .next r := by rw [step_of_no_move hp, engineTurn_of_decode hb hd, hx]
    rw [List.length_cons, runSteps_succ _ hs]
    exact ih ((exec_busy hx h1 h2 h3).trans hb) ((exec_pending hx).trans hp)
      (fun j hj => hi j (List.mem_cons_of_mem _ hj)) hr

end Sys2Proof.Machine
end

