-- ==== Sys2Proof/Laws/HostDuty.lean ====
section
/-! SUPPORT. The host that plays the protocol: what it writes, what it hears, and what one turn does. -/

namespace Sys2Proof.Machine

theorem State.status_bit_busy (s : State) : s.status.getLsbD 0 = s.busy := by
  unfold State.status; cases s.busy <;> cases s.done <;> rfl

theorem State.status_bit_done (s : State) : s.status.getLsbD 1 = s.done := by
  unfold State.status; cases s.busy <;> cases s.done <;> rfl

theorem State.hear_getLast (s : State) (x : HostAnswer) : (s.hear x).answers.getLast? = some x := by
  rw [State.hear_answers, List.getLast?_append]; rfl

/-! ## What the host writes -/

theorem messageWrites_length (a : Nat) (m : List Byte) : (messageWrites a m).length = m.length := by
  induction m generalizing a with
  | nil => rfl
  | cons b bs ih => rw [messageWrites, List.length_cons, List.length_cons, ih]

theorem mem_messageWrites (a : Nat) (m : List Byte) (w : HostAccess) :
    w ∈ messageWrites a m ↔ ∃ j b, w = .writeMsg (a + j) b ∧ m[j]? = some b := by
  induction m generalizing a with
  | nil => simp [messageWrites]
  | cons b bs ih =>
    rw [messageWrites, List.mem_cons, ih]
    constructor
    · rintro (rfl | ⟨j, c, rfl, h⟩)
      · exact ⟨0, b, rfl, rfl⟩
      · exact ⟨j + 1, c, by rw [Nat.add_right_comm, Nat.add_assoc], h⟩
    · rintro ⟨j, c, rfl, h⟩
      cases j with
      | zero => cases h; exact .inl rfl
      | succ j => exact .inr ⟨j, c, by rw [Nat.add_right_comm, Nat.add_assoc], h⟩

/-- Whatever the order, the host writes the bytes and the halves of `LEN`, and nothing else, before the command. -/
theorem mem_protocolWrites (o : ProtocolOrder) (upper : Bool) (m : List Byte) (w : HostAccess) :
    w ∈ protocolWrites o upper m ↔
      (∃ a b, w = .writeMsg a b ∧ m[a]? = some b) ∨ w = .writeReg 0x08 (BitVec.ofNat 32 m.length) ∨
      w = .writeReg 0x0C (BitVec.ofNat 32 (m.length / 2 ^ 32)) ∨ w = commandWrite upper := by
  have hm : w ∈ messageWrites 0 m ↔ ∃ a b, w = .writeMsg a b ∧ m[a]? = some b := by
    simp only [mem_messageWrites, Nat.zero_add]
  unfold protocolWrites lengthWrites
  cases o.messageFirst <;> cases o.lowFirst <;> simp [hm, or_left_comm, or_comm, or_assoc]

theorem protocolWrites_length (o : ProtocolOrder) (upper : Bool) (m : List Byte) :
    (protocolWrites o upper m).length = m.length + 3 := by
  unfold protocolWrites lengthWrites
  cases o.messageFirst <;> cases o.lowFirst <;> simp [messageWrites_length]

/-! ## Turns -/

theorem playTurn_engine {c : Client} {s t : State} (h : engineTurn (s.withPending []) = .next t) :
    playTurn .engine c s = .next (c, t) := by
  unfold playTurn
  rw [step_of_no_move (s := s.withPending []) rfl, h]

theorem playTurn_client {c : Client} {s t : State} {a : HostAccess} (ha : clientAccess c = some a)
    (h : hostAccess a (s.withPending []) = .next t) :
    playTurn .client c s = .next (clientHears c t.answers.getLast?, t) := by
  unfold playTurn
  rw [ha]
  dsimp only
  rw [step_of_access (s := s.withPending [.access a]) (ms := []) rfl, State.withPending_withPending, h]

/-- Turns one after the other: the second list goes on from where the first one ended. -/
theorem play_append {xs ys : List ProtocolTurn} {c d : Client} {s t : State} (h : play xs c s = .next (d, t)) :
    play (xs ++ ys) c s = play ys d t := by
  induction xs generalizing c s with
  | nil => cases h; rfl
  | cons x xs ih =>
    rw [play] at h
    rw [List.cons_append, play]
    cases hx : playTurn x c s with
    | next p => rw [hx] at h; exact ih h
    | fault f => rw [hx] at h; cases h
    | refused f => rw [hx] at h; cases h

/-- A path is one whatever the host has heard. -/
theorem path_hear {is : List Instr} {s t : State} (x : HostAnswer) (h : Path is s t) : Path is (s.hear x) (t.hear x) := by
  induction is generalizing s with
  | nil => cases h; rfl
  | cons i is ih => obtain ⟨hd, r, hx, hp⟩ := h; exact ⟨hd, r.hear x, exec_hear x hx, ih hp⟩

end Sys2Proof.Machine
end

