-- ==== Sys2Proof/Laws/Memory.lean ====
section
/-! SUPPORT. The memory operations: a read after a write, and the canonical form kept by every operation. -/

namespace Sys2Proof.Machine

@[simp] theorem Memory.read_write_same (m : Memory) (a : Nat) (v : Byte) : (m.write a v).read a = some v := by
  induction m with
  | nil => simp [Memory.write, Memory.read]
  | cons e m ih =>
    obtain ⟨b, y⟩ := e
    simp only [Memory.write]
    split
    · simp [Memory.read]
    · split
      · simp [Memory.read]
      · simp_all [Memory.read]

theorem Memory.read_write_other (m : Memory) {a b : Nat} (v : Byte) (h : b ≠ a) :
    (m.write a v).read b = m.read b := by
  induction m with
  | nil => simp [Memory.write, Memory.read, h]
  | cons e m ih =>
    obtain ⟨c, y⟩ := e
    simp only [Memory.write]
    split
    · simp [Memory.read, h]
    · split
      · rename_i hc; subst hc; simp [Memory.read, h]
      · simp [Memory.read, ih]

/-- Every entry of a memory after a write is the new one or an old one. -/
theorem Memory.mem_write {m : Memory} {a : Nat} {v : Byte} {e : Host.Cell} (h : e ∈ m.write a v) :
    e = (a, v) ∨ e ∈ m := by
  induction m with
  | nil => simpa [Memory.write] using h
  | cons c m ih =>
    obtain ⟨b, y⟩ := c
    simp only [Memory.write] at h
    split at h
    · simpa using h
    · split at h
      · simp only [List.mem_cons] at h ⊢; tauto
      · simp only [List.mem_cons] at h ⊢
        rcases h with h | h
        · tauto
        · rcases ih h with h | h <;> tauto

theorem Memory.wf_write {m : Memory} (a : Nat) (v : Byte) (h : m.wf) : (m.write a v).wf := by
  induction m with
  | nil => simp [Memory.write, Memory.wf]
  | cons c m ih =>
    obtain ⟨b, y⟩ := c
    obtain ⟨hb, hm⟩ := List.pairwise_cons.mp h
    simp only [Memory.write]
    split
    · rename_i hab
      refine List.pairwise_cons.mpr ⟨fun e he => ?_, h⟩
      rcases List.mem_cons.mp he with rfl | he
      · exact hab
      · exact Nat.lt_trans hab (hb e he)
    · split
      · rename_i hab; subst hab; exact List.pairwise_cons.mpr ⟨hb, hm⟩
      · refine List.pairwise_cons.mpr ⟨fun e he => ?_, ih hm⟩
        rcases Memory.mem_write he with rfl | he
        · dsimp only; omega
        · exact hb e he

theorem Memory.wf_writeFrom {m : Memory} (a : Nat) (vs : List Byte) (h : m.wf) : (m.writeFrom a vs).wf := by
  induction vs generalizing m a with
  | nil => exact h
  | cons v vs ih => exact ih (a + 1) (Memory.wf_write a v h)

/-- What a range write leaves in a cell: the listed byte inside the range, the old contents outside. -/
theorem Memory.read_writeFrom (m : Memory) (a : Nat) (vs : List Byte) (p : Nat) :
    (m.writeFrom a vs).read p = if a ≤ p ∧ p < a + vs.length then vs[p - a]? else m.read p := by
  induction vs generalizing m a with
  | nil => rw [if_neg (by simp)]; rfl
  | cons v vs ih =>
    rw [Memory.writeFrom, ih]
    by_cases hp : p = a
    · subst hp; simp
    · rw [Memory.read_write_other _ _ hp]
      by_cases hr : a + 1 ≤ p ∧ p < a + 1 + vs.length
      · rw [if_pos hr, if_pos (by simp; omega)]
        rw [show p - a = (p - (a + 1)) + 1 by omega]; simp
      · rw [if_neg hr, if_neg (by simp; omega)]

/-- A range that can be read is read cell by cell. -/
theorem Memory.readRange_eq_some_iff (m : Memory) (a n : Nat) (bs : List Byte) :
    m.readRange a n = some bs ↔ bs.length = n ∧ ∀ j, j < n → m.read (a + j) = bs[j]? := by
  induction n generalizing a bs with
  | zero =>
    constructor
    · intro h; simp only [Memory.readRange, Option.some.injEq] at h; subst h; simp
    · rintro ⟨h, -⟩; simp only [Memory.readRange, Option.some.injEq]; exact (List.eq_nil_of_length_eq_zero h).symm
  | succ n ih =>
    simp only [Memory.readRange]
    constructor
    · intro h
      split at h
      · simp at h
      · rename_i b hb
        simp only [Option.map_eq_some_iff] at h
        obtain ⟨cs, hcs, rfl⟩ := h
        obtain ⟨hl, hr⟩ := (ih _ _).mp hcs
        refine ⟨by simp [hl], fun j hj => ?_⟩
        cases j with
        | zero => simpa using hb
        | succ j => rw [show a + (j + 1) = a + 1 + j by omega, hr j (by omega)]; simp
    · rintro ⟨hl, hr⟩
      cases bs with
      | nil => simp at hl
      | cons b bs =>
        have h0 := hr 0 (by omega)
        simp only [Nat.add_zero, List.getElem?_cons_zero] at h0
        rw [h0]
        simp only [Option.map_eq_some_iff]
        refine ⟨bs, (ih _ _).mpr ⟨by simpa using hl, fun j hj => ?_⟩, rfl⟩
        have := hr (j + 1) (by omega)
        rw [show a + (j + 1) = a + 1 + j by omega] at this
        simpa using this

/-- A range cannot be read exactly when one of its cells holds no value. -/
theorem Memory.readRange_eq_none_iff (m : Memory) (a n : Nat) :
    m.readRange a n = none ↔ ∃ j, j < n ∧ m.read (a + j) = none := by
  induction n generalizing a with
  | zero => simp [Memory.readRange]
  | succ n ih =>
    simp only [Memory.readRange]
    constructor
    · intro h
      split at h
      · rename_i h0; exact ⟨0, by omega, by simpa using h0⟩
      · simp only [Option.map_eq_none_iff] at h
        obtain ⟨j, hj, hr⟩ := (ih _).mp h
        exact ⟨j + 1, by omega, by rwa [show a + (j + 1) = a + 1 + j by omega]⟩
    · rintro ⟨j, hj, hr⟩
      cases j with
      | zero => simp only [Nat.add_zero] at hr; rw [hr]
      | succ j =>
        rw [show a + (j + 1) = a + 1 + j by omega] at hr
        rw [(ih _).mpr ⟨j, by omega, hr⟩]
        split <;> simp

end Sys2Proof.Machine
end

