-- ==== Sys2Proof/Laws/Padder.lean ====
section
/-! SUPPORT. The padder's operations on the buffer: lengths, and their agreement with the little-endian assembly of a
byte sequence. -/

namespace Sys2Proof.Machine

/-! ## Lengths -/

theorem packByte_length {j : Nat} (b : Byte) {w : List Word} (h : w.length = (j + 3) / 4) :
    (packByte j b w).length = (j + 1 + 3) / 4 := by
  unfold packByte
  split
  · simp only [List.length_append, List.length_singleton]; omega
  · rw [List.length_modify]; omega

theorem packBytes_length (bs : List Byte) {j : Nat} {w : List Word} (h : w.length = (j + 3) / 4) :
    (packBytes bs j w).length = (j + bs.length + 3) / 4 := by
  induction bs generalizing j w with
  | nil => simpa [packBytes] using h
  | cons b bs ih =>
    rw [packBytes, ih (packByte_length b h), List.length_cons]
    congr 1; omega

theorem packBytes_append (xs ys : List Byte) (j : Nat) (w : List Word) :
    packBytes (xs ++ ys) j w = packBytes ys (j + xs.length) (packBytes xs j w) := by
  induction xs generalizing j w with
  | nil => rfl
  | cons x xs ih =>
    rw [List.cons_append, packBytes, packBytes, ih, List.length_cons]
    congr 1; omega

/-! ## The little-endian assembly -/

theorem packByte_new {j : Nat} (b : Byte) (w : List Word) (h : j % 4 = 0) :
    packByte j b w = w ++ [b.setWidth 32] := if_pos h

theorem packByte_into_last {j q r : Nat} (b : Byte) (w : List Word) (x : Word) (hj : j = 4 * q + r) (h0 : 0 < r)
    (h4 : r < 4) (hw : w.length = q) :
    packByte j b (w ++ [x]) = w ++ [x ||| shl32 (b.setWidth 32) (8 * r)] := by
  subst hj
  rw [packByte, if_neg (by omega), show (4 * q + r) / 4 = w.length by omega, show (4 * q + r) % 4 = r by omega]
  rw [List.modify_eq_set_getElem?]
  simp

theorem leWord_eq_or (b0 b1 b2 b3 : Byte) :
    leWord b0 b1 b2 b3 =
      b0.setWidth 32 ||| shl32 (b1.setWidth 32) 8 ||| shl32 (b2.setWidth 32) 16 ||| shl32 (b3.setWidth 32) 24 := by
  apply BitVec.eq_of_getLsbD_eq
  intro i hi
  have : ∀ b : Byte, ∀ k, 8 ≤ k → b.getLsbD k = false := fun b k hk => BitVec.getLsbD_of_ge b k hk
  simp only [leWord, shl32, BitVec.getLsbD_append, BitVec.getLsbD_or, BitVec.getLsbD_shiftLeft,
    BitVec.getLsbD_setWidth, hi, decide_true, Bool.true_and]
  by_cases h1 : i < 8
  · simp [h1, show i < 16 by omega, show i < 24 by omega]
  · by_cases h2 : i < 16
    · simp [h1, h2, show i < 24 by omega, show i - 8 < 8 by omega, show i - 8 < 32 by omega, this b0 i (by omega)]
    · by_cases h3 : i < 24
      · simp [h1, h2, h3, show ¬ (i - 8 < 8) by omega, show i - 16 < 8 by omega, show i - 8 < 32 by omega,
          show i - 16 < 32 by omega, show i - 8 - 8 = i - 16 by omega, this b0 i (by omega),
          this b1 (i - 8) (by omega)]
      · simp [h1, h2, h3, show ¬ (i - 8 < 8) by omega, show ¬ (i - 8 - 8 < 8) by omega,
          show i - 8 - 8 - 8 = i - 24 by omega, show i - 8 < 32 by omega,
          show i - 16 < 32 by omega, show i - 24 < 32 by omega, this b0 i (by omega),
          this b1 (i - 8) (by omega), this b2 (i - 16) (by omega)]

/-- Packing from a word boundary on appends the little-endian words of the bytes. -/
theorem packBytes_eq_append_wordsLE (bs : List Byte) {j : Nat} {w : List Word} (h4 : j % 4 = 0)
    (hw : w.length = j / 4) : packBytes bs j w = w ++ wordsLE bs := by
  induction bs using wordsLE.induct generalizing j w with
  | case1 => simp [packBytes, wordsLE]
  | case2 b0 => simp [packBytes, wordsLE, packByte_new _ _ h4, leWord_eq_or, shl32]
  | case3 b0 b1 =>
    rw [packBytes, packBytes, packBytes, packByte_new _ _ h4,
      packByte_into_last b1 w _ (q := j / 4) (r := 1) (by omega) (by omega) (by omega) hw]
    simp [wordsLE, leWord_eq_or, shl32]
  | case4 b0 b1 b2 =>
    rw [packBytes, packBytes, packBytes, packBytes, packByte_new _ _ h4,
      packByte_into_last b1 w _ (q := j / 4) (r := 1) (by omega) (by omega) (by omega) hw,
      packByte_into_last b2 w _ (q := j / 4) (r := 2) (by omega) (by omega) (by omega) hw]
    simp [wordsLE, leWord_eq_or, shl32]
  | case5 b0 b1 b2 b3 bs ih =>
    rw [packBytes, packBytes, packBytes, packBytes, packByte_new _ _ h4,
      packByte_into_last b1 w _ (q := j / 4) (r := 1) (by omega) (by omega) (by omega) hw,
      packByte_into_last b2 w _ (q := j / 4) (r := 2) (by omega) (by omega) (by omega) hw,
      packByte_into_last b3 w _ (q := j / 4) (r := 3) (by omega) (by omega) (by omega) hw,
      ih (by omega) (by simp; omega)]
    simp [wordsLE, leWord_eq_or]

theorem packBytes_eq_wordsLE (bs : List Byte) : packBytes bs 0 [] = wordsLE bs := by
  simpa using packBytes_eq_append_wordsLE bs (j := 0) (w := []) rfl rfl

theorem wordsLE_length (bs : List Byte) : (wordsLE bs).length = (bs.length + 3) / 4 := by
  rw [← packBytes_eq_wordsLE]
  simpa using packBytes_length bs (j := 0) (w := []) rfl

/-- Words of a sequence that ends on a word boundary, followed by another. -/
theorem wordsLE_append (xs ys : List Byte) (h : xs.length % 4 = 0) : wordsLE (xs ++ ys) = wordsLE xs ++ wordsLE ys := by
  rw [← packBytes_eq_wordsLE, packBytes_append, packBytes_eq_wordsLE]
  exact packBytes_eq_append_wordsLE ys (by simpa using h) (by rw [wordsLE_length]; omega)

theorem wordsLE_zeros (n : Nat) : wordsLE (List.replicate (4 * n) 0#8) = List.replicate n 0#32 := by
  induction n with
  | zero => rfl
  | succ n ih =>
    rw [show 4 * (n + 1) = 4 * n + 1 + 1 + 1 + 1 by omega]
    simp only [List.replicate_succ, wordsLE, ih]
    rfl

/-- Appending zero words is appending the zero bytes that fill the last word and those words. -/
theorem wordsLE_append_zeros (xs : List Byte) (n z : Nat) (h : xs.length + z = 4 * ((xs.length + 3) / 4 + n)) :
    wordsLE (xs ++ List.replicate z 0) = wordsLE xs ++ List.replicate n 0 := by
  induction xs using wordsLE.induct with
  | case1 => simp only [List.length_nil] at h; rw [show z = 4 * n by omega]; simpa [wordsLE] using wordsLE_zeros n
  | case2 b0 =>
    simp only [List.length_cons, List.length_nil] at h
    rw [show z = 4 * n + 1 + 1 + 1 by omega]
    simp [List.replicate_succ, wordsLE, wordsLE_zeros]
  | case3 b0 b1 =>
    simp only [List.length_cons, List.length_nil] at h
    rw [show z = 4 * n + 1 + 1 by omega]
    simp [List.replicate_succ, wordsLE, wordsLE_zeros]
  | case4 b0 b1 b2 =>
    simp only [List.length_cons, List.length_nil] at h
    rw [show z = 4 * n + 1 by omega]
    simp [List.replicate_succ, wordsLE, wordsLE_zeros]
  | case5 b0 b1 b2 b3 bs ih =>
    simp only [List.length_cons] at h
    simp only [List.cons_append, wordsLE]
    rw [ih (by omega)]

/-- What `MARK` leaves of the words of `m` is the words of `m` followed by the pad byte. -/
theorem packByte_marks (m : List Byte) : packByte m.length 0x80 (wordsLE m) = wordsLE (m ++ [0x80]) := by
  rw [← packBytes_eq_wordsLE, ← packBytes_eq_wordsLE, packBytes_append]
  simp [packBytes]

theorem wordsLE_le64 (v : BitVec 64) : wordsLE (le64 v) = [v.extractLsb' 0 32, v.extractLsb' 32 32] := by
  simp only [le64, wordsLE, leWord, List.cons.injEq, and_true]
  constructor <;>
  · apply BitVec.eq_of_getLsbD_eq
    intro i hi
    simp only [BitVec.getLsbD_append, BitVec.getLsbD_extractLsb', hi, decide_true, Bool.true_and]
    by_cases h1 : i < 8
    · simp [h1]
    · by_cases h2 : i < 16
      · simp [h1, show i - 8 < 8 by omega, show 8 + (i - 8) = i by omega, show 40 + (i - 8) = 32 + i by omega]
      · by_cases h3 : i < 24
        · simp [h1, show ¬ (i - 8 < 8) by omega, show i - 8 - 8 < 8 by omega,
            show 16 + (i - 8 - 8) = i by omega, show 48 + (i - 8 - 8) = 32 + i by omega]
        · simp [h1, show ¬ (i - 8 < 8) by omega, show ¬ (i - 8 - 8 < 8) by omega, show i - 8 - 8 - 8 < 8 by omega,
            show 24 + (i - 8 - 8 - 8) = i by omega, show 56 + (i - 8 - 8 - 8) = 32 + i by omega]

end Sys2Proof.Machine
end

