-- ==== Sys2Proof/Laws/PerInstr.lean ====
section
/-! SUPPORT. Statements made per instruction: the encoder gives every instruction a defined code, in the format
its class has. -/

namespace Sys2Proof.Laws.EncodesDefined

/-- The code is a word for `CTRL`, not a code for `UPC` (spec/30_encoding.md R100). -/
def isCommandWord : Code → Bool
  | .uop _ => false
  | .cmd _ => true

/-- The code of `i` is one of the defined codes (spec/30_encoding.md R115, R116), and it is a command word exactly
when `i` is a command (R100). -/
def Statement (i : Instr) : Prop :=
  (encode i).defined = true ∧ isCommandWord (encode i) = decide (i = .hashl ∨ i = .hashu)

theorem ff0 : Statement .ff0 := ⟨rfl, rfl⟩
theorem ff1 : Statement .ff1 := ⟨rfl, rfl⟩
theorem ff2 : Statement .ff2 := ⟨rfl, rfl⟩
theorem ff3 : Statement .ff3 := ⟨rfl, rfl⟩
theorem ff4 : Statement .ff4 := ⟨rfl, rfl⟩
theorem ff5 : Statement .ff5 := ⟨rfl, rfl⟩
theorem ff6 : Statement .ff6 := ⟨rfl, rfl⟩
theorem ff7 : Statement .ff7 := ⟨rfl, rfl⟩
theorem ff8 : Statement .ff8 := ⟨rfl, rfl⟩
theorem ff9 : Statement .ff9 := ⟨rfl, rfl⟩
theorem ff10 : Statement .ff10 := ⟨rfl, rfl⟩
theorem ff11 : Statement .ff11 := ⟨rfl, rfl⟩
theorem ff12 : Statement .ff12 := ⟨rfl, rfl⟩
theorem ff13 : Statement .ff13 := ⟨rfl, rfl⟩
theorem ff14 : Statement .ff14 := ⟨rfl, rfl⟩
theorem ff15 : Statement .ff15 := ⟨rfl, rfl⟩
theorem gg16 : Statement .gg16 := ⟨rfl, rfl⟩
theorem gg17 : Statement .gg17 := ⟨rfl, rfl⟩
theorem gg18 : Statement .gg18 := ⟨rfl, rfl⟩
theorem gg19 : Statement .gg19 := ⟨rfl, rfl⟩
theorem gg20 : Statement .gg20 := ⟨rfl, rfl⟩
theorem gg21 : Statement .gg21 := ⟨rfl, rfl⟩
theorem gg22 : Statement .gg22 := ⟨rfl, rfl⟩
theorem gg23 : Statement .gg23 := ⟨rfl, rfl⟩
theorem gg24 : Statement .gg24 := ⟨rfl, rfl⟩
theorem gg25 : Statement .gg25 := ⟨rfl, rfl⟩
theorem gg26 : Statement .gg26 := ⟨rfl, rfl⟩
theorem gg27 : Statement .gg27 := ⟨rfl, rfl⟩
theorem gg28 : Statement .gg28 := ⟨rfl, rfl⟩
theorem gg29 : Statement .gg29 := ⟨rfl, rfl⟩
theorem gg30 : Statement .gg30 := ⟨rfl, rfl⟩
theorem gg31 : Statement .gg31 := ⟨rfl, rfl⟩
theorem hh32 : Statement .hh32 := ⟨rfl, rfl⟩
theorem hh33 : Statement .hh33 := ⟨rfl, rfl⟩
theorem hh34 : Statement .hh34 := ⟨rfl, rfl⟩
theorem hh35 : Statement .hh35 := ⟨rfl, rfl⟩
theorem hh36 : Statement .hh36 := ⟨rfl, rfl⟩
theorem hh37 : Statement .hh37 := ⟨rfl, rfl⟩
theorem hh38 : Statement .hh38 := ⟨rfl, rfl⟩
theorem hh39 : Statement .hh39 := ⟨rfl, rfl⟩
theorem hh40 : Statement .hh40 := ⟨rfl, rfl⟩
theorem hh41 : Statement .hh41 := ⟨rfl, rfl⟩
theorem hh42 : Statement .hh42 := ⟨rfl, rfl⟩
theorem hh43 : Statement .hh43 := ⟨rfl, rfl⟩
theorem hh44 : Statement .hh44 := ⟨rfl, rfl⟩
theorem hh45 : Statement .hh45 := ⟨rfl, rfl⟩
theorem hh46 : Statement .hh46 := ⟨rfl, rfl⟩
theorem hh47 : Statement .hh47 := ⟨rfl, rfl⟩
theorem ii48 : Statement .ii48 := ⟨rfl, rfl⟩
theorem ii49 : Statement .ii49 := ⟨rfl, rfl⟩
theorem ii50 : Statement .ii50 := ⟨rfl, rfl⟩
theorem ii51 : Statement .ii51 := ⟨rfl, rfl⟩
theorem ii52 : Statement .ii52 := ⟨rfl, rfl⟩
theorem ii53 : Statement .ii53 := ⟨rfl, rfl⟩
theorem ii54 : Statement .ii54 := ⟨rfl, rfl⟩
theorem ii55 : Statement .ii55 := ⟨rfl, rfl⟩
theorem ii56 : Statement .ii56 := ⟨rfl, rfl⟩
theorem ii57 : Statement .ii57 := ⟨rfl, rfl⟩
theorem ii58 : Statement .ii58 := ⟨rfl, rfl⟩
theorem ii59 : Statement .ii59 := ⟨rfl, rfl⟩
theorem ii60 : Statement .ii60 := ⟨rfl, rfl⟩
theorem ii61 : Statement .ii61 := ⟨rfl, rfl⟩
theorem ii62 : Statement .ii62 := ⟨rfl, rfl⟩
theorem ii63 : Statement .ii63 := ⟨rfl, rfl⟩
theorem pack : Statement .pack := ⟨rfl, rfl⟩
theorem mark : Statement .mark := ⟨rfl, rfl⟩
theorem zext : Statement .zext := ⟨rfl, rfl⟩
theorem lenw : Statement .lenw := ⟨rfl, rfl⟩
theorem init : Statement .init := ⟨rfl, rfl⟩
theorem snap : Statement .snap := ⟨rfl, rfl⟩
theorem chain : Statement .chain := ⟨rfl, rfl⟩
theorem encl : Statement .encl := ⟨rfl, rfl⟩
theorem encu : Statement .encu := ⟨rfl, rfl⟩
theorem fin : Statement .fin := ⟨rfl, rfl⟩
theorem hashl : Statement .hashl := ⟨rfl, rfl⟩
theorem hashu : Statement .hashu := ⟨rfl, rfl⟩

end Sys2Proof.Laws.EncodesDefined
end

