-- ==== Sys2Proof/Tests/Slice0.lean ====
section
/-! SUPPORT. Tests: the checks on syntax, decoding, one step of each family, and for every statement with hypotheses a
state and operands that meet them.
Expected values come from the spec's tables and worked examples, named at each theorem. -/

namespace Sys2Proof.Tests

open Sys2Proof Sys2Proof.Machine Sys2Proof.Stated

-- One theorem at a time: each is checked by the kernel before the next begins.
set_option Elab.async false

/-! ## Helpers -/

/-- The outcome is a next state with property `p`. -/
def leaves (r : Result) (p : State → Bool) : Bool :=
  match r with
  | .next t => p t
  | _       => false

/-- The outcome is this refusal. -/
def refusedAs (r : Result) (x : Refusal) : Bool :=
  match r with
  | .refused y => decide (y = x)
  | _          => false

/-- The outcome is this fault. -/
def faultsAs (r : Result) (x : Fault) : Bool :=
  match r with
  | .fault y => decide (y = x)
  | _        => false

/-- Cells from index `a` on. -/
def cellsFrom : Nat → List Byte → Memory
  | _, [] => []
  | a, b :: bs => (a, b) :: cellsFrom (a + 1) bs

/-- An idle block whose host has loaded the message `m` and its length. -/
def holding (m : List Byte) : State :=
  { State.reset with
    msg := cellsFrom 0 m, lenLo := BitVec.ofNat 32 m.length, lenHi := BitVec.ofNat 32 (m.length / 2 ^ 32),
    lenLoSet := true, lenHiSet := true }

/-- The same in a run, at the micro-operation with code `c`. -/
def running (c : BitVec 8) (m : List Byte) : State := { holding m with busy := true, upc := c }

/-- An idle block with the length `lo + 2^32 * hi` and nothing else. -/
def withLength (hi lo : Word) : State :=
  { State.reset with lenLo := lo, lenHi := hi, lenLoSet := true, lenHiSet := true }

/-- A block whose next move is this host access. -/
def facing (s : State) (a : HostAccess) : State := { s with pending := [.access a] }

/-- `n` words of zero. -/
def zeros (n : Nat) : List Word := List.replicate n 0

/-- Each step from the registers the one before left, in a buffer `w` at block 1. -/
def stepsGive (w : List Word) : Regs → List (Instr × Regs) → Bool
  | _, [] => true
  | q, (i, r) :: rest =>
    leaves (exec i { State.reset with regs := q, w := w, blk := 1 }) (fun t => decide (t.regs = r)) &&
      stepsGive w r rest

/-- The buffer of program P3: 56 bytes 0x61, two blocks (spec/95_test_vectors.md section 3.3). -/
def secondBlock : List Word := List.replicate 14 0x61616161 ++ [0x00000080, 0] ++ zeros 14 ++ [0x000001c0, 0]

theorem read_cellsFrom (bs : List Byte) (a p : Nat) (h : a ≤ p) : (cellsFrom a bs).read p = bs[p - a]? := by
  induction bs generalizing a with
  | nil => rfl
  | cons b bs ih =>
    simp only [cellsFrom, Memory.read]
    by_cases hp : p = a
    · subst hp; simp
    · rw [if_neg hp, ih (a + 1) (by omega), show p - a = (p - (a + 1)) + 1 by omega, List.getElem?_cons_succ]

theorem len_holding (m : List Byte) (h : m.length < 2 ^ 61) : (holding m).len = m.length := by
  rw [State.len_eq]
  simp only [holding, BitVec.toNat_ofNat]
  omega

/-- The state `holding m` holds the message `m`: the hypothesis of the padder's statements. -/
theorem holding_holds (m : List Byte) (h : m.length < 2 ^ 61) : (holding m).HoldsMessage m :=
  ⟨len_holding m h, fun j _ => read_cellsFrom m 0 j (Nat.zero_le _)⟩

/-- An unbounded block meets every bound on its capacity. -/
theorem no_capacity (p : Nat → Prop) : ∀ c, (none : Option Nat) = some c → p c := nofun

/-! ## The checks on syntax: an ill-formed term for each -/

theorem test_reserved_codes_are_not_defined :
    (Code.uop 0x44).defined = false ∧ (Code.uop 0x7F).defined = false ∧ (Code.uop 0x83).defined = false ∧
    (Code.uop 0xBF).defined = false ∧ (Code.uop 0xC3).defined = false ∧ (Code.uop 0xFF).defined = false ∧
    (Code.cmd 0).defined = false ∧ (Code.cmd 2).defined = false ∧ (Code.cmd 5).defined = false ∧
    (Code.cmd 3).defined = true ∧ (Code.uop 0x43).defined = true := by decide

/-- The example of spec/30_encoding.md R120 is row 0; one wrong parameter and there is no such step. -/
theorem test_pseudo_step_with_a_wrong_parameter :
    (PseudoStep.mk .f 0 7 0xd76aa478).wellFormed = true ∧ (PseudoStep.mk .g 0 7 0xd76aa478).wellFormed = false ∧
    (PseudoStep.mk .f 1 7 0xd76aa478).wellFormed = false ∧ (PseudoStep.mk .f 0 8 0xd76aa478).wellFormed = false ∧
    (PseudoStep.mk .f 0 7 0xd76aa479).wellFormed = false ∧ expandPseudo (PseudoStep.mk .f 0 32 0xd76aa478) = none ∧
    expandPseudo (PseudoStep.mk .i 9 21 0xeb86d391) = some .ii63 := by decide

theorem test_message_index_at_the_capacity :
    msgIndexExists (some 3) 2 = true ∧ msgIndexExists (some 3) 3 = false ∧ msgIndexExists (some 0) 0 = false ∧
    msgIndexExists none 3 = true := by decide

theorem test_host_access_to_no_cell :
    (HostAccess.readReg 0x10).wellFormed none = false ∧ (HostAccess.writeReg 0x02 0).wellFormed none = false ∧
    (HostAccess.readMsg 3).wellFormed (some 3) = false ∧ (HostAccess.writeMsg 3 0).wellFormed (some 3) = false ∧
    (HostAccess.readHex 32).wellFormed none = false ∧ (HostAccess.writeHex 32 0).wellFormed none = false ∧
    (HostAccess.readReg 0x0C).wellFormed none = true ∧ (HostAccess.readHex 31).wellFormed none = true := by decide

theorem test_memory_out_of_order :
    ¬ Memory.wf [(1, 0x61), (0, 0x62)] ∧ ¬ Memory.wf [(1, 0x61), (1, 0x62)] ∧ Memory.wf [(0, 0x62), (1, 0x61)] := by
  decide

/-! ## Decoding: words written out from the spec's encodings -/

/-- The codes of round 1: `cls` = 00, `r` = 00, then `j` (spec/30_encoding.md R102, R105). -/
theorem test_decode_ff : [
    (0b00000000#8, Instr.ff0), (0b00000001#8, Instr.ff1), (0b00000010#8, Instr.ff2), (0b00000011#8, Instr.ff3),
    (0b00000100#8, Instr.ff4), (0b00000101#8, Instr.ff5), (0b00000110#8, Instr.ff6), (0b00000111#8, Instr.ff7),
    (0b00001000#8, Instr.ff8), (0b00001001#8, Instr.ff9), (0b00001010#8, Instr.ff10), (0b00001011#8, Instr.ff11),
    (0b00001100#8, Instr.ff12), (0b00001101#8, Instr.ff13), (0b00001110#8, Instr.ff14), (0b00001111#8, Instr.ff15)].all (fun e => decide (decode (.uop e.1) = .instr e.2)) = true := by decide

/-- The codes of round 2: `cls` = 00, `r` = 01, then `j` (spec/30_encoding.md R102, R105). -/
theorem test_decode_gg : [
    (0b00010000#8, Instr.gg16), (0b00010001#8, Instr.gg17), (0b00010010#8, Instr.gg18), (0b00010011#8, Instr.gg19),
    (0b00010100#8, Instr.gg20), (0b00010101#8, Instr.gg21), (0b00010110#8, Instr.gg22), (0b00010111#8, Instr.gg23),
    (0b00011000#8, Instr.gg24), (0b00011001#8, Instr.gg25), (0b00011010#8, Instr.gg26), (0b00011011#8, Instr.gg27),
    (0b00011100#8, Instr.gg28), (0b00011101#8, Instr.gg29), (0b00011110#8, Instr.gg30), (0b00011111#8, Instr.gg31)].all (fun e => decide (decode (.uop e.1) = .instr e.2)) = true := by decide

/-- The codes of round 3: `cls` = 00, `r` = 10, then `j` (spec/30_encoding.md R102, R105). -/
theorem test_decode_hh : [
    (0b00100000#8, Instr.hh32), (0b00100001#8, Instr.hh33), (0b00100010#8, Instr.hh34), (0b00100011#8, Instr.hh35),
    (0b00100100#8, Instr.hh36), (0b00100101#8, Instr.hh37), (0b00100110#8, Instr.hh38), (0b00100111#8, Instr.hh39),
    (0b00101000#8, Instr.hh40), (0b00101001#8, Instr.hh41), (0b00101010#8, Instr.hh42), (0b00101011#8, Instr.hh43),
    (0b00101100#8, Instr.hh44), (0b00101101#8, Instr.hh45), (0b00101110#8, Instr.hh46), (0b00101111#8, Instr.hh47)].all (fun e => decide (decode (.uop e.1) = .instr e.2)) = true := by decide

/-- The codes of round 4: `cls` = 00, `r` = 11, then `j` (spec/30_encoding.md R102, R105). -/
theorem test_decode_ii : [
    (0b00110000#8, Instr.ii48), (0b00110001#8, Instr.ii49), (0b00110010#8, Instr.ii50), (0b00110011#8, Instr.ii51),
    (0b00110100#8, Instr.ii52), (0b00110101#8, Instr.ii53), (0b00110110#8, Instr.ii54), (0b00110111#8, Instr.ii55),
    (0b00111000#8, Instr.ii56), (0b00111001#8, Instr.ii57), (0b00111010#8, Instr.ii58), (0b00111011#8, Instr.ii59),
    (0b00111100#8, Instr.ii60), (0b00111101#8, Instr.ii61), (0b00111110#8, Instr.ii62), (0b00111111#8, Instr.ii63)].all (fun e => decide (decode (.uop e.1) = .instr e.2)) = true := by decide

/-- The codes of classes 01, 10, 11 (spec/30_encoding.md R103, R104). -/
theorem test_decode_padder_core_encoder : [
    (0b01000000#8, Instr.pack), (0b01000001#8, Instr.mark), (0b01000010#8, Instr.zext), (0b01000011#8, Instr.lenw),
    (0b10000000#8, Instr.init), (0b10000001#8, Instr.snap), (0b10000010#8, Instr.chain),
    (0b11000000#8, Instr.encl), (0b11000001#8, Instr.encu), (0b11000010#8, Instr.fin)].all (fun e =>
    decide (decode (.uop e.1) = .instr e.2)) = true := by decide

/-- The command words: bit 0 `START`, bit 1 `UPPER` (spec/30_encoding.md R101, R106, R116). -/
theorem test_decode_commands :
    decode (.cmd 0b00000000000000000000000000000001#32) = .instr .hashl ∧
    decode (.cmd 0b00000000000000000000000000000011#32) = .instr .hashu ∧
    decode (.cmd 0) = .ignored ∧ decode (.cmd 0b10#32) = .ignored ∧ decode (.cmd 0b101#32) = .reserved ∧
    decode (.cmd 0x80000001) = .reserved := by decide

theorem test_table_words :
    decodeTableWord 8 0x82 = some .chain ∧ decodeTableWord 32 3 = some .hashu ∧ decodeTableWord 8 0x44 = none ∧
    decodeTableWord 32 2 = none ∧ decodeTableWord 16 0x82 = none ∧ ofMnemonic "II63" = some .ii63 ∧
    ofMnemonic "ii63" = none := by decide +kernel

/-! ## Primitives (spec/95_test_vectors.md sections 3.1, 3.2) -/

theorem test_add32 :
    add32 0xffffffff 0x00000001 = 0 ∧ add32 0x80000000 0x80000000 = 0 ∧
    add32 0x67452301 0xefcdab89 = 0x5712ce8a ∧ add32 0xffffffff 0xffffffff = 0xfffffffe := by decide

theorem test_rotl32 :
    rotl32 0x80000000 1 = 0x00000001 ∧ rotl32 0xd76aa4f7 7 = 0xb5527beb ∧ rotl32 0x12345678 4 = 0x23456781 ∧
    rotl32 0x12345678 23 = 0x3c091a2b ∧ rotl32 0x80000001 31 = 0xc0000000 ∧ rotl32 0xdeadbeef 0 = 0xdeadbeef := by
  decide

theorem test_nonlinear :
    nonlinear .f 0x12345678 0x9abcdef0 0x0fedcba9 = 0x1ffddff1 ∧
    nonlinear .g 0x12345678 0x9abcdef0 0x0fedcba9 = 0x92345678 ∧
    nonlinear .h 0x12345678 0x9abcdef0 0x0fedcba9 = 0x87654321 ∧
    nonlinear .i 0x12345678 0x9abcdef0 0x0fedcba9 = 0x688aa88e ∧
    nonlinear .f 0xaaaaaaaa 0xcccccccc 0xf0f0f0f0 = 0xd8d8d8d8 ∧
    nonlinear .g 0xaaaaaaaa 0xcccccccc 0xf0f0f0f0 = 0xacacacac ∧
    nonlinear .h 0xaaaaaaaa 0xcccccccc 0xf0f0f0f0 = 0x96969696 ∧
    nonlinear .i 0xaaaaaaaa 0xcccccccc 0xf0f0f0f0 = 0x63636363 := by decide

/-! ## The padder (spec/95_test_vectors.md section 3.3) -/

/-- "密码": `PACK` of the bytes e5 af 86 e7 a0 81. -/
theorem test_pack_two_words :
    leaves (exec .pack (holding [0xe5, 0xaf, 0x86, 0xe7, 0xa0, 0x81]))
      (fun t => decide (t.w = [0xe786afe5, 0x000081a0] ∧ t.upc = 0x41)) = true := by decide +kernel

/-- The empty message leaves an empty buffer (spec/40_padder.md R150). -/
theorem test_pack_empty :
    leaves (exec .pack (holding [])) (fun t => decide (t.w = [] ∧ t.upc = 0x41)) = true := by decide

/-- "abc" and "abcde": the pad byte OR'd into the last word. -/
theorem test_mark_into_a_word :
    leaves (exec .mark { withLength 0 3 with w := [0x00636261] }) (fun t => decide (t.w = [0x80636261])) = true ∧
    leaves (exec .mark { withLength 0 5 with w := [0x64636261, 0x00000065] })
      (fun t => decide (t.w = [0x64636261, 0x00008065])) = true := by decide +kernel

/-- "abcd" and 56 bytes: the pad byte in a new word. -/
theorem test_mark_a_new_word :
    leaves (exec .mark { withLength 0 4 with w := [0x64636261] })
      (fun t => decide (t.w = [0x64636261, 0x00000080] ∧ t.upc = 0x42)) = true ∧
    leaves (exec .mark { withLength 0 56 with w := List.replicate 14 0x61616161 })
      (fun t => decide (t.w[14]? = some 0x00000080 ∧ t.w.length = 15)) = true := by decide +kernel

/-- 55 bytes: none; 56 bytes: fifteen; "a": thirteen. -/
theorem test_zext :
    leaves (exec .zext { withLength 0 55 with w := zeros 14 }) (fun t => decide (t.w.length = 14)) = true ∧
    leaves (exec .zext { withLength 0 56 with w := zeros 15 }) (fun t => decide (t.w.length = 30)) = true ∧
    leaves (exec .zext { withLength 0 1 with w := [0x00008061] })
      (fun t => decide (t.w = 0x00008061 :: zeros 13 ∧ t.upc = 0x43)) = true := by decide +kernel

/-- The trailers of long messages: a true 64-bit split. -/
theorem test_lenw : [
    ((0x00000000 : Word), (0x1fffffff : Word), (0xfffffff8 : Word), (0x00000000 : Word)), (0, 0x20000000, 0, 1),
    (1, 0, 0, 8), (1, 5, 0x28, 8), (0x1fffffff, 0xffffffff, 0xfffffff8, 0xffffffff)].all (fun e =>
      leaves (exec .lenw { withLength e.1 e.2.1 with w := zeros 14 })
        (fun t => decide (t.w = zeros 14 ++ [e.2.2.1, e.2.2.2] ∧ t.upc = 0x80))) = true := by decide +kernel

/-! ## The compression core (spec/95_test_vectors.md sections 3.4, 5) -/

theorem test_init :
    leaves (exec .init { State.reset with blk := 5 }) (fun t =>
      decide (t.regs = ⟨0x67452301, 0xefcdab89, 0x98badcfe, 0x10325476⟩ ∧ t.blk = 0 ∧ t.upc = 0x81)) = true := by
  decide

theorem test_snap :
    leaves (exec .snap { State.reset with regs := ⟨1, 2, 3, 4⟩, snap := ⟨5, 6, 7, 8⟩ }) (fun t =>
      decide (t.snap = ⟨1, 2, 3, 4⟩ ∧ t.regs = ⟨1, 2, 3, 4⟩ ∧ t.upc = 0x00)) = true := by decide

/-- The last block of two, and of one. -/
theorem test_chain_to_encl :
    leaves (exec .chain { State.reset with
      regs := ⟨0x80000000, 0x80000000, 0, 1⟩, snap := ⟨0x80000000, 0x80000001, 0, 0xffffffff⟩,
      w := zeros 32, blk := 1 }) (fun t =>
      decide (t.regs = ⟨0, 1, 0, 0⟩ ∧ t.blk = 1 ∧ t.upc = 0xC0)) = true ∧
    leaves (exec .chain { State.reset with
      regs := ⟨0x310ade8f, 0xc08226b3, 0xe484b9d8, 0x624d8cb2⟩,
      snap := ⟨0x67452301, 0xefcdab89, 0x98badcfe, 0x10325476⟩ }) (fun t =>
      decide (t.regs = ⟨0x98500190, 0xb04fd23c, 0x7d3f96d6, 0x727fe128⟩ ∧ t.blk = 0 ∧ t.upc = 0xC0)) = true := by
  decide +kernel

theorem test_chain_to_the_next_block :
    leaves (exec .chain { State.reset with
      regs := ⟨0xffffffff, 0xffffffff, 0xffffffff, 0xffffffff⟩, snap := ⟨1, 2, 3, 4⟩, w := zeros 32 }) (fun t =>
      decide (t.regs = ⟨0, 1, 2, 3⟩ ∧ t.blk = 1 ∧ t.upc = 0x81)) = true := by decide +kernel

/-- The steps of round 1 on block 1 of program P3: each from the registers the line before leaves
(spec/95_test_vectors.md P3, Trace B). -/
theorem test_ff_trace : stepsGive secondBlock ⟨0x3bf7335f, 0x122cdb68, 0xb14e7896, 0xf4455e95⟩ [
    (.ff0, ⟨0xf4455e95, 0xe9c7116b, 0x122cdb68, 0xb14e7896⟩),
    (.ff1, ⟨0xb14e7896, 0x82c5903c, 0xe9c7116b, 0x122cdb68⟩),
    (.ff2, ⟨0x122cdb68, 0x0c785cf4, 0x82c5903c, 0xe9c7116b⟩),
    (.ff3, ⟨0xe9c7116b, 0xf1e5c962, 0x0c785cf4, 0x82c5903c⟩),
    (.ff4, ⟨0x82c5903c, 0xc3a294d2, 0xf1e5c962, 0x0c785cf4⟩),
    (.ff5, ⟨0x0c785cf4, 0x258f5e56, 0xc3a294d2, 0xf1e5c962⟩),
    (.ff6, ⟨0xf1e5c962, 0x96826b6c, 0x258f5e56, 0xc3a294d2⟩),
    (.ff7, ⟨0xc3a294d2, 0xe4cf9f3b, 0x96826b6c, 0x258f5e56⟩),
    (.ff8, ⟨0x258f5e56, 0x378c2a94, 0xe4cf9f3b, 0x96826b6c⟩),
    (.ff9, ⟨0x96826b6c, 0x61a3ffea, 0x378c2a94, 0xe4cf9f3b⟩),
    (.ff10, ⟨0xe4cf9f3b, 0x45007885, 0x61a3ffea, 0x378c2a94⟩),
    (.ff11, ⟨0x378c2a94, 0xa778e6c1, 0x45007885, 0x61a3ffea⟩),
    (.ff12, ⟨0x61a3ffea, 0xf75397b5, 0xa778e6c1, 0x45007885⟩),
    (.ff13, ⟨0x45007885, 0xcd53781d, 0xf75397b5, 0xa778e6c1⟩),
    (.ff14, ⟨0xa778e6c1, 0x76a51e07, 0xcd53781d, 0xf75397b5⟩),
    (.ff15, ⟨0xf75397b5, 0x9c92be29, 0x76a51e07, 0xcd53781d⟩)] = true := by decide +kernel

/-- The steps of round 1 from registers and words of zero: each leaves only `B` (the zero-state examples of the rules). -/
theorem test_ff_zero_state : [
    (Instr.ff0, (0xb5523c6b : Word)), (Instr.ff1, (0x7b756e8c : Word)), (Instr.ff2, (0xe1b64840 : Word)), (Instr.ff3, (0xbbb06f73 : Word)),
    (Instr.ff4, (0xbe07d7fa : Word)), (Instr.ff5, (0x7c62a478 : Word)), (Instr.ff6, (0x8c275060 : Word)), (Instr.ff7, (0x407f51a5 : Word)),
    (Instr.ff8, (0xc04c6c34 : Word)), (Instr.ff9, (0x4f7af8b4 : Word)), (Instr.ff10, (0xb763fffe : Word)), (Instr.ff11, (0xefa25735 : Word)),
    (Instr.ff12, (0xc8089135 : Word)), (Instr.ff13, (0x87193fd9 : Word)), (Instr.ff14, (0x871d4cf2 : Word)), (Instr.ff15, (0x08526d02 : Word))].all (fun e =>
    leaves (exec e.1 State.reset) (fun t => decide (t.regs = ⟨0, e.2, 0, 0⟩))) = true := by decide +kernel

/-- The steps of round 2 on block 1 of program P3: each from the registers the line before leaves
(spec/95_test_vectors.md P3, Trace B). -/
theorem test_gg_trace : stepsGive secondBlock ⟨0xf75397b5, 0x9c92be29, 0x76a51e07, 0xcd53781d⟩ [
    (.gg16, ⟨0xcd53781d, 0x2192227e, 0x9c92be29, 0x76a51e07⟩),
    (.gg17, ⟨0x76a51e07, 0x6f2d38ea, 0x2192227e, 0x9c92be29⟩),
    (.gg18, ⟨0x9c92be29, 0x5b62eb6a, 0x6f2d38ea, 0x2192227e⟩),
    (.gg19, ⟨0x2192227e, 0x674042f6, 0x5b62eb6a, 0x6f2d38ea⟩),
    (.gg20, ⟨0x6f2d38ea, 0x47bf1aa3, 0x674042f6, 0x5b62eb6a⟩),
    (.gg21, ⟨0x5b62eb6a, 0x6e6f0254, 0x47bf1aa3, 0x674042f6⟩),
    (.gg22, ⟨0x674042f6, 0x697f2914, 0x6e6f0254, 0x47bf1aa3⟩),
    (.gg23, ⟨0x47bf1aa3, 0xdaaab248, 0x697f2914, 0x6e6f0254⟩),
    (.gg24, ⟨0x6e6f0254, 0x760d2b7e, 0xdaaab248, 0x697f2914⟩),
    (.gg25, ⟨0x697f2914, 0xdd9bb7c6, 0x760d2b7e, 0xdaaab248⟩),
    (.gg26, ⟨0xdaaab248, 0xda200e7e, 0xdd9bb7c6, 0x760d2b7e⟩),
    (.gg27, ⟨0x760d2b7e, 0x3d5fc7f4, 0xda200e7e, 0xdd9bb7c6⟩),
    (.gg28, ⟨0xdd9bb7c6, 0x22f457db, 0x3d5fc7f4, 0xda200e7e⟩),
    (.gg29, ⟨0xda200e7e, 0x393b87df, 0x22f457db, 0x3d5fc7f4⟩),
    (.gg30, ⟨0x3d5fc7f4, 0xe3892731, 0x393b87df, 0x22f457db⟩),
    (.gg31, ⟨0x22f457db, 0x9cb9888a, 0xe3892731, 0x393b87df⟩)] = true := by decide +kernel

/-- The steps of round 2 from registers and words of zero: each leaves only `B` (the zero-state examples of the rules). -/
theorem test_gg_zero_state : [
    (Instr.gg16, (0xc3c4ac5e : Word)), (Instr.gg17, (0x81668180 : Word)), (Instr.gg18, (0x96944997 : Word)), (Instr.gg19, (0x7aae9b6c : Word)),
    (Instr.gg20, (0xc5e20bba : Word)), (Instr.gg21, (0x8828a604 : Word)), (Instr.gg22, (0x79a07628 : Word)), (Instr.gg23, (0xbc8e7d3f : Word)),
    (Instr.gg24, (0x3c39bcc4 : Word)), (Instr.gg25, (0x6e0fad86 : Word)), (Instr.gg26, (0x4361fd35 : Word)), (Instr.gg27, (0x4ed455a1 : Word)),
    (Instr.gg28, (0x3c7d20b5 : Word)), (Instr.gg29, (0xdf47f1f9 : Word)), (Instr.gg30, (0xc0b659db : Word)), (Instr.gg31, (0xc8a8d2a4 : Word))].all (fun e =>
    leaves (exec e.1 State.reset) (fun t => decide (t.regs = ⟨0, e.2, 0, 0⟩))) = true := by decide +kernel

/-- The steps of round 3 on block 1 of program P3: each from the registers the line before leaves
(spec/95_test_vectors.md P3, Trace B). -/
theorem test_hh_trace : stepsGive secondBlock ⟨0x22f457db, 0x9cb9888a, 0xe3892731, 0x393b87df⟩ [
    (.hh32, ⟨0x393b87df, 0x2c5520a0, 0x9cb9888a, 0xe3892731⟩),
    (.hh33, ⟨0xe3892731, 0xc4c0f940, 0x2c5520a0, 0x9cb9888a⟩),
    (.hh34, ⟨0x9cb9888a, 0x9e7ebe92, 0xc4c0f940, 0x2c5520a0⟩),
    (.hh35, ⟨0x2c5520a0, 0x828783a6, 0x9e7ebe92, 0xc4c0f940⟩),
    (.hh36, ⟨0xc4c0f940, 0x17647930, 0x828783a6, 0x9e7ebe92⟩),
    (.hh37, ⟨0x9e7ebe92, 0xffcbe211, 0x17647930, 0x828783a6⟩),
    (.hh38, ⟨0x828783a6, 0x2245e173, 0xffcbe211, 0x17647930⟩),
    (.hh39, ⟨0x17647930, 0x564bfa50, 0x2245e173, 0xffcbe211⟩),
    (.hh40, ⟨0xffcbe211, 0x12ab0cdc, 0x564bfa50, 0x2245e173⟩),
    (.hh41, ⟨0x2245e173, 0xa3bb5f64, 0x12ab0cdc, 0x564bfa50⟩),
    (.hh42, ⟨0x564bfa50, 0x5f9c3df4, 0xa3bb5f64, 0x12ab0cdc⟩),
    (.hh43, ⟨0x12ab0cdc, 0x3040ee36, 0x5f9c3df4, 0xa3bb5f64⟩),
    (.hh44, ⟨0xa3bb5f64, 0xbeb789f1, 0x3040ee36, 0x5f9c3df4⟩),
    (.hh45, ⟨0x5f9c3df4, 0xd1536cd1, 0xbeb789f1, 0x3040ee36⟩),
    (.hh46, ⟨0x3040ee36, 0x97564bb3, 0xd1536cd1, 0xbeb789f1⟩),
    (.hh47, ⟨0xbeb789f1, 0x2ecd1bac, 0x97564bb3, 0xd1536cd1⟩)] = true := by decide +kernel

/-- The steps of round 3 from registers and words of zero: each leaves only `B` (the zero-state examples of the rules). -/
theorem test_hh_zero_state : [
    (Instr.hh32, (0xffa3942f : Word)), (Instr.hh33, (0x8fb40c3b : Word)), (Instr.hh34, (0x61226d9d : Word)), (Instr.hh35, (0x067ef29c : Word)),
    (Instr.hh36, (0x4beea44a : Word)), (Instr.hh37, (0xf67d4a5e : Word)), (Instr.hh38, (0x4b60f6bb : Word)), (Instr.hh39, (0x385f5fde : Word)),
    (Instr.hh40, (0x89b7ec62 : Word)), (Instr.hh41, (0x093fd755 : Word)), (Instr.hh42, (0x3085d4ef : Word)), (Instr.hh43, (0x8282440e : Word)),
    (Instr.hh44, (0x9d4d039d : Word)), (Instr.hh45, (0xdccf2f36 : Word)), (Instr.hh46, (0x7cf81fa2 : Word)), (Instr.hh47, (0x32e2562b : Word))].all (fun e =>
    leaves (exec e.1 State.reset) (fun t => decide (t.regs = ⟨0, e.2, 0, 0⟩))) = true := by decide +kernel

/-- The steps of round 4 on block 1 of program P3: each from the registers the line before leaves
(spec/95_test_vectors.md P3, Trace B). -/
theorem test_ii_trace : stepsGive secondBlock ⟨0xbeb789f1, 0x2ecd1bac, 0x97564bb3, 0xd1536cd1⟩ [
    (.ii48, ⟨0xd1536cd1, 0x55ec3047, 0x2ecd1bac, 0x97564bb3⟩),
    (.ii49, ⟨0x97564bb3, 0xd25d5de5, 0x55ec3047, 0x2ecd1bac⟩),
    (.ii50, ⟨0x2ecd1bac, 0xf1c2c2a4, 0xd25d5de5, 0x55ec3047⟩),
    (.ii51, ⟨0x55ec3047, 0xb98d608d, 0xf1c2c2a4, 0xd25d5de5⟩),
    (.ii52, ⟨0xd25d5de5, 0xa6b7f1ce, 0xb98d608d, 0xf1c2c2a4⟩),
    (.ii53, ⟨0xf1c2c2a4, 0x19d717b0, 0xa6b7f1ce, 0xb98d608d⟩),
    (.ii54, ⟨0xb98d608d, 0xac860d29, 0x19d717b0, 0xa6b7f1ce⟩),
    (.ii55, ⟨0xa6b7f1ce, 0x896a7283, 0xac860d29, 0x19d717b0⟩),
    (.ii56, ⟨0x19d717b0, 0x1cc47359, 0x896a7283, 0xac860d29⟩),
    (.ii57, ⟨0xac860d29, 0x8ac42713, 0x1cc47359, 0x896a7283⟩),
    (.ii58, ⟨0x896a7283, 0x20f5bfdf, 0x8ac42713, 0x1cc47359⟩),
    (.ii59, ⟨0x1cc47359, 0xc2fdd5a2, 0x20f5bfdf, 0x8ac42713⟩),
    (.ii60, ⟨0x8ac42713, 0x8b92d8dc, 0xc2fdd5a2, 0x20f5bfdf⟩),
    (.ii61, ⟨0x20f5bfdf, 0x242d7271, 0x8b92d8dc, 0xc2fdd5a2⟩),
    (.ii62, ⟨0xc2fdd5a2, 0xbecaf3b6, 0x242d7271, 0x8b92d8dc⟩),
    (.ii63, ⟨0x8b92d8dc, 0x9dfc1c9b, 0xbecaf3b6, 0x242d7271⟩)] = true := by decide +kernel

/-- The steps of round 4 from registers and words of zero: each leaves only `B` (the zero-state examples of the rules). -/
theorem test_ii_zero_state : [
    (Instr.ii48, (0x0a4890fd : Word)), (Instr.ii49, (0xabfe590c : Word)), (Instr.ii50, (0x11d355ca : Word)), (Instr.ii51, (0x071f9274 : Word)),
    (Instr.ii52, (0x56d67099 : Word)), (Instr.ii53, (0x3332463c : Word)), (Instr.ii54, (0xfa3e7ff7 : Word)), (Instr.ii55, (0xba10b08b : Word)),
    (Instr.ii56, (0xea1f939b : Word)), (Instr.ii57, (0xb39b7ff8 : Word)), (Instr.ii58, (0xa189d180 : Word)), (Instr.ii59, (0x3409c102 : Word)),
    (Instr.ii60, (0xd4dfa07d : Word)), (Instr.ii61, (0xebc8d2f4 : Word)), (Instr.ii62, (0xe95d156b : Word)), (Instr.ii63, (0x721d70da : Word))].all (fun e =>
    leaves (exec e.1 State.reset) (fun t => decide (t.regs = ⟨0, e.2, 0, 0⟩))) = true := by decide +kernel

/-- Steps with one word in the buffer that is not zero, at the place the row names; all registers different
(spec/95_test_vectors.md section 3.4, rows GG20, HH40, II60). -/
theorem test_message_word_of_a_step : [
    (Instr.gg20, 5, (0xd27aec7a : Word)), (.hh40, 13, 0x55db8942), (.ii60, 4, 0xfcef2f27)].all (fun e =>
    leaves (exec e.1 { State.reset with
      regs := ⟨0x12345678, 0x9abcdef0, 0x0fedcba9, 0x87654321⟩, w := (zeros 32).set (16 + e.2.1) 0xdeadbeef, blk := 1 })
      (fun t => decide (t.regs = ⟨0x87654321, e.2.2, 0x9abcdef0, 0x0fedcba9⟩))) = true := by decide +kernel

/-- The successors at the ends of the rounds (spec/46_chain_sequencer.md R271). -/
theorem test_successor_of_a_step : [
    (Instr.ff0, (0x01 : BitVec 8)), (.ff15, 0x10), (.gg31, 0x20), (.hh47, 0x30), (.ii62, 0x3F), (.ii63, 0x82)].all
    (fun e => leaves (exec e.1 State.reset) (fun t => decide (t.upc = e.2))) = true := by decide +kernel

/-- A word past the buffer does not exist (log 11). -/
theorem test_step_past_the_buffer :
    faultsAs (exec .ff15 { State.reset with blk := 1 }) (.noSuchWord 31) = true := by decide +kernel

/-! ## The encoder (spec/95_test_vectors.md section 3.6) -/

/-- The registers of S1: "d41d...427e". -/
theorem test_encl :
    leaves (exec .encl { State.reset with regs := ⟨0xd98c1dd4, 0x04b2008f, 0x980980e9, 0x7e42f8ec⟩ }) (fun t =>
      decide (t.hex.map (fun e => e.2) =
        [0x64, 0x34, 0x31, 0x64, 0x38, 0x63, 0x64, 0x39, 0x38, 0x66, 0x30, 0x30, 0x62, 0x32, 0x30, 0x34,
         0x65, 0x39, 0x38, 0x30, 0x30, 0x39, 0x39, 0x38, 0x65, 0x63, 0x66, 0x38, 0x34, 0x32, 0x37, 0x65] ∧
        t.upc = 0xC2)) = true := by decide +kernel

/-- A single nibble 0xa at each end of a byte; with `U = 1` the next is `ENCU`. -/
theorem test_encl_places :
    leaves (exec .encl { State.reset with regs := ⟨0x0000000a, 0x000000a0, 0x0a000000, 0xa0000000⟩, u := true })
      (fun t => decide (((t.hex.filter (fun e => decide (e.2 ≠ 0x30))).map (fun e => (e.1, e.2))) =
        [(1, 0x61), (8, 0x61), (23, 0x61), (30, 0x61)] ∧ t.upc = 0xC1)) = true := by decide +kernel

/-- `ENCU` on the lowercase alphabet. -/
theorem test_encu :
    leaves (exec .encu { State.reset with hex := cellsFrom 0 (hexRom ++ hexRom) }) (fun t =>
      decide (t.hex.map (fun e => e.2) =
        [0x30, 0x31, 0x32, 0x33, 0x34, 0x35, 0x36, 0x37, 0x38, 0x39, 0x41, 0x42, 0x43, 0x44, 0x45, 0x46,
         0x30, 0x31, 0x32, 0x33, 0x34, 0x35, 0x36, 0x37, 0x38, 0x39, 0x41, 0x42, 0x43, 0x44, 0x45, 0x46] ∧
        t.upc = 0xC2)) = true := by decide +kernel

theorem test_up : up 0x30 = 0x30 ∧ up 0x39 = 0x39 ∧ up 0x61 = 0x41 ∧ up 0x66 = 0x46 := by decide +kernel

theorem test_fin :
    leaves (exec .fin (running 0xC2 [])) (fun t => decide (t.busy = false ∧ t.done = true ∧ t.upc = 0xC2)) = true := by
  decide

/-! ## Commands and host accesses (spec/95_test_vectors.md section 3.7) -/

theorem test_hashl_accepted :
    leaves (step (facing (withLength 0 3) (.writeReg 0x00 0x00000001))) (fun t =>
      decide (t.busy = true ∧ t.done = false ∧ t.u = false ∧ t.upc = 0x40)) = true := by decide +kernel

theorem test_hashu_accepted :
    leaves (step (facing { withLength 0 3 with done := true } (.writeReg 0x00 0x00000003))) (fun t =>
      decide (t.busy = true ∧ t.done = false ∧ t.u = true ∧ t.upc = 0x40)) = true := by decide +kernel

theorem test_commands_turned_away :
    leaves (step (facing { withLength 0 3 with done := true } (.writeReg 0x00 0x00000002)))
      (fun t => decide (t.done = true ∧ t.busy = false)) = true ∧
    leaves (step (facing (running 0x10 []) (.writeReg 0x00 0x00000003))) (fun t =>
      decide (t.u = false ∧ t.upc = 0x10)) = true ∧
    refusedAs (step (facing (withLength 0 3) (.writeReg 0x00 0x00000005))) (.reservedCommand 5) = true ∧
    refusedAs (step (facing (withLength 0 3) (.writeReg 0x00 0x80000001))) (.reservedCommand 0x80000001) = true ∧
    refusedAs (step (facing (withLength 0x20000000 0) (.writeReg 0x00 0x00000001))) .lengthOutOfRange = true ∧
    refusedAs (step (facing { withLength 0 3 with lenHiSet := false } (.writeReg 0x00 0x00000001)))
      .lengthOutOfRange = true := by decide +kernel

theorem test_status :
    leaves (step (facing (running 0x00 []) (.readReg 0x04))) (fun t => decide (t.answers = [.word 1])) = true ∧
    leaves (step (facing { State.reset with done := true } (.readReg 0x04)))
      (fun t => decide (t.answers = [.word 2])) = true ∧
    leaves (step (facing State.reset (.readReg 0x04))) (fun t => decide (t.answers = [.word 0])) = true := by
  decide +kernel

theorem test_host_accesses_refused :
    refusedAs (step (facing (running 0x00 []) (.writeMsg 0 0x41))) .inputWhileBusy = true ∧
    refusedAs (step (facing (running 0x00 []) (.writeReg 0x08 4))) .inputWhileBusy = true ∧
    refusedAs (step (facing State.reset (.readHex 0))) .resultNotReady = true ∧
    refusedAs (step (facing State.reset (.readReg 0x10))) (.reservedRegister 0x10) = true := by decide +kernel

/-- `MSG` and `LEN` written, then read back. -/
theorem test_store_and_read :
    leaves (step (facing State.reset (.writeMsg 7 0x61))) (fun t => decide (t.msg = [(7, 0x61)])) = true ∧
    leaves (step (facing (holding [0x61, 0x62]) (.readMsg 1))) (fun t => decide (t.answers = [.byte 0x62])) = true ∧
    leaves (step (facing State.reset (.writeReg 0x0C 9))) (fun t => decide (t.lenHi = 9 ∧ t.lenHiSet = true)) = true ∧
    leaves (step (facing (withLength 8 9) (.readReg 0x08))) (fun t => decide (t.answers = [.word 9])) = true ∧
    leaves (step (facing State.reset (.readReg 0x0C))) (fun t => decide (t.answers.length = 1 ∧ t.busy = false)) = true := by
  decide +kernel

/-! ## Fetching from reset (log 12) -/

theorem test_first_step_runs_the_word :
    leaves (step (State.reset.withFetchWord 8 0x80)) (fun t => decide (t.regs.a = 0x67452301)) = true ∧
    leaves (step (State.reset.withFetchWord 32 0x00000003)) (fun t => decide (t.busy = true ∧ t.u = true)) = true := by
  decide +kernel

/-! ## Whole messages by the closed form (spec/95_test_vectors.md sections 1.1, 4) -/

/-- S2 "a": 0cc175b9c0f1b6a831c399e269772661. -/
theorem test_digest_of_a :
    compress (pad [0x61]) = ⟨0xb975c10c, 0xa8b6f1c0, 0xe299c331, 0x61267769⟩ := by decide +kernel

/-- T1, 64 different bytes 01 02 .. 40, which catches a wrong word index of any step. -/
theorem test_digest_of_64_bytes :
    compress (pad ((List.range 64).map (fun j => BitVec.ofNat 8 (j + 1)))) =
      ⟨0xbf45e850, 0xee0fc7e6, 0x50b53a66, 0x11c4d00f⟩ := by decide +kernel

/-- "密码" as code points and as UTF-16 units gives e5 af 86 e7 a0 81 (V1); an unpaired surrogate gives nothing. -/
theorem test_utf8 :
    utf8String [0x5BC6, 0x7801] = some [0xe5, 0xaf, 0x86, 0xe7, 0xa0, 0x81] ∧
    ofUtf16 [0x5BC6, 0x7801] = some [0x5BC6, 0x7801] ∧ ofUtf16 [0xD83D, 0xDE00] = some [0x1F600] ∧
    utf8 0x1F600 = some [0xf0, 0x9f, 0x98, 0x80] ∧ ofUtf16 [0xD83D] = none ∧ utf8 0xD800 = none ∧
    utf8 0x110000 = none := by decide +kernel

/-! ## The host protocol (spec/48_commands.md R312) -/

/-- The writes of one byte, with the length first and its high half first. -/
theorem test_protocol_writes :
    protocolWrites ⟨false, false⟩ true [0x61] =
      [.writeReg 0x0C 0, .writeReg 0x08 1, .writeMsg 0 0x61, .writeReg 0x00 0x00000003] ∧
    protocolWrites ⟨true, true⟩ false [0x61] =
      [.writeMsg 0 0x61, .writeReg 0x08 1, .writeReg 0x0C 0, .writeReg 0x00 0x00000001] := by decide +kernel

/-- The host goes on from step 1 at `BUSY = 0` and from step 6 at `DONE = 1` only, and ends with the cell 31. -/
theorem test_client_waits :
    (clientHears ⟨.waitIdle, [], []⟩ (some (.word 1))).phase = .waitIdle ∧
    (clientHears ⟨.waitIdle, [.writeReg 0x00 1], []⟩ (some (.word 2))).phase = .writing [.writeReg 0x00 1] ∧
    (clientHears ⟨.writing [.writeReg 0x00 1], [], []⟩ none).phase = .waitDone ∧
    (clientHears ⟨.waitDone, [], []⟩ (some (.word 1))).phase = .waitDone ∧
    (clientHears ⟨.waitDone, [], []⟩ (some (.word 2))).phase = .reading 0 ∧
    clientHears ⟨.reading 31, [], [0x61]⟩ (some (.byte 0x62)) = ⟨.finished, [], [0x61, 0x62]⟩ := by decide +kernel

/-- A string with no UTF-8 form is not submitted. -/
theorem test_submit : submit ⟨true, true⟩ false [0xD800] = none := by decide +kernel

/-! ## Witnesses: a state and operands that meet the hypotheses of each statement -/

theorem witness_engine_turn_of_a_step :
    EngineTurn (running 0x3F []) [] ∧ (running 0x3F []).busy = true ∧ decode (.uop 0x3F) = .instr .ii63 ∧
    Instr.ii63.wellFormed = true ∧ EngineTurn { running 0x3F [] with pending := [.engine, .reset] } [.reset] :=
  ⟨.inl ⟨rfl, rfl⟩, rfl, by decide, rfl, .inr rfl⟩

theorem witness_command_written :
    HostTurn (facing State.reset (.writeReg 0x00 3)) (.writeReg 0x00 3) [] ∧ decode (.cmd 3) = .instr .hashu ∧
    Instr.hashu.wellFormed = true := ⟨rfl, by decide, rfl⟩

theorem witness_reserved_code :
    EngineTurn (running 0x44 []) [] ∧ (running 0x44 []).busy = true ∧ decode (.uop (running 0x44 []).upc) = .reserved ∧
    leaves (step (running 0x81 [])) (fun _ => true) = true ∧ decode (.uop (running 0x81 []).upc) ≠ .reserved :=
  ⟨.inl ⟨rfl, rfl⟩, rfl, by decide, by decide, by decide⟩

theorem witness_other_command_words :
    (∀ v : Word, HostTurn (facing State.reset (.writeReg 0x00 v)) (.writeReg 0x00 v) []) ∧
    (0x00000004 : Word).getLsbD 2 = true ∧ (0x80000000 : Word).getLsbD 31 = true ∧
    (0xffffffff : Word) ≠ 0 ∧ (0xffffffff : Word) ≠ 1 ∧ (0xffffffff : Word) ≠ 2 ∧ (0xffffffff : Word) ≠ 3 :=
  ⟨fun _ => rfl, by decide, by decide, by decide, by decide, by decide, by decide⟩

theorem witness_rotation : 1 ≤ (31 : Fin 32).val ∧ (0 : Fin 32).val = 0 ∧ 31 < 32 := by decide

theorem witness_reset_move :
    { State.reset with pending := [.reset, .engine] }.pending = HostMove.reset :: [.engine] ∧
    EngineTurn State.reset [] ∧ HostTurn (facing State.reset (.readReg 0x04)) (.readReg 0x04) [] :=
  ⟨rfl, .inl ⟨rfl, rfl⟩, rfl⟩

/-- Messages of no byte, of one, and as long as the capacity. -/
theorem witness_messages :
    (holding []).HoldsMessage [] ∧ WithinCapacity (holding []) ∧
    ({ holding [0x61] with msgCap := some 1 } : State).HoldsMessage [0x61] ∧
    WithinCapacity { holding [0x61] with msgCap := some 1 } ∧ (holding [0x61]).len < 2 ^ 61 :=
  ⟨holding_holds [] (by decide), no_capacity _, holding_holds [0x61] (by decide),
    fun _ h => (by cases h; decide), by decide⟩

theorem witness_unwritten_byte : 0 < (withLength 0 1).len ∧ (withLength 0 1).msg.read 0 = none := by decide

theorem witness_mark :
    ((withLength 0 0).len % 4 = 0 ∧ BufferHolds (withLength 0 0) ((withLength 0 0).w.length + 1)) ∧
    ((withLength 0 63).len % 4 ≠ 0 ∧ (withLength 0 63).len / 4 < (withLength 0 63).w.length) ∧
    (({ withLength 0 3 with w := [0] } : State).w.length = ((withLength 0 3).len + 3) / 4 ∧
      WithinCapacity { withLength 0 3 with w := [0] }) :=
  ⟨⟨by decide, no_capacity _⟩, by decide, by decide, no_capacity _⟩

/-- Lengths 52, 55, 56 and 59. -/
theorem witness_zext :
    BufferHolds (withLength 0 55) (max (withLength 0 55).w.length (16 * (((withLength 0 55).len + 8) / 64 + 1) - 2)) ∧
    (∀ e ∈ [((52 : Word), 14), (55, 14), (56, 15), (59, 15)],
      (zeros e.2).length = (withLength 0 e.1).len / 4 + 1) ∧ WithinCapacity (withLength 0 55) ∧
    (withLength 0 52).len % 64 = 52 ∧ (withLength 0 55).len % 64 = 55 ∧ (withLength 0 56).len % 64 = 56 ∧
    (withLength 0 59).len % 64 = 59 :=
  ⟨no_capacity _, by decide, no_capacity _, by decide, by decide, by decide, by decide⟩

/-- The longest admitted length, and the first that is not. -/
theorem witness_lenw :
    BufferHolds (withLength 0 0) ((withLength 0 0).w.length + 2) ∧ (withLength 0x1fffffff 0xffffffff).len < 2 ^ 61 ∧
    ¬ (withLength 0x20000000 0).len < 2 ^ 61 := ⟨no_capacity _, by decide, by decide⟩

/-- A capacity of 0 bytes leaves a buffer of 16 words. -/
theorem witness_padder_stops :
    ((withLength 0 67).len % 4 ≠ 0 ∧ (withLength 0 67).w.length ≤ (withLength 0 67).len / 4) ∧
    ¬ BufferHolds { withLength 0 0 with msgCap := some 0 } 17 ∧
    ¬ BufferHolds { withLength 0 56 with msgCap := some 0 }
      (max (withLength 0 56).w.length (16 * (((withLength 0 56).len + 8) / 64 + 1) - 2)) ∧
    ¬ BufferHolds { withLength 0 0 with msgCap := some 0 } 18 ∧
    (({ holding (List.replicate 65 0) with msgCap := some 0 } : State).HoldsMessage (List.replicate 65 0) ∧
      ¬ BufferHolds { holding (List.replicate 65 0) with msgCap := some 0 }
        (((holding (List.replicate 65 0)).len + 3) / 4)) :=
  ⟨by decide, fun h => absurd (h 0 rfl) (by decide), fun h => absurd (h 0 rfl) (by decide),
    fun h => absurd (h 0 rfl) (by decide), holding_holds (List.replicate 65 0) (by simp),
    fun h => absurd (h 0 rfl) (by
      rw [len_holding _ (by simp)]; simp)⟩

/-- Messages of every length of the table of boundaries. -/
theorem witness_boundary_lengths : ∀ n ∈ [0, 1, 3, 4, 55, 56, 63, 64, 119, 120],
    (holding (List.replicate n 0x61)).HoldsMessage (List.replicate n 0x61) ∧
    (List.replicate n (0x61 : Byte)).length = n ∧ WithinCapacity (holding (List.replicate n 0x61)) := by
  intro n hn
  have h : n < 2 ^ 61 := by
    have : n ≤ 120 := by revert n; decide
    omega
  exact ⟨holding_holds _ (by simpa using h), List.length_replicate, no_capacity _⟩

theorem witness_chain :
    ({ State.reset with w := zeros 32 } : State).blk + 1 < ({ State.reset with w := zeros 32 } : State).w.length / 16 ∧
    ¬ State.reset.blk + 1 < State.reset.w.length / 16 := by decide

/-- Every row of every round has its message word in a block that is there. -/
theorem witness_round_steps : ∀ row ∈ roundOne ++ roundTwo ++ roundThree ++ roundFour,
    16 * State.reset.blk + row.k < State.reset.w.length := by decide

theorem witness_one_message_word :
    ((zeros 15 ++ [7])[16 * 0 + 15]? = ((zeros 8 ++ [0, 1, 2, 3, 4, 5, 6, 7]))[16 * 0 + 15]? ∧
      leaves (exec (stepInstr 15) { State.reset with w := zeros 8 ++ [0, 1, 2, 3, 4, 5, 6, 7] }) (fun _ => true) = true) ∧
    ({ State.reset with blk := 1 } : State).w.length ≤ 16 * 1 + (kOf 0).val := by decide +kernel

theorem witness_block_pass : (zeros 16).length = 16 ∧ 16 * State.reset.blk + 16 ≤ State.reset.w.length ∧ 1 ≤ 1 ∧
    State.reset.w.length = 16 * 1 ∧ ({ State.reset with w := zeros 48 } : State).w.length = 16 * 3 := by decide

/-- Both alphabets at their ends, and a `HEX` that holds digits everywhere. -/
theorem witness_hex_digits :
    (∀ c ∈ [(0x30 : Byte), 0x39, 0x61, 0x66], lowerHexDigit c = true) ∧
    (∀ c ∈ [(0x30 : Byte), 0x39, 0x41, 0x46], upperHexDigit c = true) ∧
    (cellsFrom 0 (hexRom ++ hexRom)).read 31 = some 0x66 ∧
    ({ State.reset with hex := cellsFrom 0 (hexRom ++ hexRom) } : State).HexHolds
      (fun c => lowerHexDigit c || upperHexDigit c) :=
  ⟨by decide, by decide, by decide, fun p hp => by
    have h : ∀ q : Fin 32, ∃ b ∈ hexRom, (cellsFrom 0 (hexRom ++ hexRom)).read q.val = some b := by decide +kernel
    have hd : ∀ b ∈ hexRom, (lowerHexDigit b || upperHexDigit b) = true := by decide
    obtain ⟨b, hm, hb⟩ := h ⟨p, hp⟩
    exact ⟨b, hb, hd b hm⟩⟩

theorem witness_fin : EngineTurn (running 0xC2 []) [] := .inl ⟨rfl, rfl⟩

theorem witness_same_output : hexl State.reset.regs = hexl State.reset.regs ∧
    hexu State.reset.regs = hexu State.reset.regs := ⟨rfl, rfl⟩

/-- Every row of the table of successors, with both outcomes of `CHAIN` and of `ENCL`. -/
theorem witness_successors :
    [((0x40 : BitVec 8), zeros 16, false), (0x41, zeros 16, false), (0x42, zeros 16, false), (0x43, zeros 16, false),
     (0x80, zeros 16, false), (0x81, zeros 16, false), (0x00, zeros 16, false), (0x3E, zeros 16, false),
     (0x3F, zeros 16, false), (0x82, zeros 32, false), (0x82, zeros 16, false), (0xC0, zeros 16, true),
     (0xC0, zeros 16, false), (0xC1, zeros 16, true), (0xC2, zeros 16, false)].all (fun e =>
      match decode (.uop e.1) with
      | .instr i => leaves (exec i { running e.1 [] with w := e.2.1, u := e.2.2 }) (fun _ => true)
      | _        => false) = true := by decide +kernel

/-- A run about to begin, on no byte and on two blocks. -/
theorem witness_run :
    (running 0x40 []).pending = [] ∧ (running 0x40 []).busy = true ∧ (running 0x40 []).upc = 0x40 ∧
    (running 0x40 []).HoldsMessage [] ∧ lengthAdmitted (running 0x40 []).msgCap (running 0x40 []).len = true ∧
    (running 0x40 (List.replicate 56 0x61)).HoldsMessage (List.replicate 56 0x61) :=
  ⟨rfl, rfl, rfl, holding_holds [] (by decide), by decide, holding_holds (List.replicate 56 0x61) (by simp)⟩

/-- One state for each branch of the acceptance of a command, in the order of its tests. -/
theorem witness_command_branches :
    (∀ (s : State) (v : Word), HostTurn (facing s (.writeReg 0x00 v)) (.writeReg 0x00 v) []) ∧
    (4 : Word).toNat / 4 ≠ 0 ∧ ((3 : Word).toNat / 4 = 0 ∧ (2 : Word).toNat % 2 = 0) ∧ (running 0x40 []).busy = true ∧
    (State.reset.lenLoSet = false ∧ ({ withLength 0 1 with lenHiSet := false } : State).lenHiSet = false ∧
      2 ^ 61 ≤ (0x20000000 : Word).toNat * 2 ^ 32 + (0 : Word).toNat ∧ 0 < (withLength 0 1).len) ∧
    ((withLength 0x1fffffff 0xffffffff).busy = false ∧ (withLength 0x1fffffff 0xffffffff).lenLoSet = true ∧
      (withLength 0x1fffffff 0xffffffff).lenHiSet = true ∧ (withLength 0x1fffffff 0xffffffff).len < 2 ^ 61 ∧
      WithinCapacity (withLength 0x1fffffff 0xffffffff)) :=
  ⟨fun _ _ => rfl, by decide, by decide, rfl, by decide, rfl, rfl, rfl, by decide, no_capacity _⟩

theorem witness_status_read : HostTurn (facing (running 0x00 []) (.readReg 0x04)) (.readReg 0x04) [] := rfl

theorem witness_length_halves :
    HostTurn (facing State.reset (.writeReg 0x08 5)) (.writeReg 0x08 5) [] ∧
    HostTurn (facing State.reset (.writeReg 0x0C 5)) (.writeReg 0x0C 5) [] ∧
    HostTurn (facing State.reset (.readReg 0x08)) (.readReg 0x08) [] ∧
    HostTurn (facing State.reset (.readReg 0x0C)) (.readReg 0x0C) [] ∧
    State.reset.busy = false ∧ leaves (exec .snap State.reset) (fun _ => true) = true ∧
    ({ State.reset with pending := [.access (.writeReg 0x08 1), .access (.writeReg 0x0C 2)] } : State).pending =
      [.access (.writeReg 0x08 1), .access (.writeReg 0x0C 2)] := ⟨rfl, rfl, rfl, rfl, rfl, by decide, rfl⟩

/-- The last cell below a capacity of 1, and the first at it. -/
theorem witness_message_cells :
    (∀ (s : State) (a : HostAccess), HostTurn (facing s a) a []) ∧ State.reset.busy = false ∧
    (∀ c, ({ State.reset with msgCap := some 1 } : State).msgCap = some c → 0 < c) ∧ (running 0x40 []).busy = true ∧
    (∃ c, ({ State.reset with msgCap := some 1 } : State).msgCap = some c ∧ c ≤ 1) ∧
    (holding [0x61]).msg.read 0 = some 0x61 ∧ (∀ c, (holding [0x61]).msgCap = some c → 0 < c) :=
  ⟨fun _ _ => rfl, rfl, fun c h => (by cases h; decide), rfl, ⟨1, rfl, by decide⟩, by decide, no_capacity _⟩

theorem witness_result_cells :
    (∀ (s : State) (a : HostAccess), HostTurn (facing s a) a []) ∧ 31 < 32 ∧ 32 ≤ 32 ∧
    ({ State.reset with done := true, hex := [(31, 0x66)] } : State).done = true ∧
    ({ State.reset with done := true, hex := [(31, 0x66)] } : State).hex.read 31 = some 0x66 ∧
    State.reset.done = false := ⟨fun _ _ => rfl, by decide, by decide, rfl, by decide, rfl⟩

theorem witness_reserved_offsets :
    (∀ (s : State) (a : HostAccess), HostTurn (facing s a) a []) ∧ 0x10 ≠ 0x00 ∧ 0x10 ≠ 0x04 ∧ 0x10 ≠ 0x08 ∧
    0x10 ≠ 0x0C ∧ (1 : Nat) ≠ 0x00 := ⟨fun _ _ => rfl, by decide, by decide, by decide, by decide, by decide⟩

/-- Each kind of host access answers a next state somewhere, two of them in a run. -/
theorem witness_host_accesses :
    leaves (hostAccess (.readReg 0x04) (running 0x40 [])) (fun _ => true) = true ∧
    leaves (hostAccess (.readMsg 0) (running 0x40 [0x61])) (fun _ => true) = true ∧
    leaves (hostAccess (.readHex 0) { State.reset with done := true, hex := [(0, 0x66)] }) (fun _ => true) = true ∧
    leaves (hostAccess (.writeReg 0x08 1) State.reset) (fun _ => true) = true ∧
    leaves (hostAccess (.writeMsg 0 1) State.reset) (fun _ => true) = true ∧
    leaves (hostAccess (.writeReg 0x00 1) (holding [])) (fun _ => true) = true := by decide +kernel

/-- Every instruction answers a next state somewhere. -/
theorem witness_every_instruction_completes :
    allInstrs.all (fun i => leaves (exec i (holding [0x61])) (fun _ => true)) = true := by decide +kernel

theorem witness_memories :
    Memory.wf [(0, 0x61), (5, 0x62)] ∧ (∀ a, Memory.read [(0, 0x61)] a = Memory.read [(0, 0x61)] a) ∧ 0 ≠ 5 :=
  ⟨by decide, fun _ => rfl, by decide⟩

/-- A run at `PACK` meets the invariant, whatever the message holds. -/
theorem witness_invariant_in_a_run (n : Word) : ({ withLength 0 n with busy := true, upc := 0x40 } : State).Inv where
  msgWf := List.Pairwise.nil
  hexWf := List.Pairwise.nil
  msgCells := nofun
  hexCells := nofun
  capBound := no_capacity _
  bufferFits := rfl
  notBoth := by rintro ⟨-, h⟩; cases h
  running := fun _ => ⟨rfl, by
    have h : ({ withLength 0 n with busy := true, upc := 0x40 } : State).len < 2 ^ 61 := by
      rw [State.len_eq]; simp only [withLength]
      have := n.isLt; simp; omega
    simp only [lengthAdmitted, Bool.and_eq_true, decide_eq_true_eq]
    exact ⟨h, rfl⟩, by simp [State.Phase]⟩
  finished := nofun

/-- The engine's turn in states that meet the invariant: one that goes on, one that waits for a byte never written. -/
theorem witness_engine_turns :
    EngineTurn { withLength 0 0 with busy := true, upc := 0x40 } [] ∧
    leaves (step { withLength 0 0 with busy := true, upc := 0x40 }) (fun _ => true) = true ∧
    EngineTurn { withLength 0 1 with busy := true, upc := 0x40 } [] ∧
    refusedAs (step { withLength 0 1 with busy := true, upc := 0x40 }) .messageUnwritten = true :=
  ⟨.inl ⟨rfl, rfl⟩, by decide +kernel, .inl ⟨rfl, rfl⟩, by decide +kernel⟩

/-- A loaded block whose host writes `HASHU`. -/
theorem witness_hash_of_a_message :
    (facing (holding [0x61]) (.writeReg 0x00 (commandWord true))).pending =
      [.access (.writeReg 0x00 (commandWord true))] ∧
    (facing (holding [0x61]) (.writeReg 0x00 (commandWord true))).HoldsMessage [0x61] ∧
    (holding [0x61]).busy = false ∧ (holding [0x61]).lenLoSet = true ∧ (holding [0x61]).lenHiSet = true ∧
    WithinCapacity (holding [0x61]) ∧ (holding [0x61]).len < 2 ^ 61 :=
  ⟨rfl, holding_holds [0x61] (by decide), rfl, rfl, rfl, no_capacity _, by decide⟩

/-- The whole protocol in front of the block after reset, and a host about to submit the string "a" to it or to a block
in a run. -/
theorem witness_protocol :
    ({ State.reset with pending := hostProtocol ⟨true, false⟩ false [0x61] 73 } : State).pending =
      hostProtocol ⟨true, false⟩ false [0x61]
        (66 * ((([0x61] : List Byte).length + 8) / 64 + 1) + 7 + (if false then 1 else 0)) ∧
    State.reset.busy = false ∧ ([0x61] : List Byte).length < 2 ^ 61 ∧
    (∀ c, State.reset.msgCap = some c → ([0x61] : List Byte).length ≤ c) ∧
    submit ⟨true, false⟩ false [0x61] = some (submitBytes ⟨true, false⟩ false [0x61]) ∧
    utf8String [0x61] = some [0x61] ∧
    ({ withLength 0 0 with busy := true, upc := 0x40 } : State).busy = true ∧
    (∀ j, j < ({ withLength 0 0 with busy := true, upc := 0x40 } : State).len →
      ∃ b, ({ withLength 0 0 with busy := true, upc := 0x40 } : State).msg.read j = some b) :=
  ⟨rfl, rfl, by decide, no_capacity _, by decide +kernel, by decide +kernel, rfl, fun j h => by
    have hl : ({ withLength 0 0 with busy := true, upc := 0x40 } : State).len = 0 := by decide
    omega⟩

/-- Two states that agree on the message and on nothing else. -/
theorem witness_two_runs :
    (running 0x40 [0x61]).pending = [] ∧ (running 0x40 [0x61]).busy = true ∧ (running 0x40 [0x61]).upc = 0x40 ∧
    lengthAdmitted (running 0x40 [0x61]).msgCap (running 0x40 [0x61]).len = true ∧
    (∀ j, j < (running 0x40 [0x61]).len → (running 0x40 [0x61]).msg.read j =
      ({ running 0x40 [0x61] with
        regs := ⟨1, 2, 3, 4⟩, w := [9], blk := 7, hex := [(3, 0x20)],
        msg := cellsFrom 0 [0x61, 0x77] } : State).msg.read j) :=
  ⟨rfl, rfl, rfl, by decide, fun j h => by
    have hl : (running 0x40 [0x61]).len = 1 := by decide
    obtain rfl : j = 0 := by omega
    rfl⟩

end Sys2Proof.Tests
end

section
/-! PROOFS. The scope's primitives: wrapping addition (spec/00_scope.md R10), rotation (R12), and the memories by what
they read (R15, spec/20_memory.md R84). -/

namespace Sys2Proof.Machine

/-! ## Addition -/

theorem add32_toNat (x y : Word) : (add32 x y).toNat = (x.toNat + y.toNat) % 2 ^ 32 := BitVec.toNat_add x y

theorem add32_comm (x y : Word) : add32 x y = add32 y x := BitVec.add_comm x y

theorem add32_assoc (x y z : Word) : add32 (add32 x y) z = add32 x (add32 y z) := BitVec.add_assoc x y z

/-- Settles O9, by the library's facts about addition of bit vectors. -/
theorem additionIsModuloTwoToThe32 : Obligations.AdditionIsModuloTwoToThe32 :=
  fun x y z => ⟨add32_toNat x y, add32_comm x y, add32_assoc x y z⟩

/-! ## Rotation -/

/-- The model's rotation is the library's, so that the library's facts apply to it. -/
theorem rotl32_eq_rotateLeft (x : Word) (s : Fin 32) : rotl32 x s = x.rotateLeft s.val := by
  rw [BitVec.rotateLeft_def, Nat.mod_eq_of_lt s.isLt, rotl32]

/-- For amount 0 nothing is shifted left, and the right shift by the whole width leaves nothing. -/
theorem rotl32_of_val_eq_zero (x : Word) {s : Fin 32} (h : s.val = 0) : rotl32 x s = x := by
  rw [rotl32, h, BitVec.shiftLeft_zero, BitVec.ushiftRight_eq_zero (Nat.le_refl 32), BitVec.or_zero]

/-- The bits shifted out on the left stand below the bits that stay, so that the two halves are joined by a sum
(spec/00_scope.md R12). For `s = 0` the formula holds as well: the second half is 0. -/
theorem rotl32_toNat (x : Word) (s : Fin 32) : (rotl32 x s).toNat = Stated.rotated x.toNat s.val := by
  have hsplit : 2 ^ s.val * 2 ^ (32 - s.val) = 2 ^ 32 := by
    rw [← Nat.pow_add, Nat.add_sub_cancel' s.isLt.le]
  have hhigh : x.toNat * 2 ^ s.val % 2 ^ 32 = 2 ^ s.val * (x.toNat % 2 ^ (32 - s.val)) := by
    rw [Nat.mul_comm, ← hsplit, Nat.mul_mod_mul_left]
  have hlow : x.toNat / 2 ^ (32 - s.val) < 2 ^ s.val :=
    Nat.div_lt_of_lt_mul (by rw [Nat.mul_comm, hsplit]; exact x.isLt)
  calc (rotl32 x s).toNat
      = x.toNat * 2 ^ s.val % 2 ^ 32 ||| x.toNat / 2 ^ (32 - s.val) := by
        rw [rotl32, BitVec.toNat_or, BitVec.toNat_shiftLeft, BitVec.toNat_ushiftRight, Nat.shiftLeft_eq,
          Nat.shiftRight_eq_div_pow]
    _ = x.toNat * 2 ^ s.val % 2 ^ 32 + x.toNat / 2 ^ (32 - s.val) := by
        rw [hhigh, Nat.two_pow_add_eq_or_of_lt hlow]

/-- A bit either moves up by `s` places or, when that leaves the word, comes in again from below. -/
theorem rotl32_getLsbD (x : Word) (s : Fin 32) {n : Nat} (hn : n < 32) :
    (rotl32 x s).getLsbD ((n + s.val) % 32) = x.getLsbD n := by
  have hs := s.isLt
  rw [rotl32_eq_rotateLeft, BitVec.getLsbD_rotateLeft_of_le hs]
  by_cases hw : n + s.val < 32
  · have hstays : ¬ n + s.val < s.val := by omega
    rw [Nat.mod_eq_of_lt hw]
    simp [hstays, hw]
  · have hwraps : (n + s.val) % 32 = n + s.val - 32 := by omega
    have hbelow : n + s.val - 32 < s.val := by omega
    have hback : 32 - s.val + (n + s.val - 32) = n := by omega
    simp [hwraps, hbelow, hback]

/-- Settles O10, by splitting the word at bit `32 - s`: the sum of the two halves, and the place each bit moves to. -/
theorem rotationMovesEveryBit : Obligations.RotationMovesEveryBit :=
  fun x s => ⟨fun _ => rotl32_toNat x s, rotl32_of_val_eq_zero x, fun _ hn => rotl32_getLsbD x s hn⟩

/-! ## Memories by what they read -/

@[simp] theorem Memory.read_nil (a : Nat) : Memory.read [] a = none := rfl

theorem Memory.read_cons (b : Nat) (v : Byte) (m : Memory) (a : Nat) :
    Memory.read ((b, v) :: m) a = if a = b then some v else m.read a := rfl

theorem Memory.read_cons_same (b : Nat) (v : Byte) (m : Memory) :
    Memory.read ((b, v) :: m) b = some v := if_pos rfl

/-- In one formula what `read_write_same` and `read_write_other` say. -/
theorem Memory.read_write (m : Memory) (a : Nat) (v : Byte) (c : Nat) :
    (m.write a v).read c = if c = a then some v else m.read c := by
  by_cases h : c = a
  · subst h; rw [Memory.read_write_same, if_pos rfl]
  · rw [Memory.read_write_other m v h, if_neg h]

/-- A cell below every listed one holds no value. -/
theorem Memory.read_eq_none_of_lt {m : Memory} {a : Nat} (h : ∀ e ∈ m, a < e.1) : m.read a = none := by
  induction m with
  | nil => rfl
  | cons e m ih =>
    obtain ⟨hae, hm⟩ := List.forall_mem_cons.mp h
    rw [Memory.read_cons, if_neg (Nat.ne_of_lt hae), ih hm]

/-- The first index of a canonical memory is read as listed, and every smaller one holds no value. So of two memories
that read the same, neither has the smaller first index. -/
theorem Memory.head_le_of_read_eq {a b : Nat} {x y : Byte} {m n : Memory} (hn : Memory.wf ((b, y) :: n))
    (h : ∀ c, Memory.read ((a, x) :: m) c = Memory.read ((b, y) :: n) c) : b ≤ a := by
  by_contra! hab
  have hnone : Memory.read ((b, y) :: n) a = none :=
    Memory.read_eq_none_of_lt
      (List.forall_mem_cons.mpr ⟨hab, fun e he => Nat.lt_trans hab (List.rel_of_pairwise_cons hn he)⟩)
  have hsome : Memory.read ((a, x) :: m) a = some x := Memory.read_cons_same a x m
  rw [h a, hnone] at hsome
  cases hsome

/-- Memories in canonical form are their readings: both lists must begin with the same entry, and below it the tails
read the same (spec/20_memory.md R84). -/
theorem Memory.eq_of_read_eq {m n : Memory} (hm : m.wf) (hn : n.wf) (h : ∀ a, m.read a = n.read a) : m = n := by
  induction m generalizing n with
  | nil =>
    cases n with
    | nil => rfl
    | cons e n =>
      obtain ⟨b, y⟩ := e
      simpa [Memory.read_cons_same] using h b
  | cons d m ih =>
    obtain ⟨a, x⟩ := d
    cases n with
    | nil => simpa [Memory.read_cons_same] using h a
    | cons e n =>
      obtain ⟨b, y⟩ := e
      obtain rfl : a = b :=
        Nat.le_antisymm (Memory.head_le_of_read_eq hm fun c => (h c).symm) (Memory.head_le_of_read_eq hn h)
      obtain rfl : x = y := by simpa [Memory.read_cons_same] using h a
      obtain ⟨ham, hm⟩ := List.pairwise_cons.mp hm
      obtain ⟨han, hn⟩ := List.pairwise_cons.mp hn
      have htail : ∀ c, Memory.read m c = Memory.read n c := fun c => by
        by_cases hc : c = a
        · subst hc; rw [Memory.read_eq_none_of_lt ham, Memory.read_eq_none_of_lt han]
        · simpa only [Memory.read_cons, if_neg hc] using h c
      rw [ih hm hn htail]

/-- Writes to two cells commute. -/
theorem Memory.write_comm {m : Memory} (hm : m.wf) {a b : Nat} (x y : Byte) (hab : a ≠ b) :
    (m.write a x).write b y = (m.write b y).write a x := by
  refine Memory.eq_of_read_eq (Memory.wf_write b y (Memory.wf_write a x hm))
    (Memory.wf_write a x (Memory.wf_write b y hm)) fun c => ?_
  simp only [Memory.read_write]
  by_cases hca : c = a
  · have hcb : c ≠ b := hca ▸ hab
    rw [if_neg hcb, if_pos hca, if_pos hca]
  · rw [if_neg hca, if_neg hca]

/-- Of two writes to one cell the later stands. -/
theorem Memory.write_write_same {m : Memory} (hm : m.wf) (a : Nat) (x y : Byte) :
    (m.write a x).write a y = m.write a y := by
  refine Memory.eq_of_read_eq (Memory.wf_write a y (Memory.wf_write a x hm)) (Memory.wf_write a y hm) fun c => ?_
  simp only [Memory.read_write]
  by_cases hc : c = a
  · rw [if_pos hc, if_pos hc]
  · rw [if_neg hc, if_neg hc, if_neg hc]

/-- Settles O51: extensionality by induction on the two lists, and from it the order of writes by what a read
after them returns. -/
theorem memoryIsCanonical : Obligations.MemoryIsCanonical :=
  ⟨fun _ _ hm hn h => Memory.eq_of_read_eq hm hn h, fun _ a _ x y hm =>
    ⟨Memory.wf_write a x hm, Memory.write_comm hm x y, Memory.write_write_same hm a x y⟩⟩

end Sys2Proof.Machine
end

section
/-! PROOFS. The invariant (spec/10_state.md R61): it holds after reset and every turn keeps it. -/

namespace Sys2Proof.Machine

/-! ## The code that decodes to an instruction -/

/-- A code that decodes to an instruction is the code the encoder gives it. -/
theorem encode_of_decode_uop {c : BitVec 8} {i : Instr} (h : decode (.uop c) = .instr i) : encode i = .uop c := by
  have hall : ∀ c : BitVec 8,
      (match decode (.uop c) with | .instr j => decide (encode j = .uop c) | _ => true) = true := by decide
  have hc := hall c
  rw [h] at hc
  exact of_decide_eq_true hc

theorem encode_stepInstr (k : Fin 64) : encode (stepInstr k) = .uop (BitVec.ofNat 8 k.val) := by
  revert k; decide

/-- The code in `UPC` is that of the instruction it decodes to. -/
theorem upc_of_decode {s : State} {i : Instr} {c : BitVec 8} (h : decode (.uop s.upc) = .instr i)
    (hc : encode i = .uop c) : s.upc = c :=
  Code.uop.inj ((encode_of_decode_uop h).symm.trans hc)

/-- No code in `UPC` decodes to a command. -/
theorem decode_uop_ne_command {c : BitVec 8} {i : Instr} (h : decode (.uop c) = .instr i) :
    i ≠ .hashl ∧ i ≠ .hashu := by
  have hc := encode_of_decode_uop h
  constructor
  · rintro rfl; cases hc
  · rintro rfl; cases hc

/-! ## The digits the encoder writes -/

theorem hexl_length (r : Regs) : (hexl r).length = 32 := rfl

theorem lowerHexDigit_hexDigit (v : BitVec 4) : lowerHexDigit (hexDigit v) = true := by
  revert v; decide

theorem lowerHexDigit_of_mem_hexl {r : Regs} {b : Byte} (h : b ∈ hexl r) : lowerHexDigit b = true := by
  obtain ⟨d, -, hd⟩ := List.mem_flatMap.mp h
  rcases List.mem_pair.mp hd with rfl | rfl
  · exact lowerHexDigit_hexDigit _
  · exact lowerHexDigit_hexDigit _

/-- `up` takes the lowercase alphabet to the uppercase one (spec/47_encoder.md R294, R296). -/
theorem upperHexDigit_up {b : Byte} (h : lowerHexDigit b = true) : upperHexDigit (up b) = true := by
  have hb := b.isLt
  rw [lowerHexDigit, decide_eq_true_eq] at h
  rw [upperHexDigit, decide_eq_true_eq, up]
  rcases h with h | h
  · rw [if_neg (by omega), if_pos h]; exact .inl h
  · rw [if_pos h]
    have hsub : (b - 0x20).toNat = b.toNat - 0x20 := by bv_omega
    right; omega

/-- A memory with the listed bytes written over cells 0 to 31. -/
theorem Memory.read_writeFrom_zero (m : Memory) {vs : List Byte} (hl : vs.length = 32) (p : Nat) :
    (m.writeFrom 0 vs).read p = if p < 32 then vs[p]? else m.read p := by
  rw [Memory.read_writeFrom, hl]; simp

theorem Memory.read_writeFrom_beyond (m : Memory) {vs : List Byte} (hl : vs.length = 32) {p : Nat} (hp : 32 ≤ p) :
    (m.writeFrom 0 vs).read p = m.read p :=
  (Memory.read_writeFrom_zero m hl p).trans (if_neg hp.not_gt)

theorem State.hexByte_of_read {s : State} {p : Nat} {b : Byte} (h : s.hex.read p = some b) : s.hexByte p = b := by
  rw [State.hexByte, h]

/-- 32 admitted codes written to `HEX` are there. -/
theorem State.hexHolds_writeFrom {s : State} {ok : Byte → Bool} {vs : List Byte} {c : BitVec 8} (hl : vs.length = 32)
    (hok : ∀ b ∈ vs, ok b = true) : ((s.withHex (s.hex.writeFrom 0 vs)).withUpc c).HexHolds ok := fun p hp => by
  have hv : p < vs.length := hl ▸ hp
  refine ⟨vs[p], ?_, hok _ (List.getElem_mem hv)⟩
  rw [State.withUpc_hex, State.withHex_hex, Memory.read_writeFrom_zero _ hl, if_pos hp, List.getElem?_eq_getElem hv]

/-! ## The invariant after each kind of update -/

/-- The engine writes only its own registers, the buffer, `BLK` and `UPC`: what is left to show is that the buffer fits
and that the new place in the micro-program is right. -/
theorem State.Inv.advance {s : State} (h : s.Inv) (hb : s.busy = true) {r q : Regs} {w : List Word} {c : BitVec 8}
    {n : Nat} (hw : s.wFits w.length = true)
    (hp : ({ s with regs := r, snap := q, w := w, upc := c, blk := n } : State).Phase) :
    ({ s with regs := r, snap := q, w := w, upc := c, blk := n } : State).Inv :=
  { h with
    bufferFits := hw
    running := fun _ => by
      obtain ⟨hk, ha, -⟩ := h.running hb
      exact ⟨hk, ha, hp⟩ }

/-- The encoder writes 32 codes to `HEX`, and `UPC`. -/
theorem State.Inv.writeHex {s : State} (h : s.Inv) (hb : s.busy = true) {vs : List Byte} {c : BitVec 8}
    (hl : vs.length = 32) (hp : ((s.withHex (s.hex.writeFrom 0 vs)).withUpc c).Phase) :
    ((s.withHex (s.hex.writeFrom 0 vs)).withUpc c).Inv :=
  { h with
    hexWf := Memory.wf_writeFrom 0 vs h.hexWf
    hexCells := fun p b hr => by
      rw [State.withUpc_hex, State.withHex_hex, Memory.read_writeFrom_zero _ hl] at hr
      by_cases hp : p < 32
      · exact hp
      · exact h.hexCells p b (by rwa [if_neg hp] at hr)
    running := fun _ => by
      obtain ⟨hk, ha, -⟩ := h.running hb
      exact ⟨hk, ha, hp⟩
    finished := fun hd => absurd ⟨hb, hd⟩ h.notBoth }

/-! ## The capacity of the buffer -/

/-- The model's test against `W_CAP` is the spec's bound (spec/10_state.md R35). -/
theorem State.wFits_iff_bufferHolds (s : State) (n : Nat) : s.wFits n = true ↔ Stated.BufferHolds s n := by
  unfold State.wFits State.wCap Stated.BufferHolds
  cases s.msgCap with
  | none => simp
  | some c => simp [blocksFor]

/-! ## The engine -/

/-- The place after step `k`: the next step, or `CHAIN`. -/
theorem State.phase_at_stepSuccessor {s : State} {k : Fin 64} (h : s.upc = stepSuccessor k) :
    s.Phase ↔ s.wlen = 16 * blocksFor s.len ∧ s.blk < blocksFor s.len := by
  rw [stepSuccessor] at h
  split at h
  · exact State.phase_at_chain h
  · refine State.phase_at_step h ?_
    have hk := k.isLt
    rw [BitVec.toNat_ofNat]
    omega

theorem blocksFor_pos (l : Nat) : 0 < blocksFor l := Nat.succ_pos _

/-- The words of the message and the pad byte leave room for the two words of the length (spec/40_padder.md R145,
R146). -/
theorem marked_le_blocksFor (l : Nat) : l / 4 + 1 ≤ 16 * blocksFor l - 2 := by
  unfold blocksFor; omega

/-- What `ENCL` leaves is lowercase digits, for `ENCU` or for `FIN`. -/
theorem State.Inv.encl {s : State} (h : s.Inv) (hb : s.busy = true) (hu : s.upc = 0xC0) :
    ((s.withHex (s.hex.writeFrom 0 (hexl s.regs))).withUpc (if s.u then 0xC1 else 0xC2)).Inv := by
  obtain ⟨-, -, hp⟩ := h.running hb
  have hw := (State.phase_at_encl hu).mp hp
  have hlow : ∀ b ∈ hexl s.regs, lowerHexDigit b = true := fun b => lowerHexDigit_of_mem_hexl
  have hl := hexl_length s.regs
  generalize hexl s.regs = vs at hlow hl
  cases hcase : s.u with
  | true => exact h.writeHex hb hl ((State.phase_at_encu rfl).mpr ⟨hw, hcase, State.hexHolds_writeFrom hl hlow⟩)
  | false =>
    have hok : ∀ b ∈ vs, resultDigit s.u b = true := by simpa [resultDigit, hcase] using hlow
    exact h.writeHex hb hl ((State.phase_at_fin rfl).mpr ⟨hw, State.hexHolds_writeFrom hl hok⟩)

/-- What `ENCU` leaves is uppercase digits, since it finds lowercase ones. -/
theorem State.Inv.encu {s : State} (h : s.Inv) (hb : s.busy = true) (hu : s.upc = 0xC1) :
    ((s.withHex (s.hex.writeFrom 0 ((List.range 32).map (fun p => up (s.hexByte p))))).withUpc 0xC2).Inv := by
  obtain ⟨-, -, hp⟩ := h.running hb
  obtain ⟨hw, hcase, hh⟩ := (State.phase_at_encu hu).mp hp
  have hup : ∀ b ∈ (List.range 32).map (fun p => up (s.hexByte p)), resultDigit s.u b = true := fun b hm => by
    obtain ⟨p, hp, rfl⟩ := List.mem_map.mp hm
    obtain ⟨d, hd, hlow⟩ := hh p (List.mem_range.mp hp)
    simpa [resultDigit, hcase, State.hexByte_of_read hd] using upperHexDigit_up hlow
  have hl : ((List.range 32).map (fun p => up (s.hexByte p))).length = 32 := by simp
  generalize (List.range 32).map (fun p => up (s.hexByte p)) = vs at hup hl
  exact h.writeHex hb hl ((State.phase_at_fin rfl).mpr ⟨hw, State.hexHolds_writeFrom hl hup⟩)

/-- A micro-operation run at its place keeps the invariant. -/
theorem State.Inv.of_exec {s t : State} {i : Instr} (h : s.Inv) (hb : s.busy = true)
    (hd : decode (.uop s.upc) = .instr i) (hx : exec i s = .next t) : t.Inv := by
  obtain ⟨hk, ha, hp⟩ := h.running hb
  obtain ⟨hl, hu⟩ := decode_uop_ne_command hd
  rcases exec_eq_next hx with ⟨k, x, rfl, -, rfl⟩ | ⟨rfl, bs, hbs, hf, rfl⟩ | ⟨rfl, h4, hf, rfl⟩ | ⟨rfl, h4, -, rfl⟩ |
    ⟨rfl, w, rfl, hf, rfl⟩ | ⟨rfl, w, rfl, hf, rfl⟩ | ⟨rfl, rfl⟩ | ⟨rfl, rfl⟩ | ⟨rfl, hlt, rfl⟩ | ⟨rfl, -, rfl⟩ |
    ⟨rfl, rfl⟩ | ⟨rfl, rfl⟩ | ⟨rfl, rfl⟩ | ⟨hi, -, -⟩ | ⟨b, hi, -, -, -, -⟩
  · -- a step
    have hk : (BitVec.ofNat 8 k.val).toNat ≤ 0x3F := by rw [BitVec.toNat_ofNat]; omega
    have hp := (State.phase_at_step (upc_of_decode hd (encode_stepInstr k)) hk).mp hp
    exact h.advance hb h.bufferFits ((State.phase_at_stepSuccessor rfl).mpr hp)
  · -- PACK
    obtain ⟨hbl, -⟩ := (Memory.readRange_eq_some_iff _ _ _ _).mp hbs
    have hpl : (packBytes bs 0 []).length = (s.len + 3) / 4 := by
      rw [packBytes_length bs rfl, hbl, Nat.zero_add]
    exact h.advance hb hf ((State.phase_at_mark rfl).mpr hpl)
  · -- MARK with a new word
    have hp := (State.phase_at_mark (upc_of_decode hd rfl)).mp hp
    refine h.advance hb hf ((State.phase_at_zext rfl).mpr ?_)
    show (s.w ++ [0x00000080]).length = s.len / 4 + 1
    rw [List.length_append, ← State.wlen, hp, List.length_singleton]
    omega
  · -- MARK into the last word
    have hp := (State.phase_at_mark (upc_of_decode hd rfl)).mp hp
    refine h.advance hb (by rw [State.withW_w, List.length_modify]; exact h.bufferFits) ((State.phase_at_zext rfl).mpr ?_)
    show (s.w.modify _ _).length = s.len / 4 + 1
    rw [List.length_modify, ← State.wlen, hp]
    omega
  · -- ZEXT
    have hp := (State.phase_at_zext (upc_of_decode hd rfl)).mp hp
    refine h.advance hb hf ((State.phase_at_lenw rfl).mpr ?_)
    show (s.w ++ List.replicate _ 0).length = 16 * blocksFor s.len - 2
    rw [List.length_append, List.length_replicate, ← State.wlen, hp, Nat.add_sub_cancel' (marked_le_blocksFor s.len)]
  · -- LENW
    have hp := (State.phase_at_lenw (upc_of_decode hd rfl)).mp hp
    refine h.advance hb hf ((State.phase_at_init rfl).mpr ?_)
    show (s.w ++ [_, _]).length = 16 * blocksFor s.len
    have hpos := blocksFor_pos s.len
    rw [List.length_append, ← State.wlen, hp, List.length_cons, List.length_singleton]
    omega
  · -- INIT
    have hp := (State.phase_at_init (upc_of_decode hd rfl)).mp hp
    exact h.advance hb h.bufferFits ((State.phase_at_snap rfl).mpr ⟨hp, blocksFor_pos _⟩)
  · -- SNAP
    have hp := (State.phase_at_snap (upc_of_decode hd rfl)).mp hp
    exact h.advance hb h.bufferFits ((State.phase_at_step (c := 0x00) rfl (by decide)).mpr hp)
  · -- CHAIN to the next block
    obtain ⟨hw, -⟩ := (State.phase_at_chain (upc_of_decode hd rfl)).mp hp
    have hn : s.blockCount = blocksFor s.len := by rw [State.blockCount, hw]; omega
    exact h.advance hb h.bufferFits ((State.phase_at_snap rfl).mpr ⟨hw, hn ▸ hlt⟩)
  · -- CHAIN after the last block
    obtain ⟨hw, -⟩ := (State.phase_at_chain (upc_of_decode hd rfl)).mp hp
    exact h.advance hb h.bufferFits ((State.phase_at_encl rfl).mpr hw)
  · exact h.encl hb (upc_of_decode hd rfl)
  · exact h.encu hb (upc_of_decode hd rfl)
  · -- FIN
    obtain ⟨-, hh⟩ := (State.phase_at_fin (upc_of_decode hd rfl)).mp hp
    exact { h with
      notBoth := fun hf => absurd hf.1 Bool.false_ne_true
      running := fun hf => absurd hf Bool.false_ne_true
      finished := fun _ => hh }
  · -- a command while busy
    exact absurd hi (by simp [hl, hu])
  · -- a command
    exact absurd hi (by simp [hl, hu])

/-! ## The host and the platform -/

/-- The invariant says nothing about the moves still to come. -/
theorem State.Inv.withPending {s : State} (h : s.Inv) (ms : List HostMove) : (s.withPending ms).Inv := { h with }

/-- The invariant says nothing about what the host has heard. -/
theorem State.Inv.hear {s : State} (h : s.Inv) (x : HostAnswer) : (s.hear x).Inv := { h with }

/-- A host access keeps the invariant: while `BUSY = 1` it writes nothing, an accepted command stands at `PACK`, and a
write of `MSG` stays below `MSG_CAP`. -/
theorem State.Inv.of_hostAccess {s t : State} {a : HostAccess} (h : s.Inv) (hx : hostAccess a s = .next t) : t.Inv := by
  rcases hostAccess_eq_next hx with ⟨x, -, rfl⟩ | ⟨_, _, -, rfl⟩ | ⟨_, b, -, hb, hk, ha, rfl⟩ | ⟨_, -, hb, rfl⟩ |
    ⟨_, -, hb, rfl⟩ | ⟨n, b, -, he, hb, rfl⟩
  · exact h.hear x
  · exact h
  · exact { h with
      notBoth := fun hf => absurd hf.2 Bool.false_ne_true
      running := fun _ => ⟨hk, ha, (State.phase_at_pack rfl).mpr trivial⟩
      finished := fun hf => absurd hf Bool.false_ne_true }
  · exact { h with running := fun hr => absurd (hb.symm.trans hr) Bool.false_ne_true }
  · exact { h with running := fun hr => absurd (hb.symm.trans hr) Bool.false_ne_true }
  · exact { h with
      msgWf := Memory.wf_write n b h.msgWf
      msgCells := fun a c hr => by
        rw [State.withMsg_msg, Memory.read_write] at hr
        split at hr
        · rename_i han; exact han ▸ he
        · exact h.msgCells a c hr
      running := fun hr => absurd (hb.symm.trans hr) Bool.false_ne_true }

/-- Settles O52: no cell is listed, no flag is set, and nothing is bounded. -/
theorem invariantHoldsAtReset : Obligations.InvariantHoldsAtReset where
  msgWf := List.Pairwise.nil
  hexWf := List.Pairwise.nil
  msgCells _ _ h := nomatch h
  hexCells _ _ h := nomatch h
  capBound _ h := nomatch h
  bufferFits := rfl
  notBoth h := nomatch h.1
  running h := nomatch h
  finished h := nomatch h

/-- A reset keeps the capacity, and its one block of words fits into every buffer. -/
theorem State.Inv.resetEvent {s : State} (h : s.Inv) : s.resetEvent.Inv :=
  { invariantHoldsAtReset with
    msgCells := fun _ _ hr => nomatch hr
    capBound := h.capBound
    bufferFits := (s.wFits_iff_bufferHolds 16).mpr fun c _ => by omega
    running := fun hr => nomatch hr }

/-- Settles O53, turn by turn: the engine at its place in the micro-program, the host, and the reset line. -/
theorem invariantKeptByEveryStep : Obligations.InvariantKeptByEveryStep := fun s t h hs => by
  rcases step_eq_next hs with ⟨ms, ht⟩ | ⟨a, ms, ht⟩ | ⟨ms, rfl⟩
  · rcases engineTurn_eq_next ht with ⟨hb, i, hd, hx⟩ | ⟨-, rfl⟩
    · exact (h.withPending ms).of_exec hb hd hx
    · exact h.withPending ms
  · exact (h.withPending ms).of_hostAccess ht
  · exact (h.withPending ms).resetEvent

end Sys2Proof.Machine
end

section
/-! PROOFS. The path of a run: the padder, the blocks, the encoder, each with the state it leaves, and from it what reaches
the result of a run (spec/10_state.md R59, R60). -/

namespace Sys2Proof.Machine

/-- A path that begins with the instruction at the code in `UPC`. -/
theorem path_cons {s r t : State} {i : Instr} {is : List Instr} (c : BitVec 8) (hu : s.upc = c)
    (hd : decode (.uop c) = .instr i) (hx : exec i s = .next r) (hp : Path is r t) : Path (i :: is) s t :=
  ⟨hu ▸ hd, r, hx, hp⟩

theorem path_one {s t : State} {i : Instr} (c : BitVec 8) (hu : s.upc = c) (hd : decode (.uop c) = .instr i)
    (hx : exec i s = .next t) : Path [i] s t := path_cons c hu hd hx rfl

/-! ## The padder -/

theorem zeroCount_fills (l : Nat) : l + 1 + zeroCount l = 4 * (16 * blocksFor l - 2) := by
  unfold zeroCount blocksFor; omega

/-- `MARK` and `ZEXT` leave the words of the message, the pad byte and the zero bytes. -/
theorem markedZeroed_length (m : List Byte) :
    (m ++ [0x80] ++ List.replicate (zeroCount m.length) 0).length = 4 * (16 * blocksFor m.length - 2) := by
  rw [List.length_append, List.length_append, List.length_singleton, List.length_replicate, zeroCount_fills]

theorem pad_eq_append (m : List Byte) :
    pad m = wordsLE (m ++ [0x80] ++ List.replicate (zeroCount m.length) 0) ++
      [(bitLength m.length).extractLsb' 0 32, (bitLength m.length).extractLsb' 32 32] := by
  rw [pad, paddedBytes, wordsLE_append _ _ (by rw [markedZeroed_length]; exact Nat.mul_mod_right 4 _), wordsLE_le64]

/-- The padded message is a whole number of blocks (spec/40_padder.md R149). -/
theorem pad_length (m : List Byte) : (pad m).length = 16 * blocksFor m.length := by
  have hpos := blocksFor_pos m.length
  rw [pad_eq_append, List.length_append, wordsLE_length, markedZeroed_length, List.length_cons, List.length_singleton]
  omega

section
variable {s : State} {m : List Byte}

theorem exec_pack_of_message (hm : s.msg.readRange 0 s.len = some m) (hf : s.wFits (wordsLE m).length = true) :
    exec .pack s = .next ((s.withW (wordsLE m)).withUpc 0x41) := by
  change execPack s = _
  rw [execPack_of_read hm, packBytes_eq_wordsLE, storeW_of_fits _ hf]

theorem exec_mark_of_words (hl : s.len = m.length) (hw : s.w = wordsLE m)
    (hf : s.wFits (wordsLE (m ++ [0x80])).length = true) :
    exec .mark s = .next ((s.withW (wordsLE (m ++ [0x80]))).withUpc 0x42) := by
  change execMark s = _
  by_cases h4 : s.len % 4 = 0
  · have hm := packByte_marks m
    rw [packByte_new _ _ (hl ▸ h4)] at hm
    rw [execMark_new h4, hw, ← hm]
    exact storeW_of_fits _ (hm ▸ hf)
  · have hlt : s.len / 4 < s.wlen := by rw [State.wlen, hw, wordsLE_length]; omega
    rw [execMark_into h4 hlt, hw, hl, ← packByte_marks, packByte, if_neg (hl ▸ h4)]
    rfl

theorem exec_zext_of_words (hl : s.len = m.length) (hw : s.w = wordsLE (m ++ [0x80]))
    (hf : s.wFits (wordsLE (m ++ [0x80] ++ List.replicate (zeroCount m.length) 0)).length = true) :
    exec .zext s =
      .next ((s.withW (wordsLE (m ++ [0x80] ++ List.replicate (zeroCount m.length) 0))).withUpc 0x43) := by
  have hlen : (m ++ [(0x80 : Byte)]).length = m.length + 1 := List.length_append
  have hk := marked_le_blocksFor m.length
  have hz := zeroCount_fills m.length
  have happ := wordsLE_append_zeros (m ++ [0x80]) (16 * blocksFor m.length - 2 - (wordsLE (m ++ [0x80])).length)
    (zeroCount m.length) (by rw [wordsLE_length, hlen]; omega)
  rw [happ] at hf ⊢
  change execZext s = _
  rw [execZext, State.wlen, hl, hw]
  exact storeW_of_fits _ hf

theorem exec_lenw_of_words (hl : s.len = m.length)
    (hw : s.w = wordsLE (m ++ [0x80] ++ List.replicate (zeroCount m.length) 0))
    (hf : s.wFits (pad m).length = true) : exec .lenw s = .next ((s.withW (pad m)).withUpc 0x80) := by
  rw [pad_eq_append] at hf ⊢
  change execLenw s = _
  rw [execLenw, hl, hw]
  exact storeW_of_fits _ hf

/-- The padder's four operations lead from the message to the padded message (spec/40_padder.md R141, R148). -/
theorem path_padder (hu : s.upc = 0x40) (hm : s.msg.readRange 0 s.len = some m) (hf : s.wFits (pad m).length = true) :
    Path [.pack, .mark, .zext, .lenw] s ((s.withW (pad m)).withUpc 0x80) := by
  have hl : s.len = m.length := ((Memory.readRange_eq_some_iff _ _ _ _).mp hm).1.symm
  have hfits : ∀ bs : List Byte, bs.length ≤ 4 * (16 * blocksFor m.length - 2) → s.wFits (wordsLE bs).length = true :=
    fun bs hbs => s.wFits_of_le hf (by rw [wordsLE_length, pad_length]; omega)
  have hzero := zeroCount_fills m.length
  have hmarked : (m ++ [(0x80 : Byte)]).length = m.length + 1 := List.length_append
  exact path_cons 0x40 hu (by decide) (exec_pack_of_message hm (hfits m (by omega))) <|
    path_cons 0x41 rfl (by decide) (exec_mark_of_words (m := m) hl rfl (hfits _ (by omega))) <|
    path_cons 0x42 rfl (by decide) (exec_zext_of_words (m := m) hl rfl (hfits _ (markedZeroed_length m).le)) <|
    path_one 0x43 rfl (by decide) (exec_lenw_of_words (m := m) hl rfl hf)

end

/-! ## The blocks -/

theorem stepInstrs_eq_map : stepInstrs = (List.finRange 64).map stepInstr := by decide

theorem Regs.add_comm (r q : Regs) : r.add q = q.add r := by
  simp only [Regs.add, add32_comm]

/-- The first `n` steps of a block whose 16 words are `x`. -/
theorem path_steps {s : State} {x : List Word} (hu : s.upc = 0x00)
    (hx : ∀ k : Fin 16, s.w[16 * s.blk + k.val]? = some (blockWord x k)) {n : Nat} (hn : n ≤ 64) :
    Path (((List.finRange 64).take n).map stepInstr) s
      ((s.withRegs (((List.finRange 64).take n).foldl (fun q i => roundStep i q (blockWord x (kOf i))) s.regs)).withUpc
        (if n = 64 then 0x82 else BitVec.ofNat 8 n)) := by
  induction n with
  | zero =>
    show s = (s.withRegs s.regs).withUpc 0x00
    rw [← hu]; rfl
  | succ n ih =>
    have hget : (List.finRange 64)[n]? = some ⟨n, hn⟩ := by
      rw [List.getElem?_eq_getElem (by rw [List.length_finRange]; exact hn), List.getElem_finRange]; rfl
    rw [List.take_add_one, hget, Option.toList_some, List.map_append, List.foldl_append]
    have hcode : (if n + 1 = 64 then (0x82 : BitVec 8) else BitVec.ofNat 8 (n + 1)) = stepSuccessor ⟨n, hn⟩ := by
      simp only [stepSuccessor, Nat.reduceEqDiff]
    rw [hcode]
    refine path_append (ih (Nat.le_of_lt hn))
      (path_one (BitVec.ofNat 8 n) ?_ (decode_step_code ⟨n, hn⟩)
        ((exec_stepInstr ⟨n, hn⟩ _).trans (stepOp_of_word (hx _))))
    rw [State.withUpc_upc, if_neg (Nat.ne_of_lt hn)]

/-- The 64 steps of a block whose 16 words are `x` (spec/46_chain_sequencer.md R272). -/
theorem path_stepInstrs {s : State} {x : List Word} (hu : s.upc = 0x00)
    (hx : ∀ k : Fin 16, s.w[16 * s.blk + k.val]? = some (blockWord x k)) :
    Path stepInstrs s ((s.withRegs (blockSteps s.regs x)).withUpc 0x82) := by
  have hp := path_steps hu hx (Nat.le_refl 64)
  rwa [List.take_of_length_le (List.length_finRange).le, ← stepInstrs_eq_map, if_pos rfl] at hp

/-- The words of the block `BLK` (spec/10_state.md R39). -/
def State.blockWords (s : State) : List Word := (s.w.drop (16 * s.blk)).take 16

theorem State.blockWords_length {s : State} (hw : 16 * s.blk + 16 ≤ s.w.length) : s.blockWords.length = 16 := by
  rw [State.blockWords, List.length_take, List.length_drop]; omega

theorem State.getElem_block {s : State} (hw : 16 * s.blk + 16 ≤ s.w.length) (k : Fin 16) :
    s.w[16 * s.blk + k.val]? = some (blockWord s.blockWords k) := by
  rw [← getElem_blockWord (State.blockWords_length hw), State.blockWords, List.getElem?_take_of_lt k.isLt,
    List.getElem?_drop]

/-- The state at `CHAIN` of a pass that began in `s`: the steps have left `r`. -/
def State.atChain (s : State) (r : Regs) : State := (((s.withSnap s.regs).withUpc 0x00).withRegs r).withUpc 0x82

/-- A pass up to `CHAIN`: `SNAP` and the 64 steps. -/
theorem path_snap_steps {s : State} (hu : s.upc = 0x81) (hw : 16 * s.blk + 16 ≤ s.w.length) :
    Path ([.snap] ++ stepInstrs) s (s.atChain (blockSteps s.regs s.blockWords)) :=
  path_append (path_one 0x81 hu (by decide) rfl)
    (path_stepInstrs (s := (s.withSnap s.regs).withUpc 0x00) rfl (State.getElem_block hw))

theorem path_chain_next {s : State} (hlt : s.blk + 1 < s.blockCount) (r : Regs) :
    Path [.chain] (s.atChain r) { s with regs := s.regs.add r, snap := s.regs, blk := s.blk + 1, upc := 0x81 } := by
  rw [Regs.add_comm s.regs]
  exact path_one 0x82 rfl (by decide) ((execChain_eq (s.atChain r)).trans (if_pos hlt))

theorem path_chain_last {s : State} (hge : s.blockCount ≤ s.blk + 1) (r : Regs) :
    Path [.chain] (s.atChain r) { s with regs := s.regs.add r, snap := s.regs, upc := 0xC0 } := by
  rw [Regs.add_comm s.regs]
  exact path_one 0x82 rfl (by decide) ((execChain_eq (s.atChain r)).trans (if_neg (Nat.not_lt.mpr hge)))

/-- A pass before the last block (spec/46_chain_sequencer.md R270, R278). -/
theorem path_block_next {s : State} (hu : s.upc = 0x81) (hw : 16 * s.blk + 16 ≤ s.w.length)
    (hlt : s.blk + 1 < s.blockCount) :
    Path blockProgram s
      { s with regs := block s.regs s.blockWords, snap := s.regs, blk := s.blk + 1, upc := 0x81 } :=
  path_append (path_snap_steps hu hw) (path_chain_next hlt _)

/-- The pass through the last block (spec/46_chain_sequencer.md R270, R278). -/
theorem path_block_last {s : State} (hu : s.upc = 0x81) (hw : 16 * s.blk + 16 ≤ s.w.length)
    (hge : s.blockCount ≤ s.blk + 1) :
    Path blockProgram s { s with regs := block s.regs s.blockWords, snap := s.regs, upc := 0xC0 } :=
  path_append (path_snap_steps hu hw) (path_chain_last hge _)

/-- `n` passes lead through the last `n` blocks of the buffer (spec/46_chain_sequencer.md R275, R279). -/
theorem path_blocks {n : Nat} (hn : 0 < n) {s : State} (hu : s.upc = 0x81) (hw : s.w.length = 16 * (s.blk + n)) :
    ∃ q, Path (List.replicate n blockProgram).flatten s { s with
      regs := compressBlocks n s.regs (s.w.drop (16 * s.blk)), snap := q, blk := s.blk + n - 1, upc := 0xC0 } := by
  induction n, hn using Nat.le_induction generalizing s with
  | base => exact ⟨s.regs, path_block_last hu (by omega) (by rw [State.blockCount, State.wlen]; omega)⟩
  | succ n hn ih =>
    have hblk : s.blk + (n + 1) - 1 = s.blk + 1 + n - 1 := by omega
    have hnext : s.w.length = 16 * (s.blk + 1 + n) := by omega
    obtain ⟨q, hq⟩ := ih (s := { s with
      regs := block s.regs s.blockWords, snap := s.regs, blk := s.blk + 1, upc := 0x81 }) rfl hnext
    refine ⟨q, path_append (path_block_next hu (by omega) (by rw [State.blockCount, State.wlen]; omega)) ?_⟩
    rw [compressBlocks, List.drop_drop, hblk]
    exact hq

/-- `INIT` and a pass for each block leave `compress(W)` in the registers (spec/46_chain_sequencer.md R273, R279). -/
theorem path_core {s : State} {n : Nat} (hn : 0 < n) (hu : s.upc = 0x80) (hw : s.w.length = 16 * n) :
    ∃ q, Path ([.init] ++ (List.replicate n blockProgram).flatten) s
      { s with regs := compress s.w, snap := q, blk := n - 1, upc := 0xC0 } := by
  have hinit : Path [.init] s (((s.withRegs ivRegs).withBlk 0).withUpc 0x81) := path_one 0x80 hu (by decide) rfl
  have hwz : s.w.length = 16 * (0 + n) := by rw [hw, Nat.zero_add]
  obtain ⟨q, hq⟩ := path_blocks hn (s := ((s.withRegs ivRegs).withBlk 0).withUpc 0x81) rfl hwz
  rw [State.withUpc_blk, State.withBlk_blk, Nat.zero_add] at hq
  rw [compress_of_blocks hn hw]
  exact ⟨q, path_append hinit hq⟩

/-! ## The encoder -/


/-- The passes of the encoder for the case selector (spec/46_chain_sequencer.md R275). -/
def encoderProgram (u : Bool) : List Instr := [.encl] ++ (if u then [.encu] else [])

/-- `ENCU` where `HEX` holds the 32 codes `vs` writes their capitals. -/
theorem exec_encu_of_read {s : State} {vs : List Byte} (hl : vs.length = 32)
    (hr : ∀ p, p < 32 → s.hex.read p = vs[p]?) :
    exec .encu s = .next ((s.withHex (s.hex.writeFrom 0 (vs.map up))).withUpc 0xC2) := by
  have hup : (List.range 32).map (fun p => up (s.hexByte p)) = vs.map up := by
    refine List.ext_getElem (by simp [hl]) fun p h1 h2 => ?_
    have hp : p < vs.length := by rwa [List.length_map] at h2
    rw [List.getElem_map, List.getElem_map, List.getElem_range,
      State.hexByte_of_read ((hr p (hl ▸ hp)).trans (List.getElem?_eq_getElem hp))]
  rw [← hup]
  exact execEncu_eq s

/-- The digest in `HEX` in the case of `U`, and the other cells as before (spec/47_encoder.md R297). -/
theorem path_encoder {s : State} (hu : s.upc = 0xC0) :
    ∃ g, Path (encoderProgram s.u) s ((s.withHex g).withUpc 0xC2) ∧
      (∀ p, p < 32 → g.read p = (if s.u then hexu s.regs else hexl s.regs)[p]?) ∧
      (∀ p, 32 ≤ p → g.read p = s.hex.read p) := by
  have hencl := path_one 0xC0 hu (by decide) (show exec .encl s = _ from execEncl_eq s)
  have hl := hexl_length s.regs
  rw [hexu]
  generalize hexl s.regs = vs at hencl hl ⊢
  have hread := fun p => Memory.read_writeFrom_zero s.hex hl p
  cases hcase : s.u with
  | false =>
    rw [hcase, if_neg Bool.false_ne_true] at hencl
    exact ⟨_, hencl, fun p hp => (hread p).trans (if_pos hp), fun p => Memory.read_writeFrom_beyond _ hl⟩
  | true =>
    rw [hcase, if_pos rfl] at hencl
    have hencu := path_one 0xC1 (s := (s.withHex (s.hex.writeFrom 0 vs)).withUpc 0xC1) rfl (by decide)
      (exec_encu_of_read hl fun p hp => (hread p).trans (if_pos hp))
    have hl' : (vs.map up).length = 32 := (List.length_map up).trans hl
    exact ⟨_, path_append hencl hencu, fun p hp => (Memory.read_writeFrom_zero _ hl' p).trans (if_pos hp), fun p hp =>
      (Memory.read_writeFrom_beyond _ hl' hp).trans (Memory.read_writeFrom_beyond _ hl hp)⟩

/-! ## The whole run -/

/-- The micro-program of a run but for its last operation, `FIN` (spec/46_chain_sequencer.md R275). -/
def programToFin (n : Nat) (u : Bool) : List Instr :=
  [.pack, .mark, .zext, .lenw] ++ ([.init] ++ (List.replicate n blockProgram).flatten) ++ encoderProgram u

theorem microProgram_eq_append_fin (n : Nat) (u : Bool) : microProgram n u = programToFin n u ++ [.fin] := by
  simp [microProgram, programToFin, encoderProgram]

theorem blockProgram_length : blockProgram.length = 66 := by decide

theorem encoderProgram_length (u : Bool) : (encoderProgram u).length = 1 + (if u then 1 else 0) := by
  cases u <;> rfl

theorem programToFin_length (n : Nat) (u : Bool) : (programToFin n u).length = 66 * n + 6 + (if u then 1 else 0) := by
  simp only [programToFin, List.length_append, encoderProgram_length, List.length_flatten, List.map_replicate,
    List.sum_replicate, blockProgram_length, smul_eq_mul, List.length_cons, List.length_nil]
  omega

/-- No operation before the last ends the run or is a command. -/
theorem mem_programToFin {n : Nat} {u : Bool} {i : Instr} (h : i ∈ programToFin n u) :
    i ≠ .fin ∧ i ≠ .hashl ∧ i ≠ .hashu := by
  have hpad : ∀ j ∈ [Instr.pack, .mark, .zext, .lenw], j ≠ .fin ∧ j ≠ .hashl ∧ j ≠ .hashu := by decide
  have hinit : ∀ j ∈ [Instr.init], j ≠ .fin ∧ j ≠ .hashl ∧ j ≠ .hashu := by decide
  have hblock : ∀ j ∈ blockProgram, j ≠ .fin ∧ j ≠ .hashl ∧ j ≠ .hashu := by decide
  have henc : ∀ u, ∀ j ∈ encoderProgram u, j ≠ .fin ∧ j ≠ .hashl ∧ j ≠ .hashu := by decide
  simp only [programToFin, List.mem_append, List.mem_flatten] at h
  rcases h with (h | h | ⟨l, hl, h⟩) | h
  · exact hpad i h
  · exact hinit i h
  · exact hblock i (List.eq_of_mem_replicate hl ▸ h)
  · exact henc u i h

/-- `FIN` takes one step and ends the run (spec/47_encoder.md R295). -/
theorem runSteps_fin {n : Nat} {s t : State} (h : runSteps n s = .next t) (hb : t.busy = true) (hp : t.pending = [])
    (hu : t.upc = 0xC2) : runSteps (n + 1) s = .next t.finished := by
  have hstep : step t = .next t.finished := by
    rw [step_of_no_move hp, engineTurn_of_decode (i := .fin) hb (hu ▸ by decide)]
    rfl
  rw [runSteps_add 1 h, runSteps_succ 0 hstep, runSteps_zero]

section
variable {s : State} {m : List Byte}

/-- The path of a run from `PACK` to `FIN`: the padded message is compressed and encoded. -/
theorem path_run (hu : s.upc = 0x40) (hm : s.msg.readRange 0 s.len = some m)
    (ha : lengthAdmitted s.msgCap s.len = true) :
    ∃ q g, Path (programToFin (blocksFor s.len) s.u) s { s with
        regs := compress (pad m), snap := q, w := pad m, blk := blocksFor s.len - 1, hex := g, upc := 0xC2 } ∧
      (∀ p, p < 32 → g.read p = (if s.u then digestUpper m else digestLower m)[p]?) ∧
      (∀ p, 32 ≤ p → g.read p = s.hex.read p) := by
  have hl : m.length = s.len := ((Memory.readRange_eq_some_iff _ _ _ _).mp hm).1
  have hw : (pad m).length = 16 * blocksFor s.len := by rw [pad_length, hl]
  have hpad := path_padder hu hm (hw ▸ s.wFits_of_admitted ha)
  obtain ⟨q, hcore⟩ := path_core (s := (s.withW (pad m)).withUpc 0x80) (blocksFor_pos _) rfl hw
  obtain ⟨g, henc, hdigest, hrest⟩ := path_encoder (s := { s with
    regs := compress (pad m), snap := q, w := pad m, blk := blocksFor s.len - 1, upc := 0xC0 }) rfl
  exact ⟨q, g, path_append (path_append hpad hcore) henc, hdigest, hrest⟩

/-- A run alone ends after `66 * N + 7 + U` steps with the digest of the message in `HEX`
(spec/46_chain_sequencer.md R275, spec/48_commands.md R306). -/
theorem runSteps_run (hp : s.pending = []) (hb : s.busy = true) (hu : s.upc = 0x40)
    (hm : s.msg.readRange 0 s.len = some m) (ha : lengthAdmitted s.msgCap s.len = true) :
    ∃ t, runSteps (66 * blocksFor s.len + 7 + (if s.u then 1 else 0)) s = .next t ∧ t.busy = false ∧ t.done = true ∧
      ∀ p, p < 32 → t.hex.read p = (if s.u then digestUpper m else digestLower m)[p]? := by
  obtain ⟨q, g, hpath, hdigest, -⟩ := path_run hu hm ha
  obtain ⟨hrun, hb', hp'⟩ := runSteps_of_path_alone hb hp (fun i => mem_programToFin) hpath
  have hk : 66 * blocksFor s.len + 7 + (if s.u then 1 else 0) = (programToFin (blocksFor s.len) s.u).length + 1 := by
    rw [programToFin_length]; omega
  rw [hk]
  exact ⟨_, runSteps_fin hrun hb' hp' rfl, rfl, rfl, hdigest⟩

/-- A run alone stops at its first step when a byte of the message holds no value. -/
theorem runSteps_run_refused (hp : s.pending = []) (hb : s.busy = true) (hu : s.upc = 0x40)
    (hm : s.msg.readRange 0 s.len = none) {n : Nat} (hn : 0 < n) : runSteps n s = .refused .messageUnwritten := by
  have hstep : step s = .refused .messageUnwritten := by
    rw [step_of_no_move hp, engineTurn_of_decode (i := .pack) hb (hu ▸ by decide)]
    exact execPack_of_unwritten hm
  rw [← Nat.sub_add_cancel hn]
  exact runSteps_refused (n - 1) hstep

end

/-- A range is read the same in memories that agree on its cells. -/
theorem Memory.readRange_congr {m n : Memory} {a k : Nat} (h : ∀ j, j < k → m.read (a + j) = n.read (a + j)) :
    m.readRange a k = n.readRange a k := by
  induction k generalizing a with
  | zero => rfl
  | succ k ih =>
    have h0 : m.read a = n.read a := h 0 (Nat.succ_pos k)
    have hr : m.readRange (a + 1) k = n.readRange (a + 1) k := ih fun j hj => by
      have := h (j + 1) (Nat.succ_lt_succ hj)
      rwa [Nat.add_comm j 1, ← Nat.add_assoc] at this
    rw [Memory.readRange, Memory.readRange, h0, hr]

/-- Settles O58: the digest of the bytes `MSG[0..L-1]` is all that a run leaves in `HEX`, whatever the engine held when it
began. -/
theorem internalStateDoesNotReachTheResult : Obligations.InternalStateDoesNotReachTheResult := by
  intro s q hsp hqp hsb hqb hsu hqu hcase hlo hhi hcap ha hmsg
  have hlen : q.len = s.len := by rw [State.len_eq, State.len_eq, hlo, hhi]
  have hread : q.msg.readRange 0 q.len = s.msg.readRange 0 s.len := by
    rw [hlen]
    exact (Memory.readRange_congr fun j hj => by rw [Nat.zero_add]; exact hmsg j hj).symm
  cases hm : s.msg.readRange 0 s.len with
  | none =>
    exact .inr ⟨runSteps_run_refused hsp hsb hsu hm (by omega),
      runSteps_run_refused hqp hqb hqu (hread.trans hm) (by omega)⟩
  | some m =>
    obtain ⟨t, ht, htb, htd, hth⟩ := runSteps_run hsp hsb hsu hm ha
    obtain ⟨r, hr, hrb, hrd, hrh⟩ := runSteps_run hqp hqb hqu (hread.trans hm) (by rw [← hcap, hlen]; exact ha)
    rw [hlen, ← hcase] at hr
    rw [← hcase] at hrh
    exact .inl ⟨t, r, ht, hr, htb.trans hrb.symm, htd, hrd, fun p hp => (hth p hp).trans (hrh p hp).symm⟩

end Sys2Proof.Machine
end

section
/-! PROOFS. Whose turn a step is, what an access or an instruction leaves unchanged (spec/10_state.md R45, R48, R56), and
where the padder stops. -/

namespace Sys2Proof.Machine

/-! ## Turns -/

/-- The engine's turn, with the moves that are left. -/
theorem step_of_engineTurn {s : State} {ms : List HostMove} (h : Stated.EngineTurn s ms) :
    step s = engineTurn (s.withPending ms) := by
  rcases h with ⟨hp, rfl⟩ | hp
  · rw [step_of_no_move hp, State.withPending, ← hp]
  · exact step_of_engine_move hp

/-- Settles O1: the turn is the engine's, and the code in `UPC` decodes to the instruction. -/
theorem stepRunsTheMicroOperationUpcHolds : Obligations.StepRunsTheMicroOperationUpcHolds :=
  fun s _ ms ht hb hd _ => (step_of_engineTurn ht).trans (engineTurn_of_decode (s := s.withPending ms) hb hd)

theorem writeCtrl_of_decode {v : Word} {i : Instr} (h : decode (.cmd v) = .instr i) (s : State) :
    writeCtrl v s = exec i s := by
  rw [writeCtrl, h]

/-- Settles O2: the move taken is the access, and offset 0x00 is `CTRL`. -/
theorem stepRunsTheCommandWritten : Obligations.StepRunsTheCommandWritten :=
  ⟨fun _ _ _ ht => step_of_access ht, fun _ _ _ _ ht hd _ => (step_of_access ht).trans (writeCtrl_of_decode hd _)⟩

/-! ## Registers of the host -/

theorem writeRegister_of_reserved {off : Nat} (v : Word) (s : State) (h0 : off ≠ 0x00) (h8 : off ≠ 0x08)
    (hC : off ≠ 0x0C) : writeRegister off v s = .next s := by
  unfold writeRegister
  split
  · exact absurd rfl h0
  · exact absurd rfl h8
  · exact absurd rfl hC
  · rfl

theorem readRegister_of_reserved {off : Nat} (s : State) (h0 : off ≠ 0x00) (h4 : off ≠ 0x04) (h8 : off ≠ 0x08)
    (hC : off ≠ 0x0C) : readRegister off s = .refused (.reservedRegister off) := by
  unfold readRegister
  split
  · exact absurd rfl h0
  · exact absurd rfl h4
  · exact absurd rfl h8
  · exact absurd rfl hC
  · rfl

/-- Settles O46, register by register. -/
theorem reservedOffsetsAndFixedRegisters : Obligations.ReservedOffsetsAndFixedRegisters :=
  fun _ _ v _ => ⟨fun ht => step_of_access ht, fun ht => step_of_access ht, fun h0 h4 h8 hC =>
    ⟨fun ht => (step_of_access ht).trans (writeRegister_of_reserved v _ h0 h8 hC),
      fun ht => (step_of_access ht).trans (readRegister_of_reserved _ h0 h4 h8 hC)⟩⟩

theorem hostAccess_writeLenLo {s : State} (v : Word) (hb : s.busy = false) :
    hostAccess (.writeReg 0x08 v) s = .next (s.withLenLo v) :=
  if_neg (by rw [hb]; exact Bool.false_ne_true)

theorem hostAccess_writeLenHi {s : State} (v : Word) (hb : s.busy = false) :
    hostAccess (.writeReg 0x0C v) s = .next (s.withLenHi v) :=
  if_neg (by rw [hb]; exact Bool.false_ne_true)

/-- Two accesses of the host, one after the other. -/
theorem runSteps_two_accesses {s t r : State} {a b : HostAccess} (hp : s.pending = [.access a, .access b])
    (ha : hostAccess a (s.withPending [.access b]) = .next t) (ht : t.pending = [.access b])
    (hb : hostAccess b (t.withPending []) = .next r) : runSteps 2 s = .next r := by
  rw [runSteps_succ 1 ((step_of_access hp).trans ha), runSteps_succ 0 ((step_of_access ht).trans hb), runSteps_zero]

/-! ## What an instruction leaves unchanged -/

theorem exec_lenHalves {i : Instr} {s t : State} (h : exec i s = .next t) :
    t.lenLo = s.lenLo ∧ t.lenHi = s.lenHi ∧ t.lenLoSet = s.lenLoSet ∧ t.lenHiSet = s.lenHiSet := by
  rcases exec_eq_next h with ⟨_, _, _, _, rfl⟩ | ⟨_, _, _, _, rfl⟩ | ⟨_, _, _, rfl⟩ | ⟨_, _, _, rfl⟩ | ⟨_, _, _, _, rfl⟩ |
    ⟨_, _, _, _, rfl⟩ | ⟨_, rfl⟩ | ⟨_, rfl⟩ | ⟨_, _, rfl⟩ | ⟨_, _, rfl⟩ | ⟨_, rfl⟩ | ⟨_, rfl⟩ | ⟨_, rfl⟩ | ⟨_, _, rfl⟩ |
    ⟨_, _, _, _, _, rfl⟩
  all_goals simp

/-- Settles O43: the formula, the two orders of the writes, and the halves kept by every instruction. -/
theorem lengthIsTheTwoHalves : Obligations.LengthIsTheTwoHalves := by
  refine ⟨State.len_eq, fun s lo hi hb hp => ?_, fun i s t hx => ?_⟩
  · rcases hp with hp | hp
    · exact ⟨_, runSteps_two_accesses hp (hostAccess_writeLenLo lo hb) rfl (hostAccess_writeLenHi hi hb),
        State.len_eq _, rfl⟩
    · exact ⟨_, runSteps_two_accesses hp (hostAccess_writeLenHi hi hb) rfl (hostAccess_writeLenLo lo hb),
        State.len_eq _, rfl⟩
  · obtain ⟨hlo, hhi, -, -⟩ := exec_lenHalves hx
    rw [State.len_eq, State.len_eq, hlo, hhi]

/-- Settles O50: an answer changes the record, a command the flags and the code, a write its own register or cell. -/
theorem hostWritesOnlyWhatTheTableAllows : Obligations.HostWritesOnlyWhatTheTableAllows := by
  intro a s t hx
  rcases hostAccess_eq_next hx with ⟨x, -, rfl⟩ | ⟨_, _, -, rfl⟩ | ⟨v, b, rfl, -, -, -, rfl⟩ | ⟨v, rfl, -, rfl⟩ |
    ⟨v, rfl, -, rfl⟩ | ⟨n, b, rfl, -, -, rfl⟩
  case inr.inr.inr.inr.inr =>
    have hmsg : ∀ c, (∀ d, HostAccess.writeMsg n b ≠ .writeMsg c d) → (s.msg.write n b).read c = s.msg.read c :=
      fun c hc => Memory.read_write_other _ _ fun hcn => hc b (hcn ▸ rfl)
    simpa using hmsg
  all_goals simp

theorem stepInstr_ne_other (k : Fin 64) :
    stepInstr k ≠ .pack ∧ stepInstr k ≠ .mark ∧ stepInstr k ≠ .zext ∧ stepInstr k ≠ .lenw ∧ stepInstr k ≠ .init ∧
    stepInstr k ≠ .snap ∧ stepInstr k ≠ .chain ∧ stepInstr k ≠ .encl ∧ stepInstr k ≠ .encu ∧ stepInstr k ≠ .fin ∧
    stepInstr k ≠ .hashl ∧ stepInstr k ≠ .hashu := by
  revert k; decide

/-- Settles O49, instruction by instruction. -/
theorem engineWritesOnlyWhatTheTableAllows : Obligations.EngineWritesOnlyWhatTheTableAllows := by
  intro i s t hx
  rcases exec_eq_next hx with ⟨k, x, rfl, -, rfl⟩ | ⟨rfl, bs, -, -, rfl⟩ | ⟨rfl, -, -, rfl⟩ | ⟨rfl, -, -, rfl⟩ |
    ⟨rfl, w, hw, -, rfl⟩ | ⟨rfl, w, hw, -, rfl⟩ | ⟨rfl, rfl⟩ | ⟨rfl, rfl⟩ | ⟨rfl, -, rfl⟩ | ⟨rfl, -, rfl⟩ |
    ⟨rfl, rfl⟩ | ⟨rfl, rfl⟩ | ⟨rfl, rfl⟩ | ⟨hi, -, rfl⟩ | ⟨b, hi, -, -, -, rfl⟩
  · simp [stepInstr_ne_other k] -- a step
  · simp -- PACK
  · -- MARK with a new word
    have hkeep : ∀ j, j < s.w.length → (s.w ++ [0x00000080])[j]? = s.w[j]? := fun j => List.getElem?_append_left
    simpa using fun j hj _ => hkeep j hj
  · -- MARK into an existing word
    have hkeep := fun f j (hj : j ≠ s.len / 4) => List.getElem?_modify_ne f s.w (Ne.symm hj)
    simpa using fun j _ hj => hkeep _ j hj
  · -- ZEXT
    have hkeep : ∀ j, j < s.w.length → w[j]? = s.w[j]? := fun j hj => hw ▸ List.getElem?_append_left hj
    simpa using hkeep
  · -- LENW
    have hkeep : ∀ j, j < s.w.length → w[j]? = s.w[j]? := fun j hj => hw ▸ List.getElem?_append_left hj
    simpa using hkeep
  · simp -- INIT
  · simp -- SNAP
  · simp -- CHAIN to the next block
  · simp -- CHAIN after the last block
  · -- ENCL
    have hl := hexl_length s.regs
    generalize hexl s.regs = vs at hl
    simpa using fun p (hp : 32 ≤ p) => Memory.read_writeFrom_beyond s.hex hl hp
  · -- ENCU
    have hl : ((List.range 32).map (fun p => up (s.hexByte p))).length = 32 := by simp
    generalize (List.range 32).map (fun p => up (s.hexByte p)) = vs at hl
    simpa using fun p (hp : 32 ≤ p) => Memory.read_writeFrom_beyond s.hex hl hp
  · simp -- FIN
  · simp -- a command while busy
  · -- an accepted command
    rcases hi with ⟨rfl, -⟩ | ⟨rfl, -⟩
    · simp
    · simp

/-! ## Where the padder stops -/

/-- Settles O15: the bytes of the message cannot all be read. -/
theorem packRefusesAnUnwrittenByte : Obligations.PackRefusesAnUnwrittenByte := fun s j hj hr =>
  execPack_of_unwritten ((Memory.readRange_eq_none_iff s.msg 0 s.len).mpr ⟨j, hj, by rwa [Nat.zero_add]⟩)

theorem storeW_of_full {s : State} {w : List Word} (c : BitVec 8) (h : ¬ Stated.BufferHolds s w.length) :
    storeW s w c = .fault .wordBufferFull :=
  if_neg fun hf => h ((s.wFits_iff_bufferHolds w.length).mp hf)

theorem execMark_of_no_word {s : State} (h4 : s.len % 4 ≠ 0) (hl : s.wlen ≤ s.len / 4) :
    execMark s = .fault (.noSuchWord (s.len / 4)) := by
  rw [execMark, if_neg h4, if_neg (Nat.not_lt.mpr hl)]

/-- Settles O20: each operation would store a buffer of the length named, which does not fit. -/
theorem padderStopsAtMissingCells : Obligations.PadderStopsAtMissingCells := by
  intro s
  refine ⟨execMark_of_no_word, fun h4 hfull => ?_, fun hfull => ?_, fun hfull => ?_, fun m hm hfull => ?_⟩
  · refine (execMark_new h4).trans (storeW_of_full _ ?_)
    rwa [List.length_append, List.length_singleton]
  · refine storeW_of_full _ ?_
    rwa [List.length_append, List.length_replicate, blocksFor, State.wlen, add_tsub_eq_max]
  · refine storeW_of_full _ ?_
    rwa [List.length_append]
  · obtain ⟨hl, hcells⟩ := hm
    have hr : s.msg.readRange 0 s.len = some m :=
      (Memory.readRange_eq_some_iff _ _ _ _).mpr ⟨hl.symm, fun j hj => by rw [Nat.zero_add]; exact hcells j (hl ▸ hj)⟩
    refine (execPack_of_read hr).trans (storeW_of_full _ ?_)
    rwa [packBytes_eq_wordsLE, wordsLE_length, ← hl]

end Sys2Proof.Machine
end

section
/-! PROOFS. What a host access leaves as it was: reads change the record of answers only, writes other than a command
only store (spec/20_memory.md R80), and nothing disturbs a run (R79, spec/70_reset_and_hazards.md R361, R363). -/

namespace Sys2Proof.Machine

/-! ## Reads -/

theorem readRegister_eq_next {off : Nat} {s t : State} (h : readRegister off s = .next t) :
    ∃ x, t = s.hear x ∧ ∀ y, readRegister off (s.hear y) = .next ((s.hear y).hear x) := by
  unfold readRegister at h
  split at h
  · cases h; exact ⟨_, rfl, fun _ => rfl⟩
  · cases h; exact ⟨_, rfl, fun _ => rfl⟩
  · cases h; exact ⟨_, rfl, fun _ => rfl⟩
  · cases h; exact ⟨_, rfl, fun _ => rfl⟩
  · cases h

theorem readMessage_eq_next {n : Nat} {s t : State} (h : readMessage n s = .next t) :
    ∃ x, t = s.hear x ∧ ∀ y, readMessage n (s.hear y) = .next ((s.hear y).hear x) := by
  unfold readMessage at h
  split at h
  · rename_i hn
    split at h
    · rename_i b hb
      cases h
      exact ⟨.byte b, rfl, fun y => by simp [readMessage, hn, hb]⟩
    · cases h
  · cases h

theorem readResult_eq_next {p : Nat} {s t : State} (h : readResult p s = .next t) :
    ∃ x, t = s.hear x ∧ ∀ y, readResult p (s.hear y) = .next ((s.hear y).hear x) := by
  unfold readResult at h
  split at h
  · rename_i hp
    split at h
    · rename_i hd
      cases h
      exact ⟨.byte (s.hexByte p), rfl, fun y => by simp [readResult, hp, hd]⟩
    · cases h
  · cases h

/-- A read that completes adds its answer to the record, and it answers the same whatever was read before it. -/
theorem hostAccess_read_eq_next {a : HostAccess} {s t : State}
    (ha : (∃ off, a = .readReg off) ∨ (∃ n, a = .readMsg n) ∨ (∃ p, a = .readHex p)) (h : hostAccess a s = .next t) :
    ∃ x, t = s.hear x ∧ ∀ y, hostAccess a (s.hear y) = .next ((s.hear y).hear x) := by
  rcases ha with ⟨off, rfl⟩ | ⟨n, rfl⟩ | ⟨p, rfl⟩
  · exact readRegister_eq_next h
  · exact readMessage_eq_next h
  · exact readResult_eq_next h

/-! ## Writes -/

/-- A write to a register other than `CTRL` stores a half of `LEN` or does nothing. -/
theorem writeReg_eq_next_of_ne_ctrl {off : Nat} {v : Word} {s t : State} (h0 : off ≠ 0x00)
    (h : hostAccess (.writeReg off v) s = .next t) : t = s ∨ t = s.withLenLo v ∨ t = s.withLenHi v := by
  rcases hostAccess_eq_next h with ⟨_, ⟨_, ⟨⟩⟩ | ⟨_, ⟨⟩⟩ | ⟨_, ⟨⟩⟩, -⟩ | ⟨_, _, -, ht⟩ | ⟨_, _, ⟨⟩, -⟩ | ⟨_, ⟨⟩, -, ht⟩ |
    ⟨_, ⟨⟩, -, ht⟩ | ⟨_, _, ⟨⟩, -⟩
  · exact .inl ht
  · exact absurd rfl h0
  · exact .inr (.inl ht)
  · exact .inr (.inr ht)

theorem writeMsg_eq_next {n : Nat} {b : Byte} {s t : State} (h : hostAccess (.writeMsg n b) s = .next t) :
    t = s.withMsg (s.msg.write n b) := by
  rcases hostAccess_eq_next h with ⟨_, ⟨_, ⟨⟩⟩ | ⟨_, ⟨⟩⟩ | ⟨_, ⟨⟩⟩, -⟩ | ⟨_, _, ⟨⟩, -⟩ | ⟨_, _, ⟨⟩, -⟩ | ⟨_, ⟨⟩, -⟩ |
    ⟨_, ⟨⟩, -⟩ | ⟨_, _, ⟨⟩, -, -, ht⟩
  exact ht

/-- Settles O47: a read leaves a state in which it answers the same, and a write leaves the state with what it stored. -/
theorem hostReadsHaveNoSideEffect : Obligations.HostReadsHaveNoSideEffect := by
  refine ⟨fun s t a h ha => ?_, fun s t off v h0 h => ?_, fun s t n b h => ?_⟩
  · obtain ⟨x, rfl, hagain⟩ := hostAccess_read_eq_next ha h
    exact ⟨x, rfl, hagain x⟩
  · rcases writeReg_eq_next_of_ne_ctrl h0 h with rfl | rfl | rfl
    · rfl
    · rfl
    · rfl
  · rw [writeMsg_eq_next h]; rfl

/-! ## Accesses during a run -/

/-- While `BUSY = 1` an access that is not refused answers, or does nothing: what stores or starts a run needs
`BUSY = 0`. -/
theorem hostAccess_eq_next_of_busy {a : HostAccess} {s t : State} (hb : s.busy = true)
    (h : hostAccess a s = .next t) : (∃ x, t = s.hear x) ∨ t = s := by
  have not_idle : s.busy ≠ false := by simp [hb]
  rcases hostAccess_eq_next h with ⟨x, -, ht⟩ | ⟨_, _, -, ht⟩ | ⟨_, _, -, hi, -⟩ | ⟨_, -, hi, -⟩ | ⟨_, -, hi, -⟩ |
    ⟨_, _, -, -, hi, -⟩
  · exact .inl ⟨x, ht⟩
  · exact .inr ht
  all_goals exact absurd hi not_idle

/-- Settles O48: an answer changes the record only, and anything else the access could do needs `BUSY = 0`. -/
theorem hostAccessesDoNotDisturbARun : Obligations.HostAccessesDoNotDisturbARun := by
  intro s t a hb h
  rcases hostAccess_eq_next_of_busy hb h with ⟨x, rfl⟩ | rfl
  · rfl
  · rfl

end Sys2Proof.Machine
end

section
/-! PROOFS. The decoder and the encoder (spec/30_encoding.md R100 to R106, R115, R116): what each place's decoder
answers, said once, and from it which codes are commands, operations, ignored or reserved. -/

namespace Sys2Proof.Machine

/-! ## Codes of instructions -/

/-- The decoder reads back what the encoder wrote: the 64 steps by their index, the others one by one. -/
@[simp] theorem decode_encode (i : Instr) : decode (encode i) = .instr i := by
  rcases instr_step_or_other i with ⟨k, rfl⟩ | rfl | rfl | rfl | rfl | rfl | rfl | rfl | rfl | rfl | rfl | rfl | rfl
  · rw [encode_stepInstr, decode_step_code]
  all_goals rfl

/-- The code of an instruction is not reserved. -/
theorem decode_ne_reserved_of_encode {c : Code} {i : Instr} (h : encode i = c) : decode c ≠ .reserved := by
  rw [← h, decode_encode]; nofun

/-! ## Command words -/

/-- Bits 31:2 are all 0 exactly in the words below 4. -/
theorem extractLsb'_high_eq_zero_iff (v : Word) : v.extractLsb' 2 30 = 0 ↔ v.toNat < 4 := by
  have hv := v.isLt
  rw [← BitVec.toNat_inj, BitVec.extractLsb'_toNat, Nat.shiftRight_eq_div_pow]
  change v.toNat / 2 ^ 2 % 2 ^ 30 = 0 ↔ v.toNat < 4
  omega

/-- One of bits 31:2 is set exactly in the words from 4 on. -/
theorem exists_high_bit_iff (v : Word) : (∃ n, 2 ≤ n ∧ n ≤ 31 ∧ v.getLsbD n = true) ↔ 4 ≤ v.toNat := by
  constructor
  · rintro ⟨n, hn, -, hbit⟩
    exact (Nat.pow_le_pow_right (by decide) hn).trans (Nat.ge_two_pow_of_testBit hbit)
  · intro hv
    obtain ⟨n, hn, hbit⟩ := Nat.exists_ge_and_testBit_of_ge_two_pow (n := 2) hv
    exact ⟨n, hn, Nat.le_of_lt_succ (BitVec.lt_of_getLsbD hbit), hbit⟩

/-- The words with bits 31:2 all 0. -/
theorem word_lt_four {v : Word} (h : v.toNat < 4) : v = 0 ∨ v = 1 ∨ v = 2 ∨ v = 3 := by
  bv_omega

/-- The first test of R300. -/
theorem decodeCtrl_of_high_bit {v : Word} (h : 4 ≤ v.toNat) : decodeCtrl v = .reserved :=
  if_pos fun h0 => Nat.not_lt.mpr h ((extractLsb'_high_eq_zero_iff v).mp h0)

/-- A command word that decodes to an instruction is the word the encoder gives it. -/
theorem encode_of_decode_cmd {v : Word} {i : Instr} (h : decode (.cmd v) = .instr i) : encode i = .cmd v := by
  change decodeCtrl v = .instr i at h
  rcases Nat.lt_or_ge v.toNat 4 with hv | hv
  · rcases word_lt_four hv with rfl | rfl | rfl | rfl
    · cases h
    · cases h; rfl
    · cases h
    · cases h; rfl
  · rw [decodeCtrl_of_high_bit hv] at h; cases h

/-- Settles O4: decoding what was encoded gives the instruction back, and in either place a code that decodes is the one
its instruction is encoded to. -/
theorem decodeInvertsEncode : Obligations.DecodeInvertsEncode := by
  refine fun c i _ => ⟨fun h => ?_, fun h => h ▸ decode_encode i⟩
  cases c with
  | uop c => exact (encode_of_decode_uop h).symm
  | cmd v => exact (encode_of_decode_cmd h).symm

/-- Settles O3: each word is the code of its operation. -/
theorem wordsDecodeAsTheTablesSay : Obligations.WordsDecodeAsTheTablesSay :=
  ⟨decode_encode .ff0, decode_encode .ff15, decode_encode .gg20, decode_encode .hh47, decode_encode .ii60,
    decode_encode .pack, decode_encode .lenw, decode_encode .chain, decode_encode .encu, decode_encode .fin,
    decode_encode .hashl, decode_encode .hashu⟩

/-- Settles O6: the words split at 4, below which the two commands, 0 and 2 are all there is. -/
theorem commandWordsOtherThanTheTwo : Obligations.CommandWordsOtherThanTheTwo := by
  refine fun s v => ⟨?_, fun hbit => ?_, fun h1 h3 h0 h2 => ?_⟩
  · rintro (rfl | rfl)
    · rfl
    · rfl
  · have hd : decode (.cmd v) = .reserved := decodeCtrl_of_high_bit ((exists_high_bit_iff v).mp hbit)
    change writeCtrl v s = _
    rw [writeCtrl, hd]
  · refine (exists_high_bit_iff v).mpr (Nat.le_of_not_lt fun hv => ?_)
    rcases word_lt_four hv with h | h | h | h
    · exact h0 h
    · exact h1 h
    · exact h2 h
    · exact h3 h

/-! ## Micro-operation codes -/

/-- The decoder looks up `sub` in the row of the class map that `cls` names. -/
theorem decode_uop_eq_elim (c : BitVec 8) :
    decode (.uop c) = ((classMap (c.extractLsb' 6 2))[(c.extractLsb' 0 6).toNat]?).elim .reserved .instr := by
  change decodeUop c = _
  unfold decodeUop
  split
  · rename_i h; rw [h]; rfl
  · rename_i h; rw [h]; rfl

/-- The same for a code put together from its two fields. -/
theorem decode_uop_append (cls : BitVec 2) (sub : BitVec 6) :
    decode (.uop (cls ++ sub)) = ((classMap cls)[sub.toNat]?).elim .reserved .instr := by
  rw [decode_uop_eq_elim, BitVec.extractLsb'_append_eq_left, BitVec.extractLsb'_append_eq_right]

/-- A code is reserved when its class has fewer operations than `sub` counts. -/
theorem decode_uop_eq_reserved_iff (c : BitVec 8) :
    decode (.uop c) = .reserved ↔ (classMap (c.extractLsb' 6 2)).length ≤ (c.extractLsb' 0 6).toNat := by
  rw [decode_uop_eq_elim, ← List.getElem?_eq_none_iff]
  cases (classMap (c.extractLsb' 6 2))[(c.extractLsb' 0 6).toNat]? with
  | none => exact iff_of_true rfl rfl
  | some i => exact iff_of_false nofun nofun

/-- How many operations each class has (spec/30_encoding.md R103). -/
theorem classMap_length (cls : BitVec 2) :
    (classMap cls).length = if cls.toNat = 0 then 64 else if cls.toNat = 1 then 4 else 3 := by
  revert cls; decide

theorem decode_uop_reserved_ranges (c : BitVec 8) :
    decode (.uop c) = .reserved ↔
      (0x44 ≤ c.toNat ∧ c.toNat ≤ 0x7F) ∨ (0x83 ≤ c.toNat ∧ c.toNat ≤ 0xBF) ∨ (0xC3 ≤ c.toNat ∧ c.toNat ≤ 0xFF) := by
  have hc := c.isLt
  have hcls : (c.extractLsb' 6 2).toNat = c.toNat / 64 := by
    rw [BitVec.extractLsb'_toNat, Nat.shiftRight_eq_div_pow]; omega
  have hsub : (c.extractLsb' 0 6).toNat = c.toNat % 64 := by
    rw [BitVec.extractLsb'_toNat, Nat.shiftRight_zero]
  rw [decode_uop_eq_reserved_iff, classMap_length, hcls, hsub]
  split
  · omega
  · split
    · omega
    · omega

/-- A lookup in a class of three operations. -/
theorem elim_getElem?_three (a b c : Instr) (n : Nat) :
    ([a, b, c][n]?).elim Decoded.reserved .instr =
      if n = 0 then .instr a else if n = 1 then .instr b else if n = 2 then .instr c else .reserved := by
  rcases n with _ | _ | _ | n <;> rfl

/-- A lookup in a class of four operations. -/
theorem elim_getElem?_four (a b c d : Instr) (n : Nat) :
    ([a, b, c, d][n]?).elim Decoded.reserved .instr =
      if n = 0 then .instr a else if n = 1 then .instr b else if n = 2 then .instr c else if n = 3 then .instr d
      else .reserved := by
  rcases n with _ | _ | _ | _ | n <;> rfl

/-- Settles O7: `sub` is looked up among the 64 steps, and in the lists of four and three operations. -/
theorem classMapOfTheCodes : Obligations.ClassMapOfTheCodes := by
  refine fun sub => ⟨⟨_, List.getElem?_eq_getElem sub.isLt, ?_⟩,
    (decode_uop_append _ sub).trans (elim_getElem?_four _ _ _ _ _),
    (decode_uop_append _ sub).trans (elim_getElem?_three _ _ _ _),
    (decode_uop_append _ sub).trans (elim_getElem?_three _ _ _ _)⟩
  have hsteps : classMap 0b00#2 = (Stated.roundOne ++ Stated.roundTwo ++ Stated.roundThree ++ Stated.roundFour).map
      Stated.Row.instr := rfl
  rw [decode_uop_append, hsteps, List.getElem?_map, List.getElem?_eq_getElem sub.isLt]
  rfl

/-! ## No step leads to a reserved code -/

theorem engineTurn_of_reserved {s : State} (hb : s.busy = true) (h : decode (.uop s.upc) = .reserved) :
    engineTurn s = .refused (.reservedUop s.upc) := by
  rw [engineTurn, if_pos hb, h]

/-- The code after a step is that of the next step or of `CHAIN`. -/
theorem encode_stepSuccessor (k : Fin 64) : ∃ j, encode j = .uop (stepSuccessor k) := by
  by_cases hk : k.val = 63
  · exact ⟨.chain, by rw [stepSuccessor, if_pos hk]; rfl⟩
  · exact ⟨stepInstr ⟨k.val + 1, by omega⟩, by rw [stepSuccessor, if_neg hk, encode_stepInstr]⟩

/-- An instruction keeps `UPC` or puts the code of an instruction there. -/
theorem exec_upc {i : Instr} {s t : State} (h : exec i s = .next t) :
    t.upc = s.upc ∨ ∃ j, encode j = .uop t.upc := by
  rcases exec_eq_next h with ⟨k, _, _, _, rfl⟩ | ⟨_, _, _, _, rfl⟩ | ⟨_, _, _, rfl⟩ | ⟨_, _, _, rfl⟩ | ⟨_, _, _, _, rfl⟩ |
    ⟨_, _, _, _, rfl⟩ | ⟨_, rfl⟩ | ⟨_, rfl⟩ | ⟨_, _, rfl⟩ | ⟨_, _, rfl⟩ | ⟨_, rfl⟩ | ⟨_, rfl⟩ | ⟨_, rfl⟩ | ⟨_, _, rfl⟩ |
    ⟨_, _, _, _, _, rfl⟩
  · exact .inr (encode_stepSuccessor k)
  · exact .inr ⟨.mark, rfl⟩ -- PACK
  · exact .inr ⟨.zext, rfl⟩ -- MARK with a new word
  · exact .inr ⟨.zext, rfl⟩ -- MARK into an existing word
  · exact .inr ⟨.lenw, rfl⟩ -- ZEXT
  · exact .inr ⟨.init, rfl⟩ -- LENW
  · exact .inr ⟨.snap, rfl⟩ -- INIT
  · exact .inr ⟨.ff0, rfl⟩ -- SNAP
  · exact .inr ⟨.snap, rfl⟩ -- CHAIN to the next block
  · exact .inr ⟨.encl, rfl⟩ -- CHAIN after the last block
  · rw [State.withUpc_upc] -- ENCL
    cases s.u with
    | true => exact .inr ⟨.encu, rfl⟩
    | false => exact .inr ⟨.fin, rfl⟩
  · exact .inr ⟨.fin, rfl⟩ -- ENCU
  · exact .inl rfl -- FIN
  · exact .inl rfl -- a command while busy
  · exact .inr ⟨.pack, rfl⟩ -- an accepted command

/-- A step keeps `UPC` or puts the code of an instruction there; after the reset move it is that of `FF0` (log 3). -/
theorem step_upc {s t : State} (h : step s = .next t) : t.upc = s.upc ∨ ∃ j, encode j = .uop t.upc := by
  rcases step_eq_next h with ⟨ms, h⟩ | ⟨a, ms, h⟩ | ⟨ms, rfl⟩
  · rcases engineTurn_eq_next h with ⟨-, i, -, hx⟩ | ⟨-, rfl⟩
    · exact exec_upc (s := s.withPending ms) hx
    · exact .inl rfl
  · rcases hostAccess_eq_next h with ⟨_, -, rfl⟩ | ⟨_, _, -, rfl⟩ | ⟨_, _, -, -, -, -, rfl⟩ | ⟨_, -, -, rfl⟩ |
      ⟨_, -, -, rfl⟩ | ⟨_, _, -, -, -, rfl⟩
    case inr.inr.inl => exact .inr ⟨.pack, rfl⟩
    all_goals exact .inl rfl
  · exact .inr ⟨.ff0, rfl⟩

/-- Settles O5: a class has too few operations for the codes of the three ranges, and a step goes to an instruction's
code. -/
theorem reservedCodesAreRefusedAndNeverReached : Obligations.ReservedCodesAreRefusedAndNeverReached := by
  refine ⟨decode_uop_reserved_ranges, ?_, fun s => engineTurn_of_reserved, fun s t hs hres => ?_⟩
  · rfl -- the count, code by code
  · rcases step_upc hs with h | ⟨j, hj⟩
    · rwa [h]
    · exact decode_ne_reserved_of_encode hj

end Sys2Proof.Machine
end

section
/-! PROOFS. The step table (spec/30_encoding.md R105, R109 to R114, R120): the written-out rows of the four rounds are
those of the model's tables, a row is found by its constant alone, and a step has the effect of its row
(spec/41_core_entry.md R166). -/

namespace Sys2Proof.Machine

/-! ## The written-out rows -/

/-- Row `k` as the model's tables give it. -/
def rowOf (k : Fin 64) : Stated.Row :=
  ⟨stepInstr k, (kOf k).val, (sOf k).val, (tOf k).toNat, (stepSuccessor k).toNat⟩

/-- The rows of the round that uses the function `fn`, written out. -/
def roundRows : Fn → List Stated.Row
  | .f => Stated.roundOne
  | .g => Stated.roundTwo
  | .h => Stated.roundThree
  | .i => Stated.roundFour

/-- The written-out rows agree with the tables, row by row. -/
theorem roundRows_eq_map (fn : Fn) :
    roundRows fn = ((List.finRange 64).filter fun k => decide (fnOf k = fn)).map rowOf := by
  cases fn <;> rfl

theorem mem_roundRows_iff {fn : Fn} {row : Stated.Row} : row ∈ roundRows fn ↔ ∃ k, fnOf k = fn ∧ rowOf k = row := by
  simp [roundRows_eq_map]

/-! ## Pseudo-steps -/

/-- No two steps have the same additive constant. -/
theorem tOf_injective {j k : Fin 64} (h : tOf j = tOf k) : j = k := by
  have hnodup : tTab.Nodup := by decide
  have hget : ∀ i : Fin 64, tOf i = tTab[i.val] := fun i => List.getD_eq_getElem tTab 0 i.isLt
  rw [hget, hget, hnodup.getElem_inj_iff] at h
  exact Fin.ext h

/-- A pseudo-step expands to the step whose row it equals; there is at most one, as the constants differ. -/
theorem expandPseudo_eq_some_iff (p : PseudoStep) (i : Instr) :
    expandPseudo p = some i ↔ ∃ k, p = stepRow k ∧ stepInstr k = i := by
  unfold expandPseudo
  split
  · rename_i j hj
    have hp : p = stepRow j := by simpa using List.find?_some hj
    constructor
    · intro h; exact ⟨j, hp, Option.some.inj h⟩
    · rintro ⟨k, hk, rfl⟩
      rw [tOf_injective (congrArg PseudoStep.t (hp.symm.trans hk))]
  · rename_i hnone
    refine iff_of_false nofun ?_
    rintro ⟨k, hk, -⟩
    exact List.find?_eq_none.mp hnone k (List.mem_finRange k) (decide_eq_true hk)

/-- A pseudo-step equals row `k` when it has the row's function and its three written-out parameters. -/
theorem eq_stepRow_iff (p : PseudoStep) (k : Fin 64) :
    p = stepRow k ↔ fnOf k = p.fn ∧ p.k = (rowOf k).k ∧ p.s = (rowOf k).s ∧ p.t.toNat = (rowOf k).t := by
  obtain ⟨fn, _, _, _⟩ := p
  rw [stepRow, PseudoStep.mk.injEq, eq_comm (a := fn)]
  simp only [rowOf, BitVec.toNat_inj]

/-- Settles O8: the rows of the round that the function names hold exactly one row for each step of that round. -/
theorem pseudoStepStandsForItsRow : Obligations.PseudoStepStandsForItsRow := by
  intro p i
  have hrows : expandPseudo p = some i ↔
      ∃ row ∈ roundRows p.fn, row.instr = i ∧ p.k = row.k ∧ p.s = row.s ∧ p.t.toNat = row.t := by
    rw [expandPseudo_eq_some_iff]
    constructor
    · rintro ⟨k, hk, hi⟩
      obtain ⟨hfn, hpar⟩ := (eq_stepRow_iff p k).mp hk
      exact ⟨rowOf k, mem_roundRows_iff.mpr ⟨k, hfn, rfl⟩, hi, hpar⟩
    · rintro ⟨row, hrow, hi, hpar⟩
      obtain ⟨k, hfn, rfl⟩ := mem_roundRows_iff.mp hrow
      exact ⟨k, (eq_stepRow_iff p k).mpr ⟨hfn, hpar⟩, hi⟩
  rw [hrows]
  cases p.fn <;> simp [roundRows]

/-! ## The effect of a step -/

theorem add32_eq_ofNat_plus (x y : Word) : add32 x y = BitVec.ofNat 32 (Stated.plus x.toNat y.toNat) := by
  rw [Stated.plus, ← add32_toNat, BitVec.ofNat_toNat, BitVec.setWidth_eq]

/-- The step in the model and the effect of its row as the statements write it. -/
theorem withRegs_roundStep_eq_afterStep (k : Fin 64) (x : Word) (s : State) :
    (s.withRegs (roundStep k s.regs x)).withUpc (stepSuccessor k) =
      Stated.afterStep (nonlinear (fnOf k)) (rowOf k) x s := by
  have hplus : ∀ y z : Word, Stated.plus y.toNat z.toNat = (add32 y z).toNat := fun y z => (add32_toNat y z).symm
  have hnext : BitVec.ofNat 8 (stepSuccessor k).toNat = stepSuccessor k := by
    rw [BitVec.ofNat_toNat, BitVec.setWidth_eq]
  simp only [Stated.afterStep, rowOf, hplus, ← rotl32_toNat, hnext, BitVec.ofNat_toNat, BitVec.setWidth_eq]
  rfl

/-- The steps of a round complete with the effect of their rows, once for the four rounds. -/
theorem roundCompletes (fn : Fn) : Stated.RoundCompletes (nonlinear fn) (roundRows fn) := by
  intro row hrow s hlt
  obtain ⟨k, rfl, rfl⟩ := mem_roundRows_iff.mp hrow
  obtain ⟨x, hx⟩ := (messageWord_isSome_iff k s).mpr hlt
  exact ⟨x, hx, by rw [← withRegs_roundStep_eq_afterStep, ← stepOp_of_word hx]; exact exec_stepInstr k s⟩

/-- Settles O25: the rows of the round of `F`. -/
theorem roundOneStepsComplete : Obligations.RoundOneStepsComplete := roundCompletes .f

/-- Settles O26: the rows of the round of `G`. -/
theorem roundTwoStepsComplete : Obligations.RoundTwoStepsComplete := roundCompletes .g

/-- Settles O27: the rows of the round of `H`. -/
theorem roundThreeStepsComplete : Obligations.RoundThreeStepsComplete := roundCompletes .h

/-- Settles O28: the rows of the round of `I`. -/
theorem roundFourStepsComplete : Obligations.RoundFourStepsComplete := roundCompletes .i

/-! ## The constant tables -/

/-- Settles O12, table by table. -/
theorem constantTablesPassTheirChecks : Obligations.ConstantTablesPassTheirChecks := by
  refine ⟨rfl, ?_, ?_, ?_, ?_, ?_, ?_, ?_⟩
  · decide -- the message-word indexes by round
  · decide -- the rotation amounts by round
  · decide -- the sums of both
  · decide
  · decide -- the sum and the exclusive-or of the constants
  · decide
  · decide -- the digits

end Sys2Proof.Machine
end

section
/-! PROOFS. The padder (spec/40_padder.md R141 to R152): the words of a byte sequence by index, then each operation where
the buffer holds what it stores, then the four in a row. -/

namespace Sys2Proof.Machine

/-! ## The words of a byte sequence -/

theorem leWord_toNat (b0 b1 b2 b3 : Byte) :
    (leWord b0 b1 b2 b3).toNat = b0.toNat + 2 ^ 8 * b1.toNat + 2 ^ 16 * b2.toNat + 2 ^ 24 * b3.toNat := by
  have append (n : Nat) (x : BitVec n) (y : Byte) : (x ++ y).toNat = 2 ^ 8 * x.toNat + y.toNat := by
    rw [BitVec.toNat_append, Nat.shiftLeft_eq, Nat.mul_comm, Nat.two_pow_add_eq_or_of_lt y.isLt]
  rw [leWord, append, append, append]
  omega

/-- Byte `r` of a word built from four bytes, the first least significant (spec/20_memory.md R70). -/
theorem extractLsb'_leWord (f : Nat → Byte) {r : Nat} (hr : r < 4) :
    (leWord (f 0) (f 1) (f 2) (f 3)).extractLsb' (8 * r) 8 = f r := by
  have h0 := (f 0).isLt
  have h1 := (f 1).isLt
  have h2 := (f 2).isLt
  rw [← BitVec.toNat_inj, BitVec.extractLsb'_toNat, leWord_toNat, Nat.shiftRight_eq_div_pow]
  interval_cases r <;> omega

/-- Word `j` of a byte sequence that reaches it is made of the bytes `4 * j` to `4 * j + 3`, those past the end zero
(spec/40_padder.md R143). -/
theorem getElem_wordsLE (bs : List Byte) {j : Nat} (h : 4 * j < bs.length) :
    (wordsLE bs)[j]? = some (leWord (bs[4 * j]?.getD 0) (bs[4 * j + 1]?.getD 0) (bs[4 * j + 2]?.getD 0)
      (bs[4 * j + 3]?.getD 0)) := by
  induction bs using wordsLE.induct generalizing j with
  | case1 => cases h
  | case2 b0 =>
    obtain rfl : j = 0 := by simp only [List.length_cons, List.length_nil] at h; omega
    rfl
  | case3 b0 b1 =>
    obtain rfl : j = 0 := by simp only [List.length_cons, List.length_nil] at h; omega
    rfl
  | case4 b0 b1 b2 =>
    obtain rfl : j = 0 := by simp only [List.length_cons, List.length_nil] at h; omega
    rfl
  | case5 b0 b1 b2 b3 bs ih =>
    cases j with
    | zero => rfl
    | succ j => exact ih (by simp only [List.length_cons] at h; omega)

/-- Every word of a byte sequence has the spec's value (spec/40_padder.md R143, R148). -/
theorem wordsLE_littleEndian (bs : List Byte) {j : Nat} (h : j < (wordsLE bs).length) :
    ∃ x, (wordsLE bs)[j]? = some x ∧ x.toNat = Stated.littleEndian bs j := by
  rw [wordsLE_length] at h
  exact ⟨_, getElem_wordsLE bs (by omega), leWord_toNat _ _ _ _⟩

/-- Byte `j` stands in word `j div 4` at byte position `j mod 4` (spec/40_padder.md R142). -/
theorem wordsLE_byte {bs : List Byte} {j : Nat} {b : Byte} (h : bs[j]? = some b) :
    ∃ x, (wordsLE bs)[j / 4]? = some x ∧ x.extractLsb' (8 * (j % 4)) 8 = b := by
  obtain ⟨hj, -⟩ := List.getElem?_eq_some_iff.mp h
  refine ⟨_, getElem_wordsLE bs (by omega),
    (extractLsb'_leWord (fun r => bs[4 * (j / 4) + r]?.getD 0) (Nat.mod_lt j (by decide))).trans ?_⟩
  rw [Nat.div_add_mod, h, Option.getD_some]

/-! ## The capacity -/

theorem storeW_of_bufferHolds {s : State} {w : List Word} (c : BitVec 8) (h : Stated.BufferHolds s w.length) :
    storeW s w c = .next { s with w := w, upc := c } :=
  storeW_of_fits c ((s.wFits_iff_bufferHolds w.length).mpr h)

/-- A length within the capacity leaves room for its padded message (spec/10_state.md R35). -/
theorem bufferHolds_of_withinCapacity {s : State} {n : Nat} (h : Stated.WithinCapacity s)
    (hn : n ≤ 16 * blocksFor s.len) : Stated.BufferHolds s n := by
  intro c hc
  have hlen := h c hc
  unfold blocksFor at hn
  omega

/-! ## `PACK` -/

theorem State.HoldsMessage.readRange {s : State} {m : List Byte} (h : s.HoldsMessage m) :
    s.msg.readRange 0 s.len = some m := by
  obtain ⟨hl, hcells⟩ := h
  exact (Memory.readRange_eq_some_iff _ _ _ _).mpr
    ⟨hl.symm, fun j hj => by rw [Nat.zero_add]; exact hcells j (hl ▸ hj)⟩

/-- Settles O14: the words of the message, by their value and by their bytes. -/
theorem packAssemblesLittleEndianWords : Obligations.PackAssemblesLittleEndianWords := by
  intro s m hm hcap
  have hlen : (wordsLE m).length = (s.len + 3) / 4 := by rw [wordsLE_length, hm.1]
  have hfits : Stated.BufferHolds s (wordsLE m).length :=
    bufferHolds_of_withinCapacity hcap (by rw [hlen]; unfold blocksFor; omega)
  exact ⟨wordsLE m, exec_pack_of_message hm.readRange ((s.wFits_iff_bufferHolds _).mpr hfits), hlen,
    fun j => wordsLE_littleEndian m, fun j b => wordsLE_byte⟩

/-! ## `MARK` -/

/-- The pad byte at each byte position, as the spec writes it out (spec/40_padder.md R144). -/
theorem padByte_at {r : Nat} (hr : r < 4) :
    ([0x00000080, 0x00008000, 0x00800000, 0x80000000] : List Word)[r]? = some (shl32 0x80 (8 * r)) := by
  match r, hr with
  | 0, _ => rfl
  | 1, _ => rfl
  | 2, _ => rfl
  | 3, _ => rfl

theorem exec_mark_new {s : State} (h4 : s.len % 4 = 0) (hf : Stated.BufferHolds s (s.w.length + 1)) :
    exec .mark s = .next { s with w := s.w ++ [0x00000080], upc := 0x42 } :=
  (execMark_new h4).trans (storeW_of_bufferHolds _ (by rwa [List.length_append]))

theorem exec_mark_into {s : State} {x : Word} (h4 : s.len % 4 ≠ 0) (hx : s.w[s.len / 4]? = some x) :
    exec .mark s = .next
      { s with w := s.w.set (s.len / 4) (x ||| shl32 0x80 (8 * (s.len % 4))), upc := 0x42 } := by
  obtain ⟨hl, -⟩ := List.getElem?_eq_some_iff.mp hx
  refine (execMark_into h4 hl).trans ?_
  rw [List.modify_eq_set_getElem?, hx]
  rfl

/-- Settles O16, by the two cases of the byte position. -/
theorem markPlacesThePadByte : Obligations.MarkPlacesThePadByte := by
  intro s
  refine ⟨exec_mark_new, fun h4 hl => ?_, fun hw hcap => ?_⟩
  · exact ⟨_, _, List.getElem?_eq_getElem hl, padByte_at (Nat.mod_lt _ (by decide)),
      exec_mark_into h4 (List.getElem?_eq_getElem hl)⟩
  · by_cases h4 : s.len % 4 = 0
    · have hlen : s.w.length + 1 = s.len / 4 + 1 := by omega
      have hroom := marked_le_blocksFor s.len
      exact ⟨_, exec_mark_new h4 (bufferHolds_of_withinCapacity hcap (by omega)),
        by rw [List.length_append, ← hlen, List.length_singleton]⟩
    · have hl : s.len / 4 < s.w.length := by omega
      exact ⟨_, exec_mark_into h4 (List.getElem?_eq_getElem hl), by rw [List.length_set]; omega⟩

/-! ## `ZEXT` -/

theorem exec_zext_of_bufferHolds {s : State}
    (hf : Stated.BufferHolds s (max s.w.length (16 * blocksFor s.len - 2))) :
    exec .zext s = .next
      { s with w := s.w ++ List.replicate (16 * blocksFor s.len - 2 - s.w.length) 0x00000000, upc := 0x43 } :=
  storeW_of_bufferHolds _ (by rwa [List.length_append, List.length_replicate, State.wlen, add_tsub_eq_max])

/-- Settles O17: the buffer `MARK` leaves is no longer than `ZEXT` makes it, and the number of words appended is the
difference. -/
theorem zextAppendsZeroWords : Obligations.ZextAppendsZeroWords := by
  intro s
  refine ⟨exec_zext_of_bufferHolds, fun hw hcap => ?_⟩
  have hroom := marked_le_blocksFor s.len
  refine ⟨_, exec_zext_of_bufferHolds (bufferHolds_of_withinCapacity hcap (by omega)), ?_⟩
  rw [hw]
  unfold blocksFor
  omega

/-! ## `LENW` -/

theorem exec_lenw_of_bufferHolds {s : State} (hf : Stated.BufferHolds s (s.w.length + 2)) :
    exec .lenw s = .next { s with
      w := s.w ++ [(bitLength s.len).extractLsb' 0 32, (bitLength s.len).extractLsb' 32 32], upc := 0x80 } :=
  storeW_of_bufferHolds _ (by rwa [List.length_append])

/-- The trailer of an admitted length is exact (spec/40_padder.md R147). -/
theorem bitLength_toNat {l : Nat} (h : l < 2 ^ 61) : (bitLength l).toNat = 8 * l := by
  rw [bitLength, if_pos h, BitVec.toNat_ofNat]
  omega

/-- The two words of a 64-bit value. -/
theorem toNat_words (v : BitVec 64) :
    (v.extractLsb' 0 32).toNat = v.toNat % 2 ^ 32 ∧ (v.extractLsb' 32 32).toNat = v.toNat / 2 ^ 32 := by
  have hv := v.isLt
  rw [BitVec.extractLsb'_toNat, BitVec.extractLsb'_toNat, Nat.shiftRight_zero, Nat.shiftRight_eq_div_pow]
  omega

/-- Settles O18: the two words of `8 * L`, which is below `2^64`. -/
theorem lenwAppendsTheBitLength : Obligations.LenwAppendsTheBitLength := by
  intro s hf hl
  obtain ⟨hlo, hhi⟩ := toNat_words (bitLength s.len)
  rw [bitLength_toNat hl] at hlo hhi
  refine ⟨_, _, exec_lenw_of_bufferHolds hf, hlo, hhi, ?_⟩
  rw [hlo, hhi, List.length_append, List.length_cons, List.length_singleton]
  omega

/-- Settles O19: the number of words does not depend on their values. -/
theorem lenwBeyondTheAdmittedLengths : Obligations.LenwBeyondTheAdmittedLengths :=
  fun _ hf _ => ⟨_, _, exec_lenw_of_bufferHolds hf⟩

/-! ## The four operations in a row -/

/-- Each operation runs on what the one before it left, up to the padded message. -/
theorem exec_padder {s : State} {m : List Byte} (hm : s.HoldsMessage m) (hcap : Stated.WithinCapacity s) :
    exec .pack s = .next ((s.withW (wordsLE m)).withUpc 0x41) ∧
    exec .mark ((s.withW (wordsLE m)).withUpc 0x41) = .next ((s.withW (wordsLE (m ++ [0x80]))).withUpc 0x42) ∧
    exec .zext ((s.withW (wordsLE (m ++ [0x80]))).withUpc 0x42) =
      .next ((s.withW (wordsLE (m ++ [0x80] ++ List.replicate (zeroCount m.length) 0))).withUpc 0x43) ∧
    exec .lenw ((s.withW (wordsLE (m ++ [0x80] ++ List.replicate (zeroCount m.length) 0))).withUpc 0x43) =
      .next ((s.withW (pad m)).withUpc 0x80) := by
  have hl : s.len = m.length := hm.1
  have hpad : s.wFits (pad m).length = true :=
    (s.wFits_iff_bufferHolds _).mpr (bufferHolds_of_withinCapacity hcap (by rw [pad_length, hl]))
  have hfits : ∀ bs : List Byte, bs.length ≤ (m ++ [0x80] ++ List.replicate (zeroCount m.length) 0).length →
      s.wFits (wordsLE bs).length = true := fun bs hbs =>
    s.wFits_of_le hpad (by rw [markedZeroed_length] at hbs; rw [wordsLE_length, pad_length]; omega)
  exact ⟨exec_pack_of_message hm.readRange (hfits m (by simp)), exec_mark_of_words hl rfl (hfits _ (by simp)),
    exec_zext_of_words hl rfl (hfits _ le_rfl), exec_lenw_of_words hl rfl hpad⟩

/-- `P` is a whole number of blocks (spec/40_padder.md R149). -/
theorem paddedBytes_length (m : List Byte) : (paddedBytes m).length = 64 * blocksFor m.length := by
  have htrailer : (le64 (bitLength m.length)).length = 8 := rfl
  have hpos := blocksFor_pos m.length
  rw [paddedBytes, List.length_append, markedZeroed_length, htrailer]
  omega

/-- Settles O21: the four operations leave `pad(M)`, whose words are those of `P`. -/
theorem padderLeavesThePaddedMessage : Obligations.PadderLeavesThePaddedMessage := by
  intro s m hm hcap _
  obtain ⟨hpack, hmark, hzext, hlenw⟩ := exec_padder hm hcap
  have hl : s.len = m.length := hm.1
  refine ⟨pad m, ?_, hl ▸ paddedBytes_length m, hl ▸ pad_length m, fun j => wordsLE_littleEndian (paddedBytes m)⟩
  rw [execAll_cons hpack, execAll_cons hmark, execAll_cons hzext, execAll_cons hlenw]
  rfl

/-- The lengths of the buffer after the four operations, for every message (spec/40_padder.md R142 to R147). -/
theorem exec_padder_lengths {s : State} {m : List Byte} (hm : s.HoldsMessage m) (hcap : Stated.WithinCapacity s) :
    ∃ t1 t2 t3 t4, exec .pack s = .next t1 ∧ exec .mark t1 = .next t2 ∧ exec .zext t2 = .next t3 ∧
      exec .lenw t3 = .next t4 ∧ t1.w.length = (m.length + 3) / 4 ∧ t2.w.length = m.length / 4 + 1 ∧
      t3.w.length = 16 * blocksFor m.length - 2 ∧ t4.w.length = 16 * blocksFor m.length := by
  obtain ⟨hpack, hmark, hzext, hlenw⟩ := exec_padder hm hcap
  refine ⟨_, _, _, _, hpack, hmark, hzext, hlenw, wordsLE_length m, ?_, ?_, pad_length m⟩
  · rw [State.withUpc_w, State.withW_w, wordsLE_length, List.length_append, List.length_singleton]
    omega
  · rw [State.withUpc_w, State.withW_w, wordsLE_length, markedZeroed_length]
    omega

/-- Settles O22: the rows of the table have the lengths that hold for every message. -/
theorem padderBoundaryLengths : Obligations.PadderBoundaryLengths := by
  intro row hrow
  have htable : (row.1 + 3) / 4 = row.2.1 ∧ row.1 / 4 + 1 = row.2.2.1 ∧
      16 * blocksFor row.1 - 2 = row.2.2.2.1 ∧ 16 * blocksFor row.1 = row.2.2.2.2 := by
    revert row; decide
  obtain ⟨h1, h2, h3, h4⟩ := htable
  intro s m hm hlen hcap
  have hrun := exec_padder_lengths hm hcap
  rwa [hlen, h1, h2, h3, h4] at hrun

end Sys2Proof.Machine
end

section
/-! PROOFS. The core's entry and its step in general (spec/41_core_entry.md R160 to R168): the registers `INIT` and
`SNAP` load, the nonlinear functions bit by bit, the one message word of a step, and the form that moves the data against
the form that moves the roles. -/

namespace Sys2Proof.Machine

/-! ## The registers loaded before a block -/

/-- Settles O23, from the definitions: neither operation reads anything it could fail on. -/
theorem initAndSnapLoadTheirRegisters : Obligations.InitAndSnapLoadTheirRegisters := fun _ => ⟨rfl, rfl⟩

/-! ## The nonlinear functions -/

section
variable (b c d : Word) {n : Nat}

theorem nonlinear_f_getLsbD (hn : n < 32) :
    (nonlinear .f b c d).getLsbD n = if b.getLsbD n then c.getLsbD n else d.getLsbD n := by
  rw [nonlinear, BitVec.getLsbD_or, BitVec.getLsbD_and, BitVec.getLsbD_and, BitVec.getLsbD_not, decide_eq_true hn]
  cases b.getLsbD n <;> simp

theorem nonlinear_g_getLsbD (hn : n < 32) :
    (nonlinear .g b c d).getLsbD n = if d.getLsbD n then b.getLsbD n else c.getLsbD n := by
  rw [nonlinear, BitVec.getLsbD_or, BitVec.getLsbD_and, BitVec.getLsbD_and, BitVec.getLsbD_not, decide_eq_true hn]
  cases d.getLsbD n <;> simp

/-- The exclusive or of three bits is their parity. -/
theorem nonlinear_h_getLsbD_iff :
    (nonlinear .h b c d).getLsbD n = true ↔
      ((b.getLsbD n).toNat + (c.getLsbD n).toNat + (d.getLsbD n).toNat) % 2 = 1 := by
  have parity : ∀ x y z : Bool, (x ^^ y ^^ z) = true ↔ (x.toNat + y.toNat + z.toNat) % 2 = 1 := by decide
  rw [nonlinear, BitVec.getLsbD_xor, BitVec.getLsbD_xor]
  exact parity _ _ _

theorem nonlinear_i_getLsbD (hn : n < 32) :
    (nonlinear .i b c d).getLsbD n = (c.getLsbD n != (b.getLsbD n || !d.getLsbD n)) := by
  rw [nonlinear, BitVec.getLsbD_xor, BitVec.getLsbD_or, BitVec.getLsbD_not, decide_eq_true hn, Bool.true_and]

end

/-- The function of a step is that of its round of 16 steps (spec/41_core_entry.md R166). -/
theorem fnOf_by_round (i : Fin 64) :
    (i.val < 16 → fnOf i = .f) ∧ (16 ≤ i.val → i.val < 32 → fnOf i = .g) ∧
      (32 ≤ i.val → i.val < 48 → fnOf i = .h) ∧ (48 ≤ i.val → fnOf i = .i) := by
  unfold fnOf
  refine ⟨fun h => ?_, fun hlo hhi => ?_, fun hlo hhi => ?_, fun h => ?_⟩
  · simp only [show i.val / 16 = 0 by omega]
  · simp only [show i.val / 16 = 1 by omega]
  · simp only [show i.val / 16 = 2 by omega]
  · simp only [show i.val / 16 = 3 by omega]

/-- Settles O11: the formulas are the definition's, the bits and the rounds the lemmas above, the values computed. -/
theorem nonlinearFunctionsBitByBit : Obligations.NonlinearFunctionsBitByBit := by
  refine ⟨fun b c d => ⟨rfl, rfl, rfl, rfl, fun n hn => ?_⟩, fnOf_by_round, ?_, ?_, ?_, ?_⟩
  · exact ⟨nonlinear_f_getLsbD b c d hn, nonlinear_g_getLsbD b c d hn, nonlinear_h_getLsbD_iff b c d,
      nonlinear_i_getLsbD b c d hn⟩
  all_goals decide

/-! ## The message word of a step -/

/-- A step reads the buffer at its own word only, and never stores into it (spec/41_core_entry.md R167). -/
theorem stepOp_withW {i : Fin 64} {s t : State} {v : List Word} (hv : v[s.wordIndex i]? = s.messageWord i)
    (h : stepOp i s = .next t) : stepOp i (s.withW v) = .next (t.withW v) := by
  obtain ⟨x, hx, rfl⟩ := (stepOp_eq_next_iff i s t).mp h
  exact stepOp_of_word (hv.trans hx)

/-- Settles O29: a step on another buffer with the same message word, and a step without one. -/
theorem stepUsesExactlyOneMessageWord : Obligations.StepUsesExactlyOneMessageWord := by
  intro i s
  simp only [exec_stepInstr]
  exact ⟨fun v t hv h => stepOp_withW hv h, fun hw => stepOp_of_no_word (List.getElem?_eq_none hw)⟩

/-! ## The moving form and the data-at-rest form -/

/-- The registers one place on: the value in the first goes to the second, the one in the last comes to the first. -/
def Regs.turn (r : Regs) : Regs := { a := r.d, b := r.a, c := r.b, d := r.c }

/-- The value a step computes, which the moving form stores in `B` (spec/41_core_entry.md R166). -/
def stepValue (i : Fin 64) (x : Word) (r : Regs) : Word := (roundStep i r x).b

/-- A step of the moving form puts its value in the place of `A`, then moves every register one place on. -/
theorem roundStep_eq_turn (i : Fin 64) (x : Word) (r : Regs) :
    roundStep i r x = Regs.turn { r with a := stepValue i x r } := rfl

/-- From one step to the next the roles move one place on. -/
theorem roles_succ (n : Nat) (q : Regs) : Stated.roles (n + 1) q = (Stated.roles n q).turn := by
  have hcases : n % 4 = 0 ∨ n % 4 = 1 ∨ n % 4 = 2 ∨ n % 4 = 3 := by omega
  rcases hcases with h | h | h | h <;> simp [Stated.roles, Regs.turn, Nat.add_mod, h]

/-- With the data at rest, a step changes the register in the role of `A` and no other. -/
theorem roles_atRest (i : Fin 64) (x : Word) (q : Regs) :
    Stated.roles i.val (Stated.atRest i x q) =
      { Stated.roles i.val q with a := stepValue i x (Stated.roles i.val q) } := by
  have hcases : i.val % 4 = 0 ∨ i.val % 4 = 1 ∨ i.val % 4 = 2 ∨ i.val % 4 = 3 := by omega
  rcases hcases with h | h | h | h <;> simp [Stated.roles, Stated.atRest, stepValue, roundStep, stepFormula, h]

/-- One step of the two forms: the registers of the moving form stay those of the other under the roles. -/
theorem roundStep_roles (i : Fin 64) (x : Word) (q : Regs) :
    roundStep i (Stated.roles i.val q) x = Stated.roles (i.val + 1) (Stated.atRest i x q) := by
  rw [roles_succ, roles_atRest, roundStep_eq_turn]

/-- One more of the 64 steps. -/
theorem foldl_take_finRange_succ {α : Type} (f : α → Fin 64 → α) (a : α) {n : Nat} (hn : n < 64) :
    ((List.finRange 64).take (n + 1)).foldl f a = f (((List.finRange 64).take n).foldl f a) ⟨n, hn⟩ := by
  have hlen : n < (List.finRange 64).length := by rwa [List.length_finRange]
  rw [List.take_succ_eq_append_getElem hlen, List.foldl_append, List.getElem_finRange]
  rfl

/-- The two forms agree after any number of steps, whatever the message words `y` are (spec/41_core_entry.md R168). -/
theorem foldl_roundStep_eq_roles (y : Fin 64 → Word) (r : Regs) {n : Nat} (hn : n ≤ 64) :
    ((List.finRange 64).take n).foldl (fun q i => roundStep i q (y i)) r =
      Stated.roles n (((List.finRange 64).take n).foldl (fun q i => Stated.atRest i (y i) q) r) := by
  induction n with
  | zero => rfl
  | succ n ih =>
    rw [foldl_take_finRange_succ _ _ hn, foldl_take_finRange_succ _ _ hn, ih (Nat.le_of_lt hn)]
    exact roundStep_roles ⟨n, hn⟩ _ _

/-- Settles O30: after 64 steps, a multiple of 4, every register is in its own role again. -/
theorem dataAtRestFormAgrees : Obligations.DataAtRestFormAgrees := by
  refine fun r x => ⟨getElem_blockWord, fun n hn => foldl_roundStep_eq_roles _ r hn, ?_⟩
  have h64 := foldl_roundStep_eq_roles (fun i => blockWord x (kOf i)) r le_rfl
  rwa [List.take_of_length_le List.length_finRange.le] at h64

end Sys2Proof.Machine
end

section
/-! PROOFS. The sequencer (spec/46_chain_sequencer.md R270 to R280): `CHAIN`, a pass and the whole core wherever they
begin, the successor of each micro-operation, and the codes that a run executes. -/

namespace Sys2Proof.Machine

/-! ## `CHAIN` -/

theorem plusRegs_eq_add (r q : Regs) : Stated.plusRegs r q = r.add q := by
  simp only [Stated.plusRegs, Regs.add, add32_eq_ofNat_plus]

/-- Settles O24, by the two cases of the test on `BLK`. -/
theorem chainAddsTheSnapshotAndAdvances : Obligations.ChainAddsTheSnapshotAndAdvances := by
  intro s
  rw [plusRegs_eq_add]
  exact ⟨fun hlt => (execChain_eq s).trans (if_pos hlt), fun hge => (execChain_eq s).trans (if_neg hge)⟩

/-! ## The core as a list of instructions

A path begins at the code in `UPC`; a list of instructions does not ask for it. `SNAP` and `INIT` do not read `UPC`, so
a list that begins with one of them leaves from any `UPC` what it leaves from its own code. -/

theorem execAll_cons_congr {i : Instr} (is : List Instr) {s t : State} (h : exec i s = exec i t) :
    execAll (i :: is) s = execAll (i :: is) t := by
  simp only [execAll, h]

theorem execAll_blockProgram_withUpc (s : State) (c : BitVec 8) :
    execAll blockProgram (s.withUpc c) = execAll blockProgram s := by
  have hsnap : blockProgram = .snap :: (stepInstrs ++ [.chain]) := rfl
  rw [hsnap]
  exact execAll_cons_congr _ rfl

theorem execAll_init_withUpc (is : List Instr) (s : State) (c : BitVec 8) :
    execAll (.init :: is) (s.withUpc c) = execAll (.init :: is) s :=
  execAll_cons_congr is rfl

/-- Settles O31: the path of a pass, to the next block or past the last one. -/
theorem blockPassComputesTheBlockFunction : Obligations.BlockPassComputesTheBlockFunction := by
  intro s hw
  rw [← execAll_blockProgram_withUpc s 0x81]
  by_cases hlt : s.blk + 1 < s.w.length / 16
  · rw [if_pos hlt, if_pos hlt]
    exact execAll_of_path (path_block_next (s := s.withUpc 0x81) rfl hw hlt)
  · rw [if_neg hlt, if_neg hlt]
    exact execAll_of_path (path_block_last (s := s.withUpc 0x81) rfl hw (Nat.not_lt.mp hlt))

/-- Settles O32: the path of the core, an induction over the blocks. -/
theorem coreComputesCompress : Obligations.CoreComputesCompress := by
  intro s n hn hw
  obtain ⟨q, hq⟩ := path_core (s := s.withUpc 0x80) hn rfl hw
  exact ⟨q, (execAll_init_withUpc _ s 0x80).symm.trans (execAll_of_path hq)⟩

/-! ## Successors -/

/-- The table at the code of step `k`. -/
theorem successor_at_step {s : State} {k : Fin 64} (h : s.upc = BitVec.ofNat 8 k.val) :
    Stated.successor s = ((stepSuccessor k).toNat, s.blk) := by
  have hk := k.isLt
  have hu : s.upc.toNat = k.val := by rw [h, BitVec.toNat_ofNat]; omega
  have hother : ∀ c, 64 ≤ c → k.val ≠ c := fun c hc => by omega
  by_cases hlast : k.val = 63
  · simp [Stated.successor, stepSuccessor, hu, hlast]
  · have hnext : k.val ≤ 0x3E := by omega
    have hcode : (BitVec.ofNat 8 (k.val + 1)).toNat = k.val + 1 := by rw [BitVec.toNat_ofNat]; omega
    simp [Stated.successor, stepSuccessor, hu, hlast, hnext, hcode, hother]

/-- Settles O37, instruction by instruction: the code in `UPC` is the instruction's own. -/
theorem successorOfEveryMicroOperation : Obligations.SuccessorOfEveryMicroOperation := by
  intro s t i hd hx
  obtain ⟨hl, hu⟩ := decode_uop_ne_command hd
  rcases exec_eq_next hx with ⟨k, _, rfl, -, rfl⟩ | ⟨rfl, _, -, -, rfl⟩ | ⟨rfl, -, -, rfl⟩ | ⟨rfl, -, -, rfl⟩ |
    ⟨rfl, _, -, -, rfl⟩ | ⟨rfl, _, -, -, rfl⟩ | ⟨rfl, rfl⟩ | ⟨rfl, rfl⟩ | ⟨rfl, hlt, rfl⟩ | ⟨rfl, hge, rfl⟩ |
    ⟨rfl, rfl⟩ | ⟨rfl, rfl⟩ | ⟨rfl, rfl⟩ | ⟨hi, -, -⟩ | ⟨_, hi, -, -, -, -⟩
  · exact (successor_at_step (upc_of_decode hd (encode_stepInstr k))).symm
  · simp [Stated.successor, upc_of_decode hd rfl] -- PACK
  · simp [Stated.successor, upc_of_decode hd rfl] -- MARK with a new word
  · simp [Stated.successor, upc_of_decode hd rfl] -- MARK into an existing word
  · simp [Stated.successor, upc_of_decode hd rfl] -- ZEXT
  · simp [Stated.successor, upc_of_decode hd rfl] -- LENW
  · simp [Stated.successor, upc_of_decode hd rfl] -- INIT
  · simp [Stated.successor, upc_of_decode hd rfl] -- SNAP
  · -- CHAIN to the next block
    have hlt : s.blk + 1 < s.w.length / 16 := hlt
    simp [Stated.successor, upc_of_decode hd rfl, hlt]
  · -- CHAIN after the last block
    have hge : ¬ s.blk + 1 < s.w.length / 16 := Nat.not_lt.mpr hge
    simp [Stated.successor, upc_of_decode hd rfl, hge]
  · -- ENCL
    cases hcase : s.u with
    | true => simp [Stated.successor, upc_of_decode hd rfl, hcase]
    | false => simp [Stated.successor, upc_of_decode hd rfl, hcase]
  · simp [Stated.successor, upc_of_decode hd rfl] -- ENCU
  · simp [Stated.successor, upc_of_decode hd rfl] -- FIN
  · exact absurd hi (by simp [hl, hu]) -- a command while busy
  · exact absurd hi (by simp [hl, hu]) -- a command

/-! ## The codes of a run -/

/-- An initial part of a path is a path. -/
theorem path_take {is : List Instr} {s t : State} (h : Path is s t) (j : Nat) : ∃ r, Path (is.take j) s r := by
  induction is generalizing s j with
  | nil => rw [List.take_nil]; exact ⟨s, rfl⟩
  | cons i is ih =>
    cases j with
    | zero => exact ⟨s, rfl⟩
    | succ j =>
      obtain ⟨hd, q, hq, hp⟩ := h
      obtain ⟨r, hr⟩ := ih hp j
      exact ⟨r, hd, q, hq, hr⟩

theorem codesExecuted_succ {s t : State} (n : Nat) (h : step s = .next t) :
    Stated.codesExecuted (n + 1) s = .uop s.upc :: Stated.codesExecuted n t := by
  rw [Stated.codesExecuted, h]

/-- One step executes the code in `UPC`, whatever becomes of it. -/
theorem codesExecuted_one (s : State) : Stated.codesExecuted 1 s = [.uop s.upc] := by
  rw [Stated.codesExecuted]
  cases step s with
  | next t => rfl
  | fault f => rfl
  | refused r => rfl

/-- The engine left alone on a path executes the codes of its instructions, and goes on from where the path ends. -/
theorem codesExecuted_of_path_alone {is : List Instr} {s t : State} (hb : s.busy = true) (hp : s.pending = [])
    (hi : ∀ i ∈ is, i ≠ .fin ∧ i ≠ .hashl ∧ i ≠ .hashu) (h : Path is s t) (n : Nat) :
    Stated.codesExecuted (is.length + n) s = is.map encode ++ Stated.codesExecuted n t := by
  induction is generalizing s with
  | nil => cases h; rw [List.length_nil, Nat.zero_add, List.map_nil, List.nil_append]
  | cons i is ih =>
    obtain ⟨hd, r, hx, hr⟩ := h
    obtain ⟨⟨hfin, hhashl, hhashu⟩, hrest⟩ := List.forall_mem_cons.mp hi
    have hstep : step s = .next r := (step_of_no_move hp).trans ((engineTurn_of_decode hb hd).trans hx)
    have hih := ih ((exec_busy hx hfin hhashl hhashu).trans hb) ((exec_pending hx).trans hp) hrest hr
    rw [List.length_cons, Nat.add_right_comm, codesExecuted_succ _ hstep, hih, List.map_cons, encode_of_decode_uop hd,
      List.cons_append]

theorem microProgram_length (n : Nat) (u : Bool) :
    (microProgram n u).length = 66 * n + 7 + (if u then 1 else 0) := by
  rw [microProgram_eq_append_fin, List.length_append, programToFin_length, List.length_singleton]
  omega

/-- Settles O38: the path of the run up to `FIN` gives the codes and `BUSY = 1` before each of them; `FIN` is the last. -/
theorem runExecutesTheMicroProgram : Obligations.RunExecutesTheMicroProgram := by
  intro s m hp hb hu hm ha
  obtain ⟨q, g, hpath, -, -⟩ := path_run hu hm.readRange ha
  have hk : 66 * blocksFor s.len + 7 + (if s.u then 1 else 0) = (programToFin (blocksFor s.len) s.u).length + 1 := by
    rw [programToFin_length]; omega
  refine ⟨?_, microProgram_length _ _, fun j hj => ?_, ?_⟩
  · have hcodes := codesExecuted_of_path_alone hb hp (fun i => mem_programToFin) hpath 1
    rw [← hk, codesExecuted_one] at hcodes
    rw [microProgram_eq_append_fin, List.map_append]
    exact hcodes
  · have hle : j ≤ (programToFin (blocksFor s.len) s.u).length := Nat.le_of_lt_succ (hj.trans_eq hk)
    obtain ⟨r, hr⟩ := path_take hpath j
    obtain ⟨hrun, hbusy, -⟩ :=
      runSteps_of_path_alone hb hp (fun i hi => mem_programToFin (List.mem_of_mem_take hi)) hr
    rw [List.length_take_of_le hle] at hrun
    exact ⟨r, hrun, hbusy⟩
  · obtain ⟨t, hrun, hidle, -, -⟩ := runSteps_run hp hb hu hm.readRange ha
    exact ⟨t, hrun, hidle⟩

end Sys2Proof.Machine
end

section
/-! PROOFS. The encoder (spec/47_encoder.md R290 to R297): the nibble at each position of the output, what `ENCL` and
`ENCU` leave in `HEX`, and the end of the run. -/

namespace Sys2Proof.Machine

/-! ## The nibble at each position -/

/-- Byte `m` of the digest (spec/47_encoder.md R290). -/
theorem getElem?_digestBytes (r : Regs) {m : Nat} (hm : m < 16) :
    (digestBytes r)[m]? = some ((Stated.regOf r (m / 4)).extractLsb' (8 * (m % 4)) 8) := by
  interval_cases m <;> rfl

/-- Character `p` of a byte sequence in hexadecimal: the high nibble of byte `p div 2` at even `p`, the low one at odd
(spec/20_memory.md R73). -/
theorem getElem?_flatMap_hexPair (bs : List Byte) (p : Nat) :
    (bs.flatMap hexPair)[p]? = bs[p / 2]?.map fun b => hexDigit (b.extractLsb' (if p % 2 = 0 then 4 else 0) 4) := by
  induction bs generalizing p with
  | nil => rfl
  | cons b bs ih =>
    match p with
    | 0 => rfl
    | 1 => rfl
    | p + 2 =>
      rw [Nat.add_mod_right, Nat.add_div_right p Nat.two_pos, List.getElem?_cons_succ, ← ih]
      rfl

/-- A nibble of byte `n` of a word is nibble `e` of the word (spec/47_encoder.md R292). -/
theorem extractLsb'_nibble_of_byte (x : Word) {n j e : Nat} (hj : j ≤ 4) (he : 8 * n + j = 4 * e) :
    (x.extractLsb' (8 * n) 8).extractLsb' j 4 = x.extractLsb' (4 * e) 4 := by
  ext i hi
  have hbyte : j + i < 8 := by omega
  rw [BitVec.getElem_extractLsb', BitVec.getElem_extractLsb', BitVec.getLsbD_extractLsb', decide_eq_true hbyte,
    Bool.true_and, ← Nat.add_assoc, he]

theorem toNat_nibble (x : Word) (e : Nat) : (x.extractLsb' (4 * e) 4).toNat = x.toNat / 2 ^ (4 * e) % 16 := by
  rw [BitVec.extractLsb'_toNat, Nat.shiftRight_eq_div_pow]

theorem hexDigit_eq_digitCode (v : BitVec 4) : hexDigit v = Stated.digitCode v.toNat := by
  obtain ⟨-, -, -, -, -, -, -, hdigits⟩ := constantTablesPassTheirChecks
  exact hdigits v

/-- Character `p` of the output is the digit of the nibble shown there (spec/47_encoder.md R291, R292). -/
theorem getElem?_hexl (r : Regs) {p : Nat} (hp : p < 32) :
    (hexl r)[p]? = some (Stated.digitCode (Stated.nibbleShown r p)) := by
  have hbyte : p / 2 < 16 := by omega
  rw [hexl, getElem?_flatMap_hexPair, getElem?_digestBytes r hbyte, Option.map_some, hexDigit_eq_digitCode,
    Stated.nibbleShown]
  by_cases heven : p % 2 = 0
  · have he : 8 * (p / 2 % 4) + 4 = 4 * (2 * (p / 2 % 4) + 1) := by omega
    simp only [if_pos heven]
    rw [extractLsb'_nibble_of_byte _ (by decide) he, toNat_nibble]
  · have he : 8 * (p / 2 % 4) + 0 = 4 * (2 * (p / 2 % 4)) := by omega
    simp only [if_neg heven]
    rw [extractLsb'_nibble_of_byte _ (by decide) he, toNat_nibble]

/-! ## Uppercase digits -/

/-- On the digits of either case `up` is the uppercasing of ASCII (spec/47_encoder.md R293, R294). -/
theorem up_eq_asciiUpper {c : Byte} (h : lowerHexDigit c = true ∨ upperHexDigit c = true) :
    up c = Stated.asciiUpper c := by
  rw [lowerHexDigit, upperHexDigit, decide_eq_true_eq, decide_eq_true_eq] at h
  rw [up, Stated.asciiUpper]
  by_cases hletter : 0x61 ≤ c.toNat ∧ c.toNat ≤ 0x66
  · have hascii : 0x61 ≤ c.toNat ∧ c.toNat ≤ 0x7A := by omega
    rw [if_pos hletter, if_pos hascii]
    bv_omega
  · have hascii : ¬ (0x61 ≤ c.toNat ∧ c.toNat ≤ 0x7A) := by omega
    rw [if_neg hletter, if_neg hascii]
    by_cases hdigit : 0x30 ≤ c.toNat ∧ c.toNat ≤ 0x39
    · exact if_pos hdigit
    · have hupper : 0x41 ≤ c.toNat ∧ c.toNat ≤ 0x46 := by omega
      rw [if_neg hdigit, if_pos hupper]

theorem asciiUpper_of_upperHexDigit {c : Byte} (h : upperHexDigit c = true) : Stated.asciiUpper c = c := by
  rw [upperHexDigit, decide_eq_true_eq] at h
  exact if_neg (by omega)

theorem upperHexDigit_asciiUpper {c : Byte} (h : lowerHexDigit c = true ∨ upperHexDigit c = true) :
    upperHexDigit (Stated.asciiUpper c) = true := by
  rcases h with h | h
  · rw [← up_eq_asciiUpper (.inl h)]
    exact upperHexDigit_up h
  · rwa [asciiUpper_of_upperHexDigit h]

/-- A second pass leaves what the first wrote (spec/47_encoder.md R293). -/
theorem up_asciiUpper {c : Byte} (h : lowerHexDigit c = true ∨ upperHexDigit c = true) :
    up (Stated.asciiUpper c) = Stated.asciiUpper c := by
  have hupper := upperHexDigit_asciiUpper h
  rw [up_eq_asciiUpper (.inr hupper), asciiUpper_of_upperHexDigit hupper]

/-! ## `ENCL`, `ENCU`, `FIN` -/

/-- An instruction that writes 32 codes to `HEX` leaves them in cells 0 to 31 and the other cells as before. -/
theorem exec_writeHex_cells {i : Instr} {s : State} {vs : List Byte} {c : BitVec 8} (hl : vs.length = 32)
    (hx : exec i s = .next ((s.withHex (s.hex.writeFrom 0 vs)).withUpc c)) :
    ∃ h, exec i s = .next { s with hex := h, upc := c } ∧
      (∀ p, p < 32 → h.read p = vs[p]?) ∧ (∀ p, 32 ≤ p → h.read p = s.hex.read p) :=
  ⟨_, hx, fun p hp => (Memory.read_writeFrom_zero _ hl p).trans (if_pos hp),
    fun _ => Memory.read_writeFrom_beyond _ hl⟩

/-- Settles O33: `ENCL` writes the characters of the output in order, each the digit of the nibble shown. -/
theorem enclWritesTheHexDigits : Obligations.EnclWritesTheHexDigits := by
  intro s
  obtain ⟨h, hexec, hcells, hbeyond⟩ := exec_writeHex_cells (i := .encl) (s := s) (hexl_length _) (execEncl_eq s)
  exact ⟨h, hexec, fun p hp => (hcells p hp).trans (getElem?_hexl _ hp), hbeyond⟩

/-- `ENCU` passes each of the 32 cells through `up` and changes no other (spec/47_encoder.md R293). -/
theorem exec_encu_cells (s : State) : ∃ h, exec .encu s = .next { s with hex := h, upc := 0xC2 } ∧
    (∀ p, p < 32 → h.read p = some (up (s.hexByte p))) ∧ (∀ p, 32 ≤ p → h.read p = s.hex.read p) := by
  have hl : ((List.range 32).map fun p => up (s.hexByte p)).length = 32 := by simp
  obtain ⟨h, hexec, hcells, hbeyond⟩ := exec_writeHex_cells (i := .encu) (s := s) hl (execEncu_eq s)
  refine ⟨h, hexec, fun p hp => ?_, hbeyond⟩
  rw [hcells p hp, List.getElem?_map, List.getElem?_range hp, Option.map_some]

/-- Settles O34: cell by cell, by what `up` does to a digit; the digits the first pass writes are uppercase, and `up`
keeps those. -/
theorem encuMapsDigitsToUppercase : Obligations.EncuMapsDigitsToUppercase := by
  intro s
  obtain ⟨h, hexec, hcells, hbeyond⟩ := exec_encu_cells s
  have hdigit : ∀ p, p < 32 → ∀ c, s.hex.read p = some c → lowerHexDigit c = true ∨ upperHexDigit c = true →
      h.read p = some (Stated.asciiUpper c) := fun p hp c hc hd => by
    rw [hcells p hp, State.hexByte_of_read hc, up_eq_asciiUpper hd]
  refine ⟨h, hexec, hdigit, hbeyond, fun hall => ?_⟩
  obtain ⟨k, hexec', hcells', hbeyond'⟩ := exec_encu_cells { s with hex := h, upc := 0xC2 }
  refine ⟨k, hexec', fun p => ?_⟩
  by_cases hp : p < 32
  · obtain ⟨c, hc, hd⟩ := hall p hp
    have hd := (Bool.or_eq_true _ _).mp hd
    have hfirst := hdigit p hp c hc hd
    rw [hcells' p hp, State.hexByte_of_read hfirst, up_asciiUpper hd, hfirst]
  · exact hbeyond' p (Nat.le_of_not_lt hp)

/-- Settles O35: after `FIN` the engine is idle, and an idle engine's turn holds its state. -/
theorem finEndsTheRun : Obligations.FinEndsTheRun := fun s =>
  ⟨rfl, fun _ ht => (step_of_engineTurn (s := s.finished) ht).trans (engineTurn_idle rfl)⟩

/-! ## Injectivity -/

/-- A word is determined by its eight nibbles: bit `i` is bit `i mod 4` of nibble `i div 4`. -/
theorem eq_of_nibbles_eq {x y : Word}
    (h : ∀ e, e < 8 → x.toNat / 2 ^ (4 * e) % 16 = y.toNat / 2 ^ (4 * e) % 16) : x = y := by
  refine BitVec.eq_of_getLsbD_eq fun i hi => ?_
  have hbit (z : Word) : z.getLsbD i = (z.toNat / 2 ^ (4 * (i / 4)) % 16).testBit (i % 4) := by
    have hlow : i % 4 < 4 := Nat.mod_lt i (by decide)
    rw [show 16 = 2 ^ 4 from rfl, Nat.testBit_mod_two_pow, Nat.testBit_div_two_pow, Nat.mod_add_div,
      decide_eq_true hlow, Bool.true_and, BitVec.getLsbD]
  rw [hbit x, hbit y, h (i / 4) (by omega)]

/-- The position that shows nibble `e` of register `k` (spec/47_encoder.md R292). -/
theorem nibbleShown_of_register (q : Regs) (k : Nat) {e : Nat} (he : e < 8) :
    Stated.nibbleShown q (8 * k + (if e % 2 = 0 then e + 1 else e - 1)) =
      (Stated.regOf q k).toNat / 2 ^ (4 * e) % 16 := by
  have hreg (o : Nat) (ho : o < 8) : (8 * k + o) / 2 / 4 = k := by omega
  by_cases heven : e % 2 = 0
  · have hodd : ¬ (8 * k + (e + 1)) % 2 = 0 := by omega
    have hnibble : 2 * ((8 * k + (e + 1)) / 2 % 4) = e := by omega
    simp only [Stated.nibbleShown, if_pos heven, if_neg hodd, hreg (e + 1) (by omega), hnibble]
  · have hback : (8 * k + (e - 1)) % 2 = 0 := by omega
    have hnibble : 2 * ((8 * k + (e - 1)) / 2 % 4) + 1 = e := by omega
    simp only [Stated.nibbleShown, if_neg heven, if_pos hback, hreg (e - 1) (by omega), hnibble]

/-- The nibbles shown determine the registers. -/
theorem eq_of_nibbleShown_eq {r q : Regs}
    (h : ∀ p, p < 32 → Stated.nibbleShown r p = Stated.nibbleShown q p) : r = q := by
  have hreg : ∀ k, k < 4 → Stated.regOf r k = Stated.regOf q k := fun k hk =>
    eq_of_nibbles_eq fun e he => by
      rw [← nibbleShown_of_register r k he, ← nibbleShown_of_register q k he, h _ (by split <;> omega)]
  cases r
  cases q
  rw [Regs.mk.injEq]
  exact ⟨hreg 0 (by decide), hreg 1 (by decide), hreg 2 (by decide), hreg 3 (by decide)⟩

theorem nibbleShown_lt (q : Regs) (p : Nat) : Stated.nibbleShown q p < 16 := Nat.mod_lt _ (by decide)

/-- The sixteen uppercase digits are distinct. -/
theorem eq_of_asciiUpper_digitCode_eq {v w : Nat} (hv : v < 16) (hw : w < 16)
    (h : Stated.asciiUpper (Stated.digitCode v) = Stated.asciiUpper (Stated.digitCode w)) : v = w := by
  have hall : ∀ v w : Fin 16, Stated.asciiUpper (Stated.digitCode v) = Stated.asciiUpper (Stated.digitCode w) →
      v = w := by decide
  exact congrArg Fin.val (hall ⟨v, hv⟩ ⟨w, hw⟩ h)

theorem getElem?_hexu (r : Regs) {p : Nat} (hp : p < 32) :
    (hexu r)[p]? = some (Stated.asciiUpper (Stated.digitCode (Stated.nibbleShown r p))) := by
  have hchar := getElem?_hexl r hp
  have hlower := lowerHexDigit_of_mem_hexl (List.mem_of_getElem? hchar)
  rw [hexu, List.getElem?_map, hchar, Option.map_some, up_eq_asciiUpper (.inl hlower)]

/-- The uppercase output determines the registers, since each character determines its nibble
(spec/47_encoder.md R297). -/
theorem hexu_injective {r q : Regs} (h : hexu r = hexu q) : r = q :=
  eq_of_nibbleShown_eq fun p hp => by
    have hchar := getElem?_hexu r hp
    rw [h, getElem?_hexu q hp, Option.some.injEq] at hchar
    exact (eq_of_asciiUpper_digitCode_eq (nibbleShown_lt q p) (nibbleShown_lt r p) hchar).symm

/-- Settles O36: equal lowercase outputs have equal uppercase forms, and those determine the registers. -/
theorem encoderIsInjective : Obligations.EncoderIsInjective := fun r _ =>
  ⟨fun h => hexu_injective (congrArg (List.map up) h), hexu_injective, hexl_length r,
    (List.length_map up).trans (hexl_length r)⟩

end Sys2Proof.Machine
end

section
/-! PROOFS. Commands and host accesses (spec/48_commands.md R300 to R311): the acceptance of a command test by test, and
what each access of the host answers, stores or is refused. -/

namespace Sys2Proof.Machine

/-! ## Command acceptance -/

/-- The model's test of a length is the spec's pair of bounds (spec/48_commands.md R300). -/
theorem lengthAdmitted_iff {cap : Option Nat} {l : Nat} :
    lengthAdmitted cap l = true ↔ l < 2 ^ 61 ∧ ∀ c, cap = some c → l ≤ c := by
  unfold lengthAdmitted
  cases cap with
  | none => simp
  | some c => simp

theorem acceptCommand_of_busy (upper : Bool) {s : State} (hb : s.busy = true) : acceptCommand upper s = .next s :=
  if_pos hb

theorem acceptCommand_of_admitted (upper : Bool) {s : State} (hb : s.busy = false) (hk : s.lenKnown = true)
    (ha : lengthAdmitted s.msgCap s.len = true) : acceptCommand upper s = .next (s.accepted upper) :=
  (acceptCommand_eq_next_iff upper s _).mpr (.inr ⟨hb, hk, ha, rfl⟩)

theorem acceptCommand_of_not_admitted (upper : Bool) {s : State} (hb : s.busy = false)
    (h : ¬ (s.lenKnown = true ∧ lengthAdmitted s.msgCap s.len = true)) :
    acceptCommand upper s = .refused .lengthOutOfRange := by
  rw [acceptCommand, hb, if_neg Bool.false_ne_true, if_neg (by rwa [Bool.and_eq_true])]

/-- The fourth test of R300 in the spec's words: a half never written, or a length out of range. -/
theorem not_admitted_iff (s : State) :
    ¬ (s.lenKnown = true ∧ lengthAdmitted s.msgCap s.len = true) ↔
      s.lenLoSet = false ∨ s.lenHiSet = false ∨ (∃ c, s.msgCap = some c ∧ c < s.len) ∨ 2 ^ 61 ≤ s.len := by
  rw [lengthAdmitted_iff, State.lenKnown, Bool.and_eq_true]
  simp only [not_and_or, not_forall, exists_prop, Nat.not_lt, Nat.not_le, Bool.not_eq_true, or_assoc,
    or_comm (b := ∃ c, s.msgCap = some c ∧ c < s.len)]

/-- The third and the fourth test, and what an accepted command does (spec/48_commands.md R300). -/
theorem acceptCommand_by_its_tests (upper : Bool) (s : State) :
    if s.busy = true then acceptCommand upper s = .next s
    else if s.lenLoSet = false ∨ s.lenHiSet = false ∨ (∃ c, s.msgCap = some c ∧ c < s.len) ∨ 2 ^ 61 ≤ s.len then
      ∃ r, acceptCommand upper s = .refused r
    else acceptCommand upper s = .next (s.accepted upper) := by
  by_cases hb : s.busy = true
  · rw [if_pos hb]
    exact acceptCommand_of_busy upper hb
  · rw [if_neg hb]
    have hidle : s.busy = false := Bool.eq_false_iff.mpr hb
    by_cases hadm : s.lenKnown = true ∧ lengthAdmitted s.msgCap s.len = true
    · rw [if_neg fun hout => (not_admitted_iff s).mpr hout hadm]
      exact acceptCommand_of_admitted upper hidle hadm.1 hadm.2
    · rw [if_pos ((not_admitted_iff s).mp hadm)]
      exact ⟨_, acceptCommand_of_not_admitted upper hidle hadm⟩

/-- A write of a command word to `CTRL` is the command. -/
theorem hostAccess_commandWrite (upper : Bool) (s : State) :
    hostAccess (commandWrite upper) s = acceptCommand upper s := by
  cases upper <;> rfl

theorem writeCtrl_of_high_bit {v : Word} (h : 4 ≤ v.toNat) (s : State) :
    writeCtrl v s = .refused (.reservedCommand v) := by
  have hd : decode (.cmd v) = .reserved := decodeCtrl_of_high_bit h
  rw [writeCtrl, hd]

/-- Settles O39: the words split at 4; below it 0 and 2 are ignored, and 1 and 3 are the two commands. -/
theorem commandAcceptanceInItsOrder : Obligations.CommandAcceptanceInItsOrder := by
  intro s v l
  have hl : l = s.len := s.len_eq.symm
  rw [hl]
  by_cases hhigh : v.toNat / 4 ≠ 0
  · rw [if_pos hhigh]
    exact ⟨_, writeCtrl_of_high_bit (by omega) s⟩
  · rw [if_neg hhigh]
    have hv : v.toNat < 4 := by omega
    rcases word_lt_four hv with rfl | rfl | rfl | rfl
    · rw [if_pos (by decide)]; rfl
    · rw [if_neg (by decide)]
      exact acceptCommand_by_its_tests false s
    · rw [if_pos (by decide)]; rfl
    · rw [if_neg (by decide)]
      exact acceptCommand_by_its_tests true s

/-- Settles O40, by the acceptance of a command in the two cases of `BUSY`. -/
theorem hashCommandsComplete : Obligations.HashCommandsComplete := by
  refine fun s => ⟨fun hb hlo hhi hcap hlen => ?_, fun hb =>
    ⟨acceptCommand_of_busy false hb, acceptCommand_of_busy true hb⟩⟩
  have hk : s.lenKnown = true := Bool.and_eq_true_iff.mpr ⟨hlo, hhi⟩
  have ha : lengthAdmitted s.msgCap s.len = true := lengthAdmitted_iff.mpr ⟨hlen, hcap⟩
  exact ⟨acceptCommand_of_admitted false hb hk ha, acceptCommand_of_admitted true hb hk ha⟩

/-! ## `STATUS` and `LEN` -/

/-- Bits 31:2 of `STATUS` are 0 (spec/10_state.md R47). -/
theorem State.status_high_bit (s : State) {n : Nat} (hn : 2 ≤ n) : s.status.getLsbD n = false := by
  have hlt : s.status.toNat < 2 ^ 2 := by
    unfold State.status
    cases s.busy <;> cases s.done <;> decide
  exact Nat.testBit_lt_two_pow (hlt.trans_le (Nat.pow_le_pow_right (by decide) hn))

/-- Settles O41: the read answers `STATUS`, whose bits are the two flags. -/
theorem statusReadReturnsTheTwoFlags : Obligations.StatusReadReturnsTheTwoFlags := fun s _ ht =>
  ⟨s.status, step_of_access ht, s.status_bit_busy, s.status_bit_done, fun _ => s.status_high_bit⟩

/-- Settles O42: the two writes test `BUSY`, the two reads test nothing. -/
theorem lengthHalvesReadAndWrite : Obligations.LengthHalvesReadAndWrite := fun _ _ _ =>
  ⟨fun ht => step_of_access ht, fun ht => step_of_access ht, fun ht => step_of_access ht, fun ht => step_of_access ht⟩

/-! ## `MSG` -/

theorem msgIndexExists_iff {cap : Option Nat} {a : Nat} :
    msgIndexExists cap a = true ↔ ∀ c, cap = some c → a < c := by
  unfold msgIndexExists
  cases cap with
  | none => simp
  | some c => simp

theorem writeMessage_of_idle {s : State} {a : Nat} (b : Byte) (ha : msgIndexExists s.msgCap a = true)
    (hb : s.busy = false) : writeMessage a b s = .next (s.withMsg (s.msg.write a b)) := by
  rw [writeMessage, if_pos ha, hb, if_neg Bool.false_ne_true]

theorem writeMessage_of_busy {s : State} (a : Nat) (b : Byte) (hb : s.busy = true) :
    ∃ r, writeMessage a b s = .refused r := by
  by_cases ha : msgIndexExists s.msgCap a = true
  · exact ⟨_, by rw [writeMessage, if_pos ha, if_pos hb]⟩
  · exact ⟨_, if_neg ha⟩

theorem writeMessage_of_no_cell {s : State} {a : Nat} (b : Byte) (ha : ¬ msgIndexExists s.msgCap a = true) :
    writeMessage a b s = .refused (.messageIndex a) :=
  if_neg ha

theorem readMessage_of_read {s : State} {a : Nat} {b : Byte} (ha : msgIndexExists s.msgCap a = true)
    (hr : s.msg.read a = some b) : readMessage a s = .next (s.hear (.byte b)) := by
  rw [readMessage, if_pos ha, hr]

/-- Settles O44: the index is tested before `BUSY`, and a byte written is read back in its cell alone. -/
theorem messageCellsReadAndWrite : Obligations.MessageCellsReadAndWrite := by
  refine fun s a b ms => ⟨fun ht hb ha => ?_, fun ht hb => ?_, fun ht hfull => ?_, fun ht ha hr => ?_⟩
  · exact ⟨s.msg.write a b, (step_of_access ht).trans
        (writeMessage_of_idle (s := s.withPending ms) b (msgIndexExists_iff.mpr ha) hb),
      Memory.read_write_same _ _ _, fun p hp => Memory.read_write_other _ _ hp⟩
  · rw [step_of_access ht]
    exact writeMessage_of_busy (s := s.withPending ms) a b hb
  · obtain ⟨c, hc, hca⟩ := hfull
    have hno : ¬ msgIndexExists s.msgCap a = true := fun he => Nat.not_lt.mpr hca (msgIndexExists_iff.mp he c hc)
    exact ⟨_, (step_of_access ht).trans (writeMessage_of_no_cell (s := s.withPending ms) b hno)⟩
  · exact (step_of_access ht).trans (readMessage_of_read (s := s.withPending ms) (msgIndexExists_iff.mpr ha) hr)

/-! ## `HEX` -/

theorem readResult_of_done {s : State} {p : Nat} {b : Byte} (hp : p < 32) (hd : s.done = true)
    (hr : s.hex.read p = some b) : readResult p s = .next (s.hear (.byte b)) := by
  rw [readResult, if_pos hp, if_pos hd, State.hexByte_of_read hr]

theorem readResult_of_beyond (s : State) {p : Nat} (hp : 32 ≤ p) : readResult p s = .refused (.resultIndex p) :=
  if_neg (Nat.not_lt.mpr hp)

theorem readResult_of_not_done {s : State} (p : Nat) (hd : s.done = false) : ∃ r, readResult p s = .refused r := by
  by_cases hp : p < 32
  · exact ⟨_, by rw [readResult, if_pos hp, hd, if_neg Bool.false_ne_true]⟩
  · exact ⟨_, readResult_of_beyond s (Nat.le_of_not_lt hp)⟩

theorem hostAccess_writeHex (p : Nat) (b : Byte) (s : State) : ∃ r, hostAccess (.writeHex p b) s = .refused r := by
  by_cases hp : p < 32
  · exact ⟨_, if_pos hp⟩
  · exact ⟨_, if_neg hp⟩

/-- Settles O45, by the tests of the index and of `DONE`. -/
theorem resultCellsReadableOnlyWhenDone : Obligations.ResultCellsReadableOnlyWhenDone := by
  refine fun s p b ms => ⟨fun ht hp hd hr => ?_, fun ht hd => ?_, fun ht hp => ?_, fun ht => ?_⟩
  · exact (step_of_access ht).trans (readResult_of_done (s := s.withPending ms) hp hd hr)
  · rw [step_of_access ht]
    exact readResult_of_not_done (s := s.withPending ms) p hd
  · exact (step_of_access ht).trans (readResult_of_beyond (s.withPending ms) hp)
  · rw [step_of_access ht]
    exact hostAccess_writeHex p b _

end Sys2Proof.Machine
end

section
/-! PROOFS. The digest (spec/48_commands.md R304 to R307): its length and its alphabet in either case, and two known
values. -/

namespace Sys2Proof.Machine

theorem digestLower_length (m : List Byte) : (digestLower m).length = 32 := hexl_length _

theorem lowerHexDigit_of_mem_digestLower {m : List Byte} {c : Byte} (h : c ∈ digestLower m) :
    lowerHexDigit c = true := lowerHexDigit_of_mem_hexl h

/-- Settles O59: every character of `digest_lower` is a lowercase digit, and on those `up` is uppercasing. -/
theorem digestIsHexInBothCases : Obligations.DigestIsHexInBothCases := by
  refine fun m => ⟨digestLower_length m, fun c => lowerHexDigit_of_mem_digestLower, ?_, fun c hc => ?_⟩
  · exact List.map_congr_left fun c hc => up_eq_asciiUpper (.inl (lowerHexDigit_of_mem_digestLower hc))
  · obtain ⟨d, hd, rfl⟩ := List.mem_map.mp hc
    exact upperHexDigit_up (lowerHexDigit_of_mem_digestLower hd)

/-- The registers after the compression of the padded empty message. -/
theorem compress_pad_nil : compress (pad []) = ⟨0xd98c1dd4, 0x04b2008f, 0x980980e9, 0x7e42f8ec⟩ := by decide +kernel

/-- The registers after the compression of the padded "abc". -/
theorem compress_pad_abc :
    compress (pad [0x61, 0x62, 0x63]) = ⟨0x98500190, 0xb04fd23c, 0x7d3f96d6, 0x727fe128⟩ := by decide +kernel

/-- Settles O60: the core is evaluated on the two padded blocks, then the encoder on the registers it leaves. -/
theorem knownDigests : Obligations.KnownDigests := by
  rw [Obligations.KnownDigests, digestUpper, digestLower, digestLower, compress_pad_nil, compress_pad_abc]
  decide

end Sys2Proof.Machine
end

section
/-! PROOFS. The run a command starts (spec/48_commands.md R306): the engine's turns that are left before the digest
stands in `HEX`, whatever the host does in between, and what those turns leave of the host's side. -/

namespace Sys2Proof.Machine

/-- The digest in the case of the command (spec/48_commands.md R304, R305). -/
def digestOf (upper : Bool) (m : List Byte) : List Byte := if upper then digestUpper m else digestLower m

theorem digestOf_length (upper : Bool) (m : List Byte) : (digestOf upper m).length = 32 := by
  cases upper with
  | true => exact List.length_map up
  | false => exact digestLower_length m

/-! ## The engine's turn and the outside agents -/

theorem engineTurn_withPending {s t : State} (ms : List HostMove) (h : engineTurn s = .next t) :
    engineTurn (s.withPending ms) = .next (t.withPending ms) := by
  rcases engineTurn_eq_next h with ⟨hb, i, hd, hx⟩ | ⟨hb, rfl⟩
  · exact (engineTurn_of_decode (s := s.withPending ms) hb hd).trans (exec_withPending ms hx)
  · exact engineTurn_idle hb

theorem engineTurn_hear {s t : State} (x : HostAnswer) (h : engineTurn s = .next t) :
    engineTurn (s.hear x) = .next (t.hear x) := by
  rcases engineTurn_eq_next h with ⟨hb, i, hd, hx⟩ | ⟨hb, rfl⟩
  · exact (engineTurn_of_decode (s := s.hear x) hb hd).trans (exec_hear x hx)
  · exact engineTurn_idle hb

/-- What the host gave the block and what it has heard are the same in two states. -/
structure State.SameHostSide (s t : State) : Prop where
  msgCap  : t.msgCap = s.msgCap
  len     : t.len = s.len
  msg     : ∀ a, t.msg.read a = s.msg.read a
  pending : t.pending = s.pending
  answers : t.answers = s.answers

theorem State.SameHostSide.refl (s : State) : s.SameHostSide s := ⟨rfl, rfl, fun _ => rfl, rfl, rfl⟩

/-- The engine writes nothing on the host's side (spec/10_state.md R56). -/
theorem engineTurn_sameHostSide {s t : State} (h : engineTurn s = .next t) : s.SameHostSide t := by
  rcases engineTurn_eq_next h with ⟨-, i, -, hx⟩ | ⟨-, rfl⟩
  · obtain ⟨-, -, -, -, -, -, -, -, -, ⟨hlo, hhi, -, -⟩, ⟨hcap, -, hp, ha⟩, hmsg, -⟩ :=
      engineWritesOnlyWhatTheTableAllows i s t hx
    exact ⟨hcap, by rw [State.len_eq, State.len_eq, hlo, hhi], hmsg, hp, ha⟩
  · exact .refl _

/-! ## The result and the turns before it -/

/-- The block is idle with `DONE = 1` and the characters `ds` in `HEX`. -/
structure State.Shows (s : State) (ds : List Byte) : Prop where
  idle  : s.busy = false
  done  : s.done = true
  cells : ∀ p, p < 32 → s.hex.read p = ds[p]?

theorem State.Shows.withPending {s : State} {ds : List Byte} (h : s.Shows ds) (ms : List HostMove) :
    (s.withPending ms).Shows ds := { h with }

theorem State.Shows.hear {s : State} {ds : List Byte} (h : s.Shows ds) (x : HostAnswer) : (s.hear x).Shows ds :=
  { h with }

/-- `n` turns of the engine lead to the result `ds`, and `DONE = 0` before each of them. -/
def State.ShowsAfter (ds : List Byte) : Nat → State → Prop
  | 0, s => s.Shows ds
  | n + 1, s => s.done = false ∧ ∃ t, engineTurn s = .next t ∧ State.ShowsAfter ds n t

theorem State.ShowsAfter.withPending {ds : List Byte} {n : Nat} {s : State} (h : s.ShowsAfter ds n)
    (ms : List HostMove) : (s.withPending ms).ShowsAfter ds n := by
  induction n generalizing s with
  | zero => exact State.Shows.withPending h ms
  | succ n ih =>
    obtain ⟨hd, t, ht, hn⟩ := h
    exact ⟨hd, _, engineTurn_withPending ms ht, ih hn⟩

theorem State.ShowsAfter.hear {ds : List Byte} {n : Nat} {s : State} (h : s.ShowsAfter ds n) (x : HostAnswer) :
    (s.hear x).ShowsAfter ds n := by
  induction n generalizing s with
  | zero => exact State.Shows.hear h x
  | succ n ih =>
    obtain ⟨hd, t, ht, hn⟩ := h
    exact ⟨hd, _, engineTurn_hear x ht, ih hn⟩

/-- An instruction that neither ends nor starts a run leaves the two flags. -/
theorem exec_flags {i : Instr} {s t : State} (h : exec i s = .next t) (hi : i ≠ .fin ∧ i ≠ .hashl ∧ i ≠ .hashu) :
    t.busy = s.busy ∧ t.done = s.done := by
  obtain ⟨-, -, -, -, -, -, hflags, -⟩ := engineWritesOnlyWhatTheTableAllows i s t h
  exact hflags hi.1 hi.2.1 hi.2.2

/-- The turns of a path come before those that are left at its end. -/
theorem showsAfter_of_path {ds : List Byte} {n : Nat} {is : List Instr} {s t : State} (hb : s.busy = true)
    (hd : s.done = false) (hi : ∀ i ∈ is, i ≠ .fin ∧ i ≠ .hashl ∧ i ≠ .hashu) (h : Path is s t)
    (ht : t.ShowsAfter ds n) : s.ShowsAfter ds (is.length + n) := by
  induction is generalizing s with
  | nil => cases h; rwa [List.length_nil, Nat.zero_add]
  | cons i is ih =>
    obtain ⟨hdec, r, hx, hr⟩ := h
    obtain ⟨hfirst, hrest⟩ := List.forall_mem_cons.mp hi
    obtain ⟨hrb, hrd⟩ := exec_flags hx hfirst
    rw [List.length_cons, Nat.add_right_comm]
    exact ⟨hd, r, (engineTurn_of_decode hb hdec).trans hx, ih (hrb.trans hb) (hrd.trans hd) hrest hr⟩

/-- At `FIN` one turn is left (spec/47_encoder.md R295). -/
theorem showsAfter_fin {ds : List Byte} {s : State} (hb : s.busy = true) (hd : s.done = false) (hu : s.upc = 0xC2)
    (hc : ∀ p, p < 32 → s.hex.read p = ds[p]?) : s.ShowsAfter ds 1 := by
  have hdec : decode (.uop s.upc) = .instr .fin := hu ▸ decode_encode .fin
  exact ⟨hd, s.finished, engineTurn_of_decode hb hdec, rfl, rfl, hc⟩

/-- From `PACK` the turns that are left are those of the micro-program (spec/46_chain_sequencer.md R275). -/
theorem showsAfter_run {s : State} {m : List Byte} (hb : s.busy = true) (hd : s.done = false) (hu : s.upc = 0x40)
    (hm : s.HoldsMessage m) (ha : lengthAdmitted s.msgCap s.len = true) :
    s.ShowsAfter (digestOf s.u m) (runLength (blocksFor s.len) s.u) := by
  obtain ⟨q, g, hpath, hdigest, -⟩ := path_run hu hm.readRange ha
  have hk : runLength (blocksFor s.len) s.u = (programToFin (blocksFor s.len) s.u).length + 1 := by
    rw [programToFin_length, runLength]; omega
  rw [hk]
  exact showsAfter_of_path hb hd (fun i => mem_programToFin) hpath (showsAfter_fin hb hd rfl hdigest)

/-- A command accepted with the message loaded has the whole run before it (spec/48_commands.md R300, R306). -/
theorem hostAccess_command_starts_run (upper : Bool) {s : State} {m : List Byte} (hb : s.busy = false)
    (hk : s.lenKnown = true) (hm : s.HoldsMessage m) (ha : lengthAdmitted s.msgCap s.len = true) :
    hostAccess (commandWrite upper) s = .next (s.accepted upper) ∧
      (s.accepted upper).ShowsAfter (digestOf upper m) (runLength (blocksFor m.length) upper) := by
  refine ⟨(hostAccess_commandWrite upper s).trans (acceptCommand_of_admitted upper hb hk ha), ?_⟩
  have hrun := showsAfter_run (s := s.accepted upper) rfl rfl rfl hm ha
  rwa [State.accepted_len, hm.1] at hrun

/-! ## The turns as steps -/

/-- The engine's turns as steps of the machine, with no move listed or with its own moves first in the list. -/
theorem runSteps_of_showsAfter {ds : List Byte} {n : Nat} {s : State} {ms : List HostMove} (h : s.ShowsAfter ds n)
    (hp : s.pending = [] ∧ ms = [] ∨ s.pending = List.replicate n .engine ++ ms) :
    ∃ t, runSteps n s = .next t ∧ t.Shows ds ∧ (s.withPending ms).SameHostSide t := by
  induction n generalizing s with
  | zero =>
    have hms : s.pending = ms := by rcases hp with ⟨hp, rfl⟩ | hp <;> exact hp
    exact ⟨s, rfl, h, ⟨rfl, rfl, fun _ => rfl, hms, rfl⟩⟩
  | succ n ih =>
    obtain ⟨-, r, hr, hn⟩ := h
    obtain ⟨rest, hturn, hrest⟩ : ∃ rest, Stated.EngineTurn s rest ∧
        (rest = [] ∧ ms = [] ∨ rest = List.replicate n .engine ++ ms) := by
      rcases hp with ⟨hp, rfl⟩ | hp
      · exact ⟨[], .inl ⟨hp, rfl⟩, .inl ⟨rfl, rfl⟩⟩
      · exact ⟨_, .inr hp, .inr rfl⟩
    have hstep : step s = .next (r.withPending rest) :=
      (step_of_engineTurn hturn).trans (engineTurn_withPending rest hr)
    obtain ⟨t, hrun, hshows, ht⟩ := ih (hn.withPending rest) hrest
    have hsr := engineTurn_sameHostSide hr
    exact ⟨t, (runSteps_succ n hstep).trans hrun, hshows, ⟨ht.msgCap.trans hsr.msgCap, ht.len.trans hsr.len,
      fun a => (ht.msg a).trans (hsr.msg a), ht.pending, ht.answers.trans hsr.answers⟩⟩

/-- Settles O55: the command is accepted, and the turns of its run lead to the digest. -/
theorem runComputesTheDigest : Obligations.RunComputesTheDigest := by
  intro s m upper hp hb hlo hhi hm hcap hlen
  have hk : s.lenKnown = true := Bool.and_eq_true_iff.mpr ⟨hlo, hhi⟩
  have ha : lengthAdmitted s.msgCap s.len = true := lengthAdmitted_iff.mpr ⟨hlen, hcap⟩
  obtain ⟨hcommand, hafter⟩ := hostAccess_command_starts_run upper (s := s.withPending []) (m := m) hb hk hm ha
  obtain ⟨t, hrun, hshows, ht⟩ := runSteps_of_showsAfter (ms := []) hafter (.inl ⟨rfl, rfl⟩)
  have hfirst : runSteps 1 s = .next ((s.withPending []).accepted upper) :=
    runSteps_succ 0 ((step_of_access hp).trans hcommand)
  rw [← hm.1] at hrun
  refine ⟨t, (runSteps_add _ hfirst).trans hrun, hshows.idle, hshows.done, fun p hp => ?_, ht.msg, ht.len⟩
  have hchar := List.getElem?_eq_getElem ((digestOf_length upper m).symm ▸ hp)
  exact ⟨_, hchar, (hshows.cells p hp).trans hchar⟩

end Sys2Proof.Machine
end

section
/-! PROOFS. The host protocol for one digest as a list of moves (spec/48_commands.md R312): the writes before the command
in any order, the command, the run, the reads. -/

namespace Sys2Proof.Machine

/-! ## The writes before the command -/

/-- The writes of steps 3 and 4, in whatever order. -/
inductive DataWrite (m : List Byte) : HostAccess → Prop
  | byte {a : Nat} {b : Byte} (h : m[a]? = some b) : DataWrite m (.writeMsg a b)
  | low : DataWrite m (.writeReg 0x08 (BitVec.ofNat 32 m.length))
  | high : DataWrite m (.writeReg 0x0C (BitVec.ofNat 32 (m.length / 2 ^ 32)))

/-- Steps 3 and 4 in the order of the host's choice. -/
def dataWrites (o : ProtocolOrder) (m : List Byte) : List HostAccess :=
  if o.messageFirst then messageWrites 0 m ++ lengthWrites o.lowFirst m.length
  else lengthWrites o.lowFirst m.length ++ messageWrites 0 m

theorem protocolWrites_eq_append (o : ProtocolOrder) (upper : Bool) (m : List Byte) :
    protocolWrites o upper m = dataWrites o m ++ [commandWrite upper] := rfl

theorem dataWrites_length (o : ProtocolOrder) (m : List Byte) : (dataWrites o m).length = m.length + 2 := by
  have h := protocolWrites_length o false m
  rw [protocolWrites_eq_append, List.length_append, List.length_singleton] at h
  omega

theorem mem_lengthWrites (lowFirst : Bool) (n : Nat) (w : HostAccess) :
    w ∈ lengthWrites lowFirst n ↔
      w = .writeReg 0x08 (BitVec.ofNat 32 n) ∨ w = .writeReg 0x0C (BitVec.ofNat 32 (n / 2 ^ 32)) := by
  cases lowFirst <;> simp [lengthWrites, or_comm]

theorem mem_dataWrites {o : ProtocolOrder} {m : List Byte} {w : HostAccess} : w ∈ dataWrites o m ↔ DataWrite m w := by
  have hmem : w ∈ dataWrites o m ↔ w ∈ messageWrites 0 m ∨ w ∈ lengthWrites o.lowFirst m.length := by
    unfold dataWrites
    split <;> simp only [List.mem_append, or_comm]
  rw [hmem, mem_messageWrites, mem_lengthWrites]
  constructor
  · rintro (⟨j, b, rfl, h⟩ | rfl | rfl)
    · rw [Nat.zero_add]; exact .byte h
    · exact .low
    · exact .high
  · rintro (⟨h⟩ | _ | _)
    · exact .inl ⟨_, _, by rw [Nat.zero_add], h⟩
    · exact .inr (.inl rfl)
    · exact .inr (.inr rfl)

/-- The block holds what the access wrote. -/
def InForce (s : State) : HostAccess → Prop
  | .writeMsg a b    => s.msg.read a = some b
  | .writeReg 0x08 v => s.lenLo = v ∧ s.lenLoSet = true
  | .writeReg 0x0C v => s.lenHi = v ∧ s.lenHiSet = true
  | _                => True

/-- The block is idle and has room for the message, and every write that is not in `rest` is in force. -/
structure State.LoadedBut (m : List Byte) (rest : List HostAccess) (s : State) : Prop where
  idle    : s.busy = false
  room    : ∀ c, s.msgCap = some c → m.length ≤ c
  toWrite : ∀ w ∈ rest, DataWrite m w
  loaded  : ∀ w, DataWrite m w → w ∈ rest ∨ InForce s w

/-- Nothing need be loaded before the first write. -/
theorem loadedBut_dataWrites {s : State} {m : List Byte} (o : ProtocolOrder) (hb : s.busy = false)
    (hroom : ∀ c, s.msgCap = some c → m.length ≤ c) : s.LoadedBut m (dataWrites o m) :=
  ⟨hb, hroom, fun _ => mem_dataWrites.mp, fun _ hw => .inl (mem_dataWrites.mpr hw)⟩

theorem State.LoadedBut.withPending {s : State} {m : List Byte} {rest : List HostAccess} (h : s.LoadedBut m rest)
    (ms : List HostMove) : (s.withPending ms).LoadedBut m rest := ⟨h.idle, h.room, h.toWrite, h.loaded⟩

/-- A write of the host into an idle block with room for it puts it in force, and leaves the others in force: two
writes of the protocol to one cell write the same byte. -/
theorem hostAccess_dataWrite {s : State} {m : List Byte} {w : HostAccess} (hw : DataWrite m w) (hb : s.busy = false)
    (hroom : ∀ c, s.msgCap = some c → m.length ≤ c) :
    ∃ t, hostAccess w s = .next t ∧ InForce t w ∧ (∀ x, DataWrite m x → InForce s x → InForce t x) ∧
      t.busy = false ∧ t.msgCap = s.msgCap ∧ t.pending = s.pending ∧ t.answers = s.answers := by
  cases hw with
  | @byte a b hab =>
    have ha : a < m.length := (List.getElem?_eq_some_iff.mp hab).1
    have hcell : msgIndexExists s.msgCap a = true := msgIndexExists_iff.mpr fun c hc => ha.trans_le (hroom c hc)
    refine ⟨_, writeMessage_of_idle b hcell hb, Memory.read_write_same _ _ _, fun x hx hin => ?_, hb, rfl, rfl, rfl⟩
    cases hx with
    | @byte c d hcd =>
      show (s.msg.write a b).read c = some d
      by_cases hca : c = a
      · rw [← hcd, hca, hab, Memory.read_write_same]
      · rw [Memory.read_write_other _ _ hca]; exact hin
    | low => exact hin
    | high => exact hin
  | low =>
    refine ⟨_, hostAccess_writeLenLo _ hb, ⟨rfl, rfl⟩, fun x hx hin => ?_, hb, rfl, rfl, rfl⟩
    cases hx with
    | byte => exact hin
    | low => exact ⟨rfl, rfl⟩
    | high => exact hin
  | high =>
    refine ⟨_, hostAccess_writeLenHi _ hb, ⟨rfl, rfl⟩, fun x hx hin => ?_, hb, rfl, rfl, rfl⟩
    cases hx with
    | byte => exact hin
    | low => exact hin
    | high => exact ⟨rfl, rfl⟩

/-- The host performs its next write. -/
theorem State.LoadedBut.next_write {s : State} {m : List Byte} {w : HostAccess} {ws : List HostAccess}
    (h : s.LoadedBut m (w :: ws)) :
    ∃ t, hostAccess w s = .next t ∧ t.LoadedBut m ws ∧ t.pending = s.pending ∧ t.answers = s.answers := by
  obtain ⟨t, ht, hin, hkeep, htb, htc, htp, hta⟩ :=
    hostAccess_dataWrite (h.toWrite w (List.mem_cons_self ..)) h.idle h.room
  refine ⟨t, ht, ⟨htb, htc ▸ h.room, fun x hx => h.toWrite x (List.mem_cons_of_mem _ hx), fun x hx => ?_⟩, htp, hta⟩
  rcases h.loaded x hx with hmem | hforce
  · rcases List.mem_cons.mp hmem with rfl | hmem
    · exact .inr hin
    · exact .inl hmem
  · exact .inr (hkeep x hx hforce)

/-- With both halves of the length in force `LEN` is the number of bytes (spec/10_state.md R48). -/
theorem State.len_of_halves {s : State} {n : Nat} (hn : n < 2 ^ 64) (hlo : s.lenLo = BitVec.ofNat 32 n)
    (hhi : s.lenHi = BitVec.ofNat 32 (n / 2 ^ 32)) : s.len = n := by
  rw [State.len_eq, hlo, hhi, BitVec.toNat_ofNat, BitVec.toNat_ofNat]
  omega

/-- With nothing left to write the message is loaded, and its command starts its run (spec/48_commands.md R306). -/
theorem State.LoadedBut.command_starts_run {s : State} {m : List Byte} (h : s.LoadedBut m []) (hl : m.length < 2 ^ 61)
    (upper : Bool) :
    hostAccess (commandWrite upper) s = .next (s.accepted upper) ∧
      (s.accepted upper).ShowsAfter (digestOf upper m) (runLength (blocksFor m.length) upper) := by
  have hforce : ∀ w, DataWrite m w → InForce s w := fun w hw => (h.loaded w hw).resolve_left List.not_mem_nil
  obtain ⟨hlo, hloSet⟩ := hforce _ .low
  obtain ⟨hhi, hhiSet⟩ := hforce _ .high
  have hlen : s.len = m.length := State.len_of_halves (by omega) hlo hhi
  have hmsg : s.HoldsMessage m := ⟨hlen, fun j hj => by
    rw [List.getElem?_eq_getElem hj]
    exact hforce _ (.byte (List.getElem?_eq_getElem hj))⟩
  exact hostAccess_command_starts_run upper h.idle (Bool.and_eq_true_iff.mpr ⟨hloSet, hhiSet⟩) hmsg
    (lengthAdmitted_iff.mpr (hlen ▸ ⟨hl, h.room⟩))

/-! ## The moves in their order -/

/-- The host's writes as steps of the machine. -/
theorem runSteps_of_loadedBut {m : List Byte} {ws : List HostAccess} {s : State} {ms : List HostMove}
    (h : s.LoadedBut m ws) (hp : s.pending = ws.map .access ++ ms) :
    ∃ t, runSteps ws.length s = .next t ∧ t.LoadedBut m [] ∧ t.pending = ms ∧ t.answers = s.answers := by
  induction ws generalizing s with
  | nil => exact ⟨s, rfl, h, hp, rfl⟩
  | cons w ws ih =>
    obtain ⟨r, hr, hload, hrp, hra⟩ := (h.withPending (ws.map .access ++ ms)).next_write
    obtain ⟨t, ht, hend, htp, hta⟩ := ih hload hrp
    exact ⟨t, (runSteps_succ _ ((step_of_access hp).trans hr)).trans ht, hend, htp, hta.trans hra⟩

/-- A read of `STATUS` as a step. -/
theorem step_statusRead {s : State} {ms : List HostMove} (hp : s.pending = .access (.readReg 0x04) :: ms) :
    step s = .next ((s.withPending ms).hear (.word s.status)) := step_of_access hp

theorem State.Shows.status {s : State} {ds : List Byte} (h : s.Shows ds) : s.status = 0x00000002 := by
  rw [State.status, h.idle, h.done]; rfl

/-- The host reads one character of the result (spec/48_commands.md R311). -/
theorem State.Shows.hostAccess_read {s : State} {ds : List Byte} (h : s.Shows ds) {p : Nat} (hp : p < 32) {b : Byte}
    (hb : ds[p]? = some b) : hostAccess (.readHex p) s = .next (s.hear (.byte b)) :=
  readResult_of_done hp h.done ((h.cells p hp).trans hb)

/-- The host reads the characters from `p` to the last. -/
theorem runSteps_of_shows {ds : List Byte} (hl : ds.length = 32) {s : State} (h : s.Shows ds) {n p : Nat}
    (hn : p + n = 32) (hp : s.pending = (List.range' p n).map fun q => .access (.readHex q)) :
    ∃ t, runSteps n s = .next t ∧ t.pending = [] ∧ t.answers = s.answers ++ (ds.drop p).map .byte := by
  induction n generalizing s p with
  | zero => exact ⟨s, rfl, hp, by rw [List.drop_of_length_le (by omega), List.map_nil, List.append_nil]⟩
  | succ n ih =>
    have hlt : p < ds.length := by omega
    have hread := (h.withPending ((List.range' (p + 1) n).map fun q => .access (.readHex q))).hostAccess_read
      (by omega) (List.getElem?_eq_getElem hlt)
    obtain ⟨t, ht, htp, hta⟩ := ih (p := p + 1) ((h.withPending _).hear _) (by omega) rfl
    refine ⟨t, (runSteps_succ _ ((step_of_access hp).trans hread)).trans ht, htp, ?_⟩
    rw [hta, List.drop_eq_getElem_cons hlt, List.map_cons, State.hear_answers, List.append_assoc]
    rfl

theorem runSteps_one {s t : State} (h : step s = .next t) : runSteps 1 s = .next t := runSteps_succ 0 h

/-- Steps 1, 3 and 4 against an idle block: one read of `STATUS` and the writes (spec/48_commands.md R312). -/
theorem runSteps_loading {s : State} {m : List Byte} {o : ProtocolOrder} {ms : List HostMove} (hb : s.busy = false)
    (hroom : ∀ c, s.msgCap = some c → m.length ≤ c)
    (hp : s.pending = .access (.readReg 0x04) :: ((dataWrites o m).map .access ++ ms)) :
    ∃ t, runSteps (1 + (dataWrites o m).length) s = .next t ∧ t.LoadedBut m [] ∧ t.pending = ms ∧
      t.answers = s.answers ++ [.word s.status] := by
  obtain ⟨t, ht, hload, htp, hta⟩ := runSteps_of_loadedBut
    (s := (s.withPending ((dataWrites o m).map .access ++ ms)).hear (.word s.status))
    (loadedBut_dataWrites o hb hroom) rfl
  exact ⟨t, (runSteps_add _ (runSteps_one (step_statusRead hp))).trans ht, hload, htp, hta⟩

/-- Step 5 and the turns of the run it starts (spec/48_commands.md R306, R312). -/
theorem runSteps_hashing {s : State} {m : List Byte} {upper : Bool} {ms : List HostMove} (h : s.LoadedBut m [])
    (hl : m.length < 2 ^ 61)
    (hp : s.pending = .access (commandWrite upper) ::
      (List.replicate (runLength (blocksFor m.length) upper) .engine ++ ms)) :
    ∃ t, runSteps (1 + runLength (blocksFor m.length) upper) s = .next t ∧ t.Shows (digestOf upper m) ∧
      t.pending = ms ∧ t.answers = s.answers := by
  obtain ⟨hcommand, hafter⟩ := (h.withPending _).command_starts_run hl upper
  obtain ⟨t, ht, hshows, hsame⟩ := runSteps_of_showsAfter hafter (.inr rfl)
  exact ⟨t, (runSteps_add _ (runSteps_one ((step_of_access hp).trans hcommand))).trans ht, hshows, hsame.pending,
    hsame.answers⟩

/-- Steps 6 and 7 once the run has ended: one read of `STATUS` and the reads of `HEX` (spec/48_commands.md R312). -/
theorem runSteps_collecting {s : State} {ds : List Byte} (hl : ds.length = 32) (h : s.Shows ds)
    (hp : s.pending = .access (.readReg 0x04) :: (List.range' 0 32).map fun p => .access (.readHex p)) :
    ∃ t, runSteps (1 + 32) s = .next t ∧ t.pending = [] ∧
      t.answers = s.answers ++ [.word 0x00000002] ++ ds.map .byte := by
  obtain ⟨t, ht, htp, hta⟩ := runSteps_of_shows hl ((h.withPending _).hear (.word s.status)) (Nat.zero_add 32) rfl
  refine ⟨t, (runSteps_add _ (runSteps_one (step_statusRead hp))).trans ht, htp, ?_⟩
  rw [hta, h.status, List.drop_zero]
  rfl

/-- The moves of the protocol in its steps. -/
theorem hostProtocol_eq (o : ProtocolOrder) (upper : Bool) (m : List Byte) (k : Nat) :
    hostProtocol o upper m k =
      .access (.readReg 0x04) :: ((dataWrites o m).map .access ++ .access (commandWrite upper) ::
        (List.replicate k .engine ++ .access (.readReg 0x04) ::
          (List.range' 0 32).map fun p => .access (.readHex p))) := by
  simp [hostProtocol, protocolWrites_eq_append, List.range_eq_range']

theorem hostProtocol_length (o : ProtocolOrder) (upper : Bool) (m : List Byte) (k : Nat) :
    (hostProtocol o upper m k).length = (1 + (dataWrites o m).length) + ((1 + k) + (1 + 32)) := by
  rw [hostProtocol_eq]
  simp only [List.length_cons, List.length_append, List.length_map, List.length_replicate, List.length_range']
  omega

/-- Settles O56: the loading, the run and the reads, one after the other. -/
theorem hostProtocolReturnsTheDigest : Obligations.HostProtocolReturnsTheDigest := by
  intro s m o upper hb hl hroom hp
  change s.pending = hostProtocol o upper m (runLength (blocksFor m.length) upper) at hp
  have hfirst : s.status = if s.done then 0x00000002 else 0x00000000 := by
    rw [State.status, hb]; cases s.done <;> rfl
  rw [hp, hostProtocol_length]
  rw [hostProtocol_eq] at hp
  obtain ⟨s1, h1, hload, hp1, ha1⟩ := runSteps_loading hb hroom hp
  obtain ⟨s2, h2, hshows, hp2, ha2⟩ := runSteps_hashing hload hl hp1
  obtain ⟨t, h3, hpt, hat⟩ := runSteps_collecting (digestOf_length upper m) hshows hp2
  refine ⟨t, ?_, hpt, ?_⟩
  · rw [runSteps_add _ h1, runSteps_add _ h2, h3]
  · rw [hat, ha2, ha1, hfirst]
    rfl

end Sys2Proof.Machine
end

section
/-! PROOFS. Under the invariant the engine goes on (spec/60_exceptions.md R320, R321): the code in `UPC` is a place of
the micro-program, and the operation there finds every cell it needs. -/

namespace Sys2Proof.Machine

/-- A reserved code is no place of the micro-program. -/
theorem ne_place_of_reserved {c : BitVec 8} (h : decode (.uop c) = .reserved) :
    c ≠ 0x40 ∧ c ≠ 0x41 ∧ c ≠ 0x42 ∧ c ≠ 0x43 ∧ c ≠ 0x80 ∧ ¬ (c.toNat ≤ 0x3F ∨ c = 0x81 ∨ c = 0x82) ∧
      c ≠ 0xC0 ∧ c ≠ 0xC1 ∧ c ≠ 0xC2 := by
  have hranges := (decode_uop_reserved_ranges c).mp h
  refine ⟨?_, ?_, ?_, ?_, ?_, ?_, ?_, ?_, ?_⟩ <;> bv_omega

/-- The phase names a micro-operation (spec/10_state.md R61). -/
theorem State.Phase.decodes {s : State} (h : s.Phase) : ∃ i, decode (.uop s.upc) = .instr i := by
  have hnot : ¬ decode (.uop s.upc) = .reserved := fun hres => by
    obtain ⟨h1, h2, h3, h4, h5, h6, h7, h8, h9⟩ := ne_place_of_reserved hres
    rwa [s.phase_at rfl, if_neg h1, if_neg h2, if_neg h3, if_neg h4, if_neg h5, if_neg h6, if_neg h7, if_neg h8,
      if_neg h9] at h
  rw [decode_uop_eq_elim] at hnot ⊢
  cases hi : (classMap (s.upc.extractLsb' 6 2))[(s.upc.extractLsb' 0 6).toNat]? with
  | some i => exact ⟨i, rfl⟩
  | none => exact absurd (by rw [hi]; rfl) hnot

/-- Every cell of `MSG[0..L-1]` holds a byte. -/
def State.MessageWritten (s : State) : Prop := ∀ j, j < s.len → ∃ b, s.msg.read j = some b

theorem State.MessageWritten.readRange {s : State} (h : s.MessageWritten) :
    ∃ bs, s.msg.readRange 0 s.len = some bs := by
  cases hr : s.msg.readRange 0 s.len with
  | some bs => exact ⟨bs, rfl⟩
  | none =>
    obtain ⟨j, hj, hn⟩ := (Memory.readRange_eq_none_iff _ _ _).mp hr
    obtain ⟨b, hb⟩ := h j hj
    rw [Nat.zero_add, hb] at hn
    cases hn

/-- In a state that meets the invariant the operation at `UPC` completes, if the bytes `PACK` reads are there. -/
theorem State.Inv.exec_completes {s : State} {i : Instr} (h : s.Inv) (hb : s.busy = true)
    (hmsg : s.upc = 0x40 → s.MessageWritten) (hd : decode (.uop s.upc) = .instr i) : ∃ t, exec i s = .next t := by
  obtain ⟨-, ha, hp⟩ := h.running hb
  have hfits : ∀ {n}, n ≤ 16 * blocksFor s.len → s.wFits n = true := s.wFits_of_le (s.wFits_of_admitted ha)
  have hroom := marked_le_blocksFor s.len
  obtain ⟨hl, hu⟩ := decode_uop_ne_command hd
  rcases instr_step_or_other i with ⟨k, rfl⟩ | rfl | rfl | rfl | rfl | rfl | rfl | rfl | rfl | rfl | rfl | rfl | rfl
  · -- a step: its message word is in the block `BLK`
    have hk : (BitVec.ofNat 8 k.val).toNat ≤ 0x3F := by rw [BitVec.toNat_ofNat]; omega
    obtain ⟨hw, hblk⟩ := (State.phase_at_step (upc_of_decode hd (encode_stepInstr k)) hk).mp hp
    obtain ⟨x, hx⟩ := (messageWord_isSome_iff k s).mpr (by rw [State.wordIndex]; omega)
    exact ⟨_, (exec_stepInstr k s).trans (stepOp_of_word hx)⟩
  · -- PACK
    obtain ⟨bs, hbs⟩ := (hmsg (upc_of_decode hd rfl)).readRange
    obtain ⟨hbl, -⟩ := (Memory.readRange_eq_some_iff _ _ _ _).mp hbs
    have hpl : (packBytes bs 0 []).length = (s.len + 3) / 4 := by rw [packBytes_length bs rfl, hbl, Nat.zero_add]
    exact ⟨_, (execPack_of_read hbs).trans (storeW_of_fits _ (hfits (by omega)))⟩
  · -- MARK
    have hw := (State.phase_at_mark (upc_of_decode hd rfl)).mp hp
    by_cases h4 : s.len % 4 = 0
    · refine ⟨_, (execMark_new h4).trans (storeW_of_fits _ (hfits ?_))⟩
      rw [List.length_append, List.length_singleton, ← State.wlen]
      omega
    · exact ⟨_, execMark_into h4 (by omega)⟩
  · -- ZEXT
    have hw := (State.phase_at_zext (upc_of_decode hd rfl)).mp hp
    refine ⟨_, storeW_of_fits _ (hfits ?_)⟩
    rw [List.length_append, List.length_replicate, ← State.wlen]
    omega
  · -- LENW
    have hw := (State.phase_at_lenw (upc_of_decode hd rfl)).mp hp
    refine ⟨_, storeW_of_fits _ (hfits ?_)⟩
    rw [List.length_append, List.length_cons, List.length_singleton, ← State.wlen]
    omega
  · exact ⟨_, rfl⟩ -- INIT
  · exact ⟨_, rfl⟩ -- SNAP
  · -- CHAIN
    by_cases hlt : s.blk + 1 < s.blockCount
    · exact ⟨_, (execChain_eq s).trans (if_pos hlt)⟩
    · exact ⟨_, (execChain_eq s).trans (if_neg hlt)⟩
  · exact ⟨_, execEncl_eq s⟩ -- ENCL
  · exact ⟨_, execEncu_eq s⟩ -- ENCU
  · exact ⟨_, rfl⟩ -- FIN
  · exact absurd rfl hl
  · exact absurd rfl hu

/-- In a state that meets the invariant, with its message written, the engine's turn goes on and keeps both. -/
theorem State.Inv.engineTurn_completes {s : State} (h : s.Inv) (hmsg : s.MessageWritten) :
    ∃ t, engineTurn s = .next t ∧ t.Inv ∧ t.MessageWritten := by
  cases hb : s.busy with
  | false => exact ⟨s, engineTurn_idle hb, h, hmsg⟩
  | true =>
    obtain ⟨-, -, hp⟩ := h.running hb
    obtain ⟨i, hd⟩ := hp.decodes
    obtain ⟨t, ht⟩ := h.exec_completes hb (fun _ => hmsg) hd
    have hturn : engineTurn s = .next t := (engineTurn_of_decode hb hd).trans ht
    have hsame := engineTurn_sameHostSide hturn
    exact ⟨t, hturn, h.of_exec hb hd ht, fun j hj => by rw [hsame.msg]; exact hmsg j (hsame.len ▸ hj)⟩

end Sys2Proof.Machine
end

section
/-! PROOFS. The host that plays the protocol (spec/48_commands.md R312): what holds of host and block in each phase,
kept by every turn of either, and a schedule under which the host finishes. -/

namespace Sys2Proof.Machine

/-! ## What holds in each phase -/

/-- What holds of a host that submits `m` and of the block while the protocol is played. -/
inductive Playing (upper : Bool) (m : List Byte) : Client → State → Prop
  | waitIdle {o : ProtocolOrder} {s : State} (room : ∀ c, s.msgCap = some c → m.length ≤ c)
      (run : s.busy = true → s.Inv ∧ s.MessageWritten) : Playing upper m (submitBytes o upper m) s
  | writing {ws wrs : List HostAccess} {s : State} (load : s.LoadedBut m ws) :
      Playing upper m ⟨.writing (ws ++ [commandWrite upper]), wrs, []⟩ s
  | waitDone {wrs : List HostAccess} {n : Nat} {s : State} (left : s.ShowsAfter (digestOf upper m) n) :
      Playing upper m ⟨.waitDone, wrs, []⟩ s
  | reading {wrs : List HostAccess} {p : Nat} {s : State} (hp : p < 32) (shows : s.Shows (digestOf upper m)) :
      Playing upper m ⟨.reading p, wrs, (digestOf upper m).take p⟩ s
  | finished {wrs : List HostAccess} {s : State} (shows : s.Shows (digestOf upper m)) :
      Playing upper m ⟨.finished, wrs, digestOf upper m⟩ s

section
variable {upper : Bool} {m : List Byte}

/-- A host that has finished has the digest, and the block shows it. -/
theorem Playing.of_finished {c : Client} {s : State} (h : Playing upper m c s) (hc : c.phase = .finished) :
    c.result = digestOf upper m ∧ s.Shows (digestOf upper m) := by
  cases h with
  | finished shows => exact ⟨rfl, shows⟩
  | waitIdle => cases hc
  | writing => cases hc
  | waitDone => cases hc
  | reading => cases hc

/-- A host may read the result again while the block shows it. -/
theorem playing_readAgain {s : State} (h : s.Shows (digestOf upper m)) (c : Client) :
    Playing upper m (readAgain c) s :=
  .reading (Nat.succ_pos 31) h

/-! ## The engine's turn -/

/-- Whatever the phase, the engine's turn goes on and what holds in the phase holds after it. -/
theorem Playing.engineTurn {c : Client} {s : State} (h : Playing upper m c s) :
    ∃ t, engineTurn s = .next t ∧ Playing upper m c t := by
  cases h with
  | waitIdle room run =>
    cases hb : s.busy with
    | false => exact ⟨s, engineTurn_idle hb, .waitIdle room run⟩
    | true =>
      obtain ⟨hinv, hmsg⟩ := run hb
      obtain ⟨t, ht, hkeep⟩ := hinv.engineTurn_completes hmsg
      exact ⟨t, ht, .waitIdle ((engineTurn_sameHostSide ht).msgCap ▸ room) fun _ => hkeep⟩
  | writing load => exact ⟨s, engineTurn_idle load.idle, .writing load⟩
  | @waitDone _ n _ left =>
    cases n with
    | zero => exact ⟨s, engineTurn_idle left.idle, .waitDone (n := 0) left⟩
    | succ n =>
      obtain ⟨-, t, ht, hn⟩ := left
      exact ⟨t, ht, .waitDone hn⟩
  | reading hp shows => exact ⟨s, engineTurn_idle shows.idle, .reading hp shows⟩
  | finished shows => exact ⟨s, engineTurn_idle shows.idle, .finished shows⟩

theorem Playing.withPending {c : Client} {s : State} (h : Playing upper m c s) (ms : List HostMove) :
    Playing upper m c (s.withPending ms) := by
  cases h with
  | waitIdle room run => exact .waitIdle room fun hb => ⟨(run hb).1.withPending ms, (run hb).2⟩
  | writing load => exact .writing (load.withPending ms)
  | waitDone left => exact .waitDone (left.withPending ms)
  | reading hp shows => exact .reading hp (shows.withPending ms)
  | finished shows => exact .finished (shows.withPending ms)

/-! ## The host's turn -/

/-- A turn at which the host reads. -/
theorem playTurn_read {c : Client} {s : State} {a : HostAccess} {x : HostAnswer} (ha : clientAccess c = some a)
    (h : hostAccess a (s.withPending []) = .next ((s.withPending []).hear x)) :
    playTurn .client c s = .next (clientHears c (some x), (s.withPending []).hear x) := by
  rw [playTurn_client ha h, State.hear_getLast]

/-- Step 1 against an idle block (spec/48_commands.md R312). -/
theorem playTurn_waitIdle {s : State} (o : ProtocolOrder) (hb : s.busy = false) :
    playTurn .client (submitBytes o upper m) s =
      .next (⟨.writing (dataWrites o m ++ [commandWrite upper]), protocolWrites o upper m, []⟩,
        (s.withPending []).hear (.word s.status)) := by
  have hbit : s.status.getLsbD 0 = false := s.status_bit_busy.trans hb
  refine (playTurn_read rfl (x := .word s.status) rfl).trans ?_
  simp only [clientHears, submitBytes, hbit, Bool.false_eq_true, if_false]
  rfl

/-- Step 1 against a busy block: the host stays where it is. -/
theorem playTurn_waitIdle_busy {s : State} (o : ProtocolOrder) (hb : s.busy = true) :
    playTurn .client (submitBytes o upper m) s =
      .next (submitBytes o upper m, (s.withPending []).hear (.word s.status)) := by
  have hbit : s.status.getLsbD 0 = true := s.status_bit_busy.trans hb
  refine (playTurn_read rfl (x := .word s.status) rfl).trans ?_
  simp only [clientHears, submitBytes, hbit, if_true]

theorem clientHears_writing (w : HostAccess) (ws wrs : List HostAccess) (x : Option HostAnswer) :
    clientHears ⟨.writing (w :: (ws ++ [commandWrite upper])), wrs, []⟩ x =
      ⟨.writing (ws ++ [commandWrite upper]), wrs, []⟩ := by
  cases ws <;> rfl

/-- A write of step 3 or 4. -/
theorem playTurn_writing {s : State} {w : HostAccess} {ws wrs : List HostAccess} (h : s.LoadedBut m (w :: ws)) :
    ∃ t, playTurn .client ⟨.writing (w :: ws ++ [commandWrite upper]), wrs, []⟩ s =
      .next (⟨.writing (ws ++ [commandWrite upper]), wrs, []⟩, t) ∧ t.LoadedBut m ws := by
  obtain ⟨t, ht, hload, -, -⟩ := (h.withPending []).next_write
  refine ⟨t, (playTurn_client rfl ht).trans ?_, hload⟩
  rw [List.cons_append, clientHears_writing]

/-- Step 5: the run has all its turns before it. -/
theorem playTurn_command {s : State} {wrs : List HostAccess} (h : s.LoadedBut m []) (hl : m.length < 2 ^ 61) :
    ∃ t, playTurn .client ⟨.writing [commandWrite upper], wrs, []⟩ s = .next (⟨.waitDone, wrs, []⟩, t) ∧
      t.ShowsAfter (digestOf upper m) (runLength (blocksFor m.length) upper) := by
  obtain ⟨hcommand, hafter⟩ := (h.withPending []).command_starts_run hl upper
  exact ⟨_, playTurn_client rfl hcommand, hafter⟩

/-- Step 6 while the run goes on. -/
theorem playTurn_waitDone {s : State} {wrs : List HostAccess} (hd : s.done = false) :
    playTurn .client ⟨.waitDone, wrs, []⟩ s =
      .next (⟨.waitDone, wrs, []⟩, (s.withPending []).hear (.word s.status)) := by
  have hbit : s.status.getLsbD 1 = false := s.status_bit_done.trans hd
  refine (playTurn_read rfl (x := .word s.status) rfl).trans ?_
  simp only [clientHears, hbit, Bool.false_eq_true, if_false]

/-- Step 6 once the run has ended. -/
theorem playTurn_waitDone_shows {s : State} {wrs : List HostAccess} {ds : List Byte} (h : s.Shows ds) :
    playTurn .client ⟨.waitDone, wrs, []⟩ s =
      .next (⟨.reading 0, wrs, []⟩, (s.withPending []).hear (.word s.status)) := by
  have hbit : s.status.getLsbD 1 = true := s.status_bit_done.trans h.done
  refine (playTurn_read rfl (x := .word s.status) rfl).trans ?_
  simp only [clientHears, hbit, if_true]

/-- Step 7: the next character. -/
theorem playTurn_reading {s : State} {wrs : List HostAccess} {ds : List Byte} (hl : ds.length = 32) (h : s.Shows ds)
    {p : Nat} (hp : p < 32) :
    ∃ t, playTurn .client ⟨.reading p, wrs, ds.take p⟩ s =
      .next (⟨if p < 31 then .reading (p + 1) else .finished, wrs, ds.take (p + 1)⟩, t) ∧ t.Shows ds := by
  have hchar : ds[p]? = some ds[p] := List.getElem?_eq_getElem (hl.symm ▸ hp)
  have hplay := playTurn_read (c := ⟨.reading p, wrs, ds.take p⟩) rfl ((h.withPending []).hostAccess_read hp hchar)
  refine ⟨_, ?_, (h.withPending []).hear (.byte ds[p])⟩
  rw [hplay, List.take_add_one, hchar]
  rfl

/-- A host that has finished does nothing. -/
theorem playTurn_finished {c : Client} (hc : c.phase = .finished) (s : State) :
    playTurn .client c s = .next (c, s) := by
  have hnone : clientAccess c = none := by rw [clientAccess, hc]
  rw [playTurn, hnone]

/-- Whatever the phase, the host's turn goes on and what holds in its next phase holds after it. -/
theorem Playing.clientTurn {c : Client} {s : State} (h : Playing upper m c s) (hl : m.length < 2 ^ 61) :
    ∃ d t, playTurn .client c s = .next (d, t) ∧ Playing upper m d t := by
  cases h with
  | @waitIdle o _ room run =>
    cases hb : s.busy with
    | false => exact ⟨_, _, playTurn_waitIdle o hb, .writing (loadedBut_dataWrites o hb room)⟩
    | true =>
      obtain ⟨hinv, hmsg⟩ := run hb
      exact ⟨_, _, playTurn_waitIdle_busy o hb, .waitIdle room fun _ => ⟨(hinv.withPending []).hear _, hmsg⟩⟩
  | @writing ws _ _ load =>
    cases ws with
    | nil =>
      obtain ⟨t, ht, hafter⟩ := playTurn_command load hl
      exact ⟨_, t, ht, .waitDone hafter⟩
    | cons w ws =>
      obtain ⟨t, ht, hload⟩ := playTurn_writing load
      exact ⟨_, t, ht, .writing hload⟩
  | @waitDone _ n _ left =>
    cases n with
    | zero =>
      exact ⟨_, _, playTurn_waitDone_shows left, .reading (Nat.succ_pos 31) ((State.Shows.withPending left []).hear _)⟩
    | succ n => exact ⟨_, _, playTurn_waitDone left.1, .waitDone ((left.withPending []).hear _)⟩
  | @reading _ p _ hp shows =>
    obtain ⟨t, ht, hshows⟩ := playTurn_reading (digestOf_length upper m) shows hp
    refine ⟨_, t, ht, ?_⟩
    by_cases hlast : p < 31
    · rw [if_pos hlast]
      exact .reading (Nat.succ_lt_succ hlast) hshows
    · rw [if_neg hlast, List.take_of_length_le (by rw [digestOf_length]; omega)]
      exact .finished hshows
  | finished shows => exact ⟨_, _, playTurn_finished rfl s, .finished shows⟩

/-! ## Every schedule -/

theorem play_cons {who : ProtocolTurn} {turns : List ProtocolTurn} {c d : Client} {s t : State}
    (h : playTurn who c s = .next (d, t)) : play (who :: turns) c s = play turns d t := by
  rw [play, h]

/-- No turn stops, whoever takes it, and what holds in each phase is kept. -/
theorem Playing.play {c : Client} {s : State} (h : Playing upper m c s) (hl : m.length < 2 ^ 61)
    (turns : List ProtocolTurn) : ∃ d t, play turns c s = .next (d, t) ∧ Playing upper m d t := by
  induction turns generalizing c s with
  | nil => exact ⟨c, s, rfl, h⟩
  | cons who turns ih =>
    obtain ⟨d, t, ht, hnext⟩ : ∃ d t, playTurn who c s = .next (d, t) ∧ Playing upper m d t := by
      cases who with
      | client => exact h.clientTurn hl
      | engine =>
        obtain ⟨t, ht, hnext⟩ := (h.withPending []).engineTurn
        exact ⟨c, t, playTurn_engine ht, hnext⟩
    rw [play_cons ht]
    exact ih hnext

/-! ## A schedule under which the host finishes -/

/-- The writes and the command. -/
theorem play_writing {ws wrs : List HostAccess} {s : State} (h : s.LoadedBut m ws) (hl : m.length < 2 ^ 61) :
    ∃ t, play (List.replicate (ws.length + 1) .client) ⟨.writing (ws ++ [commandWrite upper]), wrs, []⟩ s =
        .next (⟨.waitDone, wrs, []⟩, t) ∧
      t.ShowsAfter (digestOf upper m) (runLength (blocksFor m.length) upper) := by
  induction ws generalizing s with
  | nil =>
    obtain ⟨t, ht, hafter⟩ := playTurn_command h hl
    exact ⟨t, play_cons ht, hafter⟩
  | cons w ws ih =>
    obtain ⟨r, hr, hload⟩ := playTurn_writing h
    obtain ⟨t, ht, hafter⟩ := ih hload
    exact ⟨t, (play_cons hr).trans ht, hafter⟩

/-- The turns of the run. -/
theorem play_engine {ds : List Byte} {n : Nat} {s : State} (h : s.ShowsAfter ds n) (c : Client) :
    ∃ t, play (List.replicate n .engine) c s = .next (c, t) ∧ t.Shows ds := by
  induction n generalizing s with
  | zero => exact ⟨s, rfl, h⟩
  | succ n ih =>
    obtain ⟨-, r, hr, hn⟩ := h
    obtain ⟨t, ht, hshows⟩ := ih (hn.withPending [])
    exact ⟨t, (play_cons (playTurn_engine (engineTurn_withPending [] hr))).trans ht, hshows⟩

/-- The reads of the characters from `p` to the last. -/
theorem play_reading {ds : List Byte} (hl : ds.length = 32) {s : State} (h : s.Shows ds) {wrs : List HostAccess}
    {p n : Nat} (hn : p + n = 31) :
    ∃ d t, play (List.replicate (n + 1) .client) ⟨.reading p, wrs, ds.take p⟩ s = .next (d, t) ∧
      d.phase = .finished := by
  induction n generalizing s p with
  | zero =>
    obtain ⟨t, ht, -⟩ := playTurn_reading (wrs := wrs) hl h (p := p) (by omega)
    rw [if_neg (by omega)] at ht
    exact ⟨_, t, play_cons ht, rfl⟩
  | succ n ih =>
    obtain ⟨r, hr, hshows⟩ := playTurn_reading (wrs := wrs) hl h (p := p) (by omega)
    rw [if_pos (by omega)] at hr
    obtain ⟨d, t, ht, hd⟩ := ih hshows (p := p + 1) (by omega)
    exact ⟨d, t, (play_cons hr).trans ht, hd⟩

/-- Against an idle block the host finishes when it takes its turns, then the engine, then the host again. -/
theorem play_finishes {s : State} (o : ProtocolOrder) (hb : s.busy = false)
    (hroom : ∀ c, s.msgCap = some c → m.length ≤ c) (hl : m.length < 2 ^ 61) :
    ∃ d t, play (List.replicate (m.length + 4) .client ++
        List.replicate (runLength (blocksFor m.length) upper) .engine ++ List.replicate 33 .client)
        (submitBytes o upper m) s = .next (d, t) ∧ d.phase = .finished := by
  obtain ⟨r, hwrites, hafter⟩ := play_writing (upper := upper) (wrs := protocolWrites o upper m)
    (loadedBut_dataWrites (s := (s.withPending []).hear (.word s.status)) o hb hroom) hl
  rw [dataWrites_length] at hwrites
  have hclient : play (List.replicate (m.length + 4) .client) (submitBytes o upper m) s = _ :=
    (play_cons (playTurn_waitIdle o hb)).trans hwrites
  obtain ⟨q, hengine, hshows⟩ := play_engine hafter ⟨.waitDone, protocolWrites o upper m, []⟩
  obtain ⟨d, t, hreads, hd⟩ := play_reading (digestOf_length upper m) ((hshows.withPending []).hear (.word q.status))
    (wrs := protocolWrites o upper m) (Nat.zero_add 31)
  refine ⟨d, t, ?_, hd⟩
  rw [List.append_assoc, play_append hclient, play_append hengine]
  exact (play_cons (playTurn_waitDone_shows hshows)).trans hreads

end

/-- Settles O57: what holds in each phase is kept by every turn, and the schedule named is one under which the host
finishes. -/
theorem hostProtocolUnderEverySchedule : Obligations.HostProtocolUnderEverySchedule := by
  intro text m o upper c s hsubmit htext hl hroom hrun
  rw [submit, htext, Option.map_some, Option.some.injEq] at hsubmit
  subst hsubmit
  refine ⟨fun turns => ?_, fun hb => play_finishes o hb hroom hl⟩
  obtain ⟨d, t, hplay, hd⟩ := (Playing.waitIdle (upper := upper) (o := o) hroom hrun).play hl turns
  refine ⟨d, t, hplay, fun hfin => ?_⟩
  obtain ⟨hresult, hshows⟩ := hd.of_finished hfin
  refine ⟨hresult, fun again => ?_⟩
  obtain ⟨e, r, hagain, he⟩ := (playing_readAgain hshows d).play hl again
  exact ⟨e, r, hagain, fun hfin => (he.of_finished hfin).1⟩

end Sys2Proof.Machine
end

section
/-! PROOFS. The one way the engine's turn stops under the invariant (spec/60_exceptions.md R320, R321): at `PACK`, on a
byte of the message that nothing has written (spec/41_core_entry.md R170). -/

namespace Sys2Proof.Machine

/-- A message not written has a cell that holds no value. -/
theorem State.exists_unwritten_cell {s : State} (h : ¬ s.MessageWritten) : ∃ j, j < s.len ∧ s.msg.read j = none := by
  unfold State.MessageWritten at h
  push Not at h
  obtain ⟨j, hj, hnone⟩ := h
  exact ⟨j, hj, Option.eq_none_iff_forall_ne_some.mpr hnone⟩

/-- The engine's turn at `PACK` is refused on a message not written. -/
theorem engineTurn_at_pack_of_unwritten_cell {s : State} (hb : s.busy = true) (hu : s.upc = 0x40) {j : Nat}
    (hj : j < s.len) (hnone : s.msg.read j = none) : engineTurn s = .refused .messageUnwritten := by
  have hd : decode (.uop s.upc) = .instr .pack := hu ▸ decode_encode .pack
  exact (engineTurn_of_decode hb hd).trans (packRefusesAnUnwrittenByte s j hj hnone)

/-- In a state that meets the invariant the engine's turn goes on, if the bytes `PACK` reads are there. -/
theorem State.Inv.engineTurn_keeps {s : State} (h : s.Inv)
    (hmsg : s.busy = true → s.upc = 0x40 → s.MessageWritten) : ∃ t, engineTurn s = .next t ∧ t.Inv := by
  cases hb : s.busy with
  | false => exact ⟨s, engineTurn_idle hb, h⟩
  | true =>
    obtain ⟨-, -, hp⟩ := h.running hb
    obtain ⟨i, hd⟩ := hp.decodes
    obtain ⟨t, ht⟩ := h.exec_completes hb (hmsg hb) hd
    exact ⟨t, (engineTurn_of_decode hb hd).trans ht, h.of_exec hb hd ht⟩

/-- The engine's turn under the invariant: it goes on, or it stands at `PACK` of a message not written. -/
theorem State.Inv.engineTurn_keeps_or_unwritten {s : State} (h : s.Inv) :
    (∃ t, engineTurn s = .next t ∧ t.Inv) ∨
      (engineTurn s = .refused .messageUnwritten ∧ s.busy = true ∧ s.upc = 0x40 ∧
        ∃ j, j < s.len ∧ s.msg.read j = none) := by
  by_cases hmsg : s.busy = true → s.upc = 0x40 → s.MessageWritten
  · exact .inl (h.engineTurn_keeps hmsg)
  · push Not at hmsg
    obtain ⟨hb, hu, hnot⟩ := hmsg
    obtain ⟨j, hj, hnone⟩ := State.exists_unwritten_cell hnot
    exact .inr ⟨engineTurn_at_pack_of_unwritten_cell hb hu hj hnone, hb, hu, j, hj, hnone⟩

/-- Settles O54: the step is the engine's turn once its move is taken from the list, which the invariant does not see. -/
theorem engineNeverFaultsUnderTheInvariant : Obligations.EngineNeverFaultsUnderTheInvariant := by
  intro s ms h hturn
  rw [step_of_engineTurn hturn]
  exact (h.withPending ms).engineTurn_keeps_or_unwritten

end Sys2Proof.Machine
end

section
/-! PROOFS. The reset event (spec/70_reset_and_hazards.md R350 to R353): the state it leaves, where the engine is idle and
`STATUS` reads 0. -/

namespace Sys2Proof.Machine

/-- A step in which an idle engine has the turn only takes the move from the list (spec/70_reset_and_hazards.md R351; log 2). -/
theorem step_of_engineTurn_idle {s : State} {ms : List HostMove} (h : Stated.EngineTurn s ms) (hb : s.busy = false) :
    step s = .next (s.withPending ms) :=
  (step_of_engineTurn h).trans (engineTurn_idle (s := s.withPending ms) hb)

/-- `STATUS` is 0 where neither flag is set (spec/10_state.md R47). -/
theorem State.status_of_flags_clear {s : State} (hb : s.busy = false) (hd : s.done = false) : s.status = 0x00000000 := by
  rw [State.status, hb, hd]; rfl

/-- A read of `STATUS` where neither flag is set answers 0 and changes nothing else. -/
theorem step_statusRead_of_flags_clear {s : State} {ms : List HostMove} (h : Stated.HostTurn s (.readReg 0x04) ms)
    (hb : s.busy = false) (hd : s.done = false) : step s = .next ((s.withPending ms).hear (.word 0x00000000)) := by
  rw [step_statusRead h, State.status_of_flags_clear hb hd]

/-- Settles O13: the move is the reset event, after which both flags are 0; an idle engine's turn holds the state, and
`STATUS` shows the two flags. -/
theorem resetLeavesTheEngineIdle : Obligations.ResetLeavesTheEngineIdle := by
  intro s ms hreset
  have hstep : step s = .next (s.withPending ms).resetEvent := step_of_reset_move hreset
  have hbusy : (s.withPending ms).resetEvent.busy = false := State.resetEvent_busy _
  have hdone : (s.withPending ms).resetEvent.done = false := State.resetEvent_done _
  exact ⟨hstep, _, hstep, hbusy, hdone, State.resetEvent_pending _,
    fun _ hturn => step_of_engineTurn_idle hturn hbusy,
    fun _ hread => step_statusRead_of_flags_clear hread hbusy hdone⟩

end Sys2Proof.Machine
end
